-- ==== Sys2Proof/Word.lean ====
section
/-! DEFINITION. The words the machine is made of: a register is 32 bits (R20, 10_state.md section 2), an octet 8 bits and
an octet string a finite sequence of octets, its first octet the most significant (R8). -/

namespace Sys2Proof

/-- The value of a word register (10_state.md section 2: all word registers are 32 bits wide). -/
abbrev Word := BitVec 32

/-- An octet (R8). -/
abbrev Byte := BitVec 8

/-- An octet string (R8): octet 0 is the leftmost, most significant one. -/
abbrev Bytes := List Byte

/-- A hash selector, the 4-bit field HSEL (R90, R92). -/
abbrev Sel := BitVec 4

/-- `⌈bits/8⌉` (R7: "all bit-length and octet-length computations must match ceiling-division semantics exactly"). -/
def ceil8 (bits : Nat) : Nat := (bits + 7) / 8

end Sys2Proof
end

