-- ==== Sys2Proof/Syntax.lean ====
section
/-! DEFINITION. The command set: one constructor per row of opcode_table.json (R91), with the fields of the command word
that R96 lets vary. All other operands are implicit: registers and buffers named by the opcode (R90). -/

namespace Sys2Proof

/-- A command. `h` is HSEL, `crt` picks slot CRT (true) or PRIV (false), `it` the implicit trailer, `um` the minimum
selection, `ss` salt supplied, `sld` salt length default (R90). -/
inductive Instr where
  | nop
  | keyLoadPub
  | keyLoadPriv
  | keyLoadCrt
  | keyClear
  | rsaep
  | rsadp (crt : Bool)
  | rsasp1 (crt : Bool)
  | rsavp1
  | minsel
  | mgf1 (h : Sel)
  | emeV15Encode
  | emeV15Decode
  | oaepEncode (h : Sel)
  | oaepDecode (h : Sel)
  | emsaV15Encode (h : Sel)
  | pssEncode (h : Sel) (ss sld : Bool)
  | pssCheck (h : Sel) (sld : Bool)
  | esV15Encrypt
  | esV15Decrypt (crt : Bool)
  | esOaepEncrypt (h : Sel)
  | esOaepDecrypt (h : Sel) (crt : Bool)
  | ssaV15Sign (h : Sel) (crt : Bool)
  | ssaV15Verify (h : Sel)
  | ssaPssSign (h : Sel) (crt ss sld : Bool)
  | ssaPssVerify (h : Sel) (sld : Bool)
  | ds1Sign (h : Sel) (it um crt : Bool)
  | ds1Verify (h : Sel)
  | ds2Sign (h : Sel) (it um crt ss sld : Bool)
  | ds2Verify (h : Sel) (sld : Bool)
  | ds3Sign (h : Sel) (it um crt : Bool)
  | ds3Verify (h : Sel)
  deriving DecidableEq, Repr

end Sys2Proof
end

