-- ==== Sys2Proof/WellFormed.lean ====
section
/-! DEFINITION. Which commands the encoding admits. The one check that the constructors' fields do not make by themselves
is R93: `SS = 1` together with `SLD = 1` is not a legal combination for any opcode. (That HSEL names a configured hash is
step 3 of R95 and depends on the configuration: the machine checks it when the command runs; log 13.) -/

namespace Sys2Proof

/-- R93: a supplied salt has its own length. -/
def saltFlagsLegal (ss sld : Bool) : Bool := !(ss && sld)

/-- A well-formed command: one that has a legal encoding (R93). -/
def Instr.wf : Instr → Bool
  | .nop => true
  | .keyLoadPub => true
  | .keyLoadPriv => true
  | .keyLoadCrt => true
  | .keyClear => true
  | .rsaep => true
  | .rsadp _ => true
  | .rsasp1 _ => true
  | .rsavp1 => true
  | .minsel => true
  | .mgf1 _ => true
  | .emeV15Encode => true
  | .emeV15Decode => true
  | .oaepEncode _ => true
  | .oaepDecode _ => true
  | .emsaV15Encode _ => true
  | .pssEncode _ ss sld => saltFlagsLegal ss sld
  | .pssCheck _ _ => true
  | .esV15Encrypt => true
  | .esV15Decrypt _ => true
  | .esOaepEncrypt _ => true
  | .esOaepDecrypt _ _ => true
  | .ssaV15Sign _ _ => true
  | .ssaV15Verify _ => true
  | .ssaPssSign _ _ ss sld => saltFlagsLegal ss sld
  | .ssaPssVerify _ _ => true
  | .ds1Sign _ _ _ _ => true
  | .ds1Verify _ => true
  | .ds2Sign _ _ _ _ ss sld => saltFlagsLegal ss sld
  | .ds2Verify _ _ => true
  | .ds3Sign _ _ _ _ => true
  | .ds3Verify _ => true

end Sys2Proof
end

