-- ==== Sys2Proof/Decode.lean ====
section
/-! DEFINITION. The command word (R90) and its decoder: steps 1 and 2 of R95 and the half of step 3 that needs no
configuration (an opcode that uses no hash must have HSEL = 0), rejecting by name; the opcode map R91 and the columns
"hash" and "flags" of R96 as one table. After it the encoder, written from the same table. A command word is written to CMD
as one 32-bit value, so no byte order enters (R62). -/

namespace Sys2Proof

/-- The fields of a command word (R90). -/
structure Fields where
  opc : Byte
  hsel : Sel
  it : Bool
  um : Bool
  crt : Bool
  ss : Bool
  sld : Bool
  reserved : BitVec 15
  deriving DecidableEq, Repr

/-- Cut a command word into its fields (R90). -/
def fieldsOf (w : Word) : Fields where
  opc := w.extractLsb' 0 8
  hsel := w.extractLsb' 8 4
  it := w.getLsbD 12
  um := w.getLsbD 13
  crt := w.getLsbD 14
  ss := w.getLsbD 15
  sld := w.getLsbD 16
  reserved := w.extractLsb' 17 15

/-- Why a word is no command (R95 steps 1 to 3). All of them end the command with E_ILLEGAL. -/
inductive Illegal where
  /-- Step 1, R97: the opcode is reserved. -/
  | reservedOpcode (opc : Byte)
  /-- Step 2, R94: a bit of 31:17 is set. -/
  | reservedBits
  /-- Step 2, R93: a flag the opcode does not use is set. -/
  | unusedFlag
  /-- Step 2, R93: SS and SLD together. -/
  | ssWithSld
  /-- Step 3, R92: the opcode uses no hash and HSEL is not 0. -/
  | unusedHsel
  deriving DecidableEq, Repr

/-- A row of R91 and R96: whether HSEL is used, the flag bits that may be 1, and the command. -/
structure OpRow where
  hash : Bool
  it : Bool := false
  um : Bool := false
  crt : Bool := false
  ss : Bool := false
  sld : Bool := false
  build : Fields → Instr

/-- The opcode map (R91) with the columns "hash" and "flags" of R96; `none` for a reserved opcode (R97). -/
def opRow (opc : Nat) : Option OpRow :=
  match opc with
  | 0x00 => some { hash := false, build := fun _ => .nop }
  | 0x01 => some { hash := false, build := fun _ => .keyLoadPub }
  | 0x02 => some { hash := false, build := fun _ => .keyLoadPriv }
  | 0x03 => some { hash := false, build := fun _ => .keyLoadCrt }
  | 0x04 => some { hash := false, build := fun _ => .keyClear }
  | 0x10 => some { hash := false, build := fun _ => .rsaep }
  | 0x11 => some { hash := false, crt := true, build := fun f => .rsadp f.crt }
  | 0x12 => some { hash := false, crt := true, build := fun f => .rsasp1 f.crt }
  | 0x13 => some { hash := false, build := fun _ => .rsavp1 }
  | 0x14 => some { hash := false, build := fun _ => .minsel }
  | 0x20 => some { hash := true, build := fun f => .mgf1 f.hsel }
  | 0x21 => some { hash := false, build := fun _ => .emeV15Encode }
  | 0x22 => some { hash := false, build := fun _ => .emeV15Decode }
  | 0x23 => some { hash := true, build := fun f => .oaepEncode f.hsel }
  | 0x24 => some { hash := true, build := fun f => .oaepDecode f.hsel }
  | 0x25 => some { hash := true, build := fun f => .emsaV15Encode f.hsel }
  | 0x26 => some { hash := true, ss := true, sld := true, build := fun f => .pssEncode f.hsel f.ss f.sld }
  | 0x27 => some { hash := true, sld := true, build := fun f => .pssCheck f.hsel f.sld }
  | 0x30 => some { hash := false, build := fun _ => .esV15Encrypt }
  | 0x31 => some { hash := false, crt := true, build := fun f => .esV15Decrypt f.crt }
  | 0x32 => some { hash := true, build := fun f => .esOaepEncrypt f.hsel }
  | 0x33 => some { hash := true, crt := true, build := fun f => .esOaepDecrypt f.hsel f.crt }
  | 0x34 => some { hash := true, crt := true, build := fun f => .ssaV15Sign f.hsel f.crt }
  | 0x35 => some { hash := true, build := fun f => .ssaV15Verify f.hsel }
  | 0x36 => some { hash := true, crt := true, ss := true, sld := true, build := fun f => .ssaPssSign f.hsel f.crt f.ss f.sld }
  | 0x37 => some { hash := true, sld := true, build := fun f => .ssaPssVerify f.hsel f.sld }
  | 0x40 => some { hash := true, it := true, um := true, crt := true, build := fun f => .ds1Sign f.hsel f.it f.um f.crt }
  | 0x41 => some { hash := true, build := fun f => .ds1Verify f.hsel }
  | 0x42 => some { hash := true, it := true, um := true, crt := true, ss := true, sld := true,
                   build := fun f => .ds2Sign f.hsel f.it f.um f.crt f.ss f.sld }
  | 0x43 => some { hash := true, sld := true, build := fun f => .ds2Verify f.hsel f.sld }
  | 0x44 => some { hash := true, it := true, um := true, crt := true, build := fun f => .ds3Sign f.hsel f.it f.um f.crt }
  | 0x45 => some { hash := true, build := fun f => .ds3Verify f.hsel }
  | _ => none

/-- Whether every flag that is set is one the opcode uses (R93, R96). -/
def OpRow.flagsUsed (row : OpRow) (f : Fields) : Bool :=
  (!f.it || row.it) && (!f.um || row.um) && (!f.crt || row.crt) && (!f.ss || row.ss) && (!f.sld || row.sld)

/-- Decode a command word (R95 steps 1, 2, 3), total on all `2^32` words (R292). -/
def decode (w : Word) : Except Illegal Instr :=
  let f := fieldsOf w
  match opRow f.opc.toNat with
  | none => .error (.reservedOpcode f.opc)
  | some row =>
    if f.reserved ≠ 0 then .error .reservedBits
    else if row.flagsUsed f = false then .error .unusedFlag
    else if saltFlagsLegal f.ss f.sld = false then .error .ssWithSld
    else if row.hash = false ∧ f.hsel ≠ 0 then .error .unusedHsel
    else .ok (row.build f)

/-- Put the fields of a command word together, bits 31:17 zero (R90). -/
def packWord (opc : Byte) (hsel : Sel := 0) (it : Bool := false) (um : Bool := false) (crt : Bool := false)
    (ss : Bool := false) (sld : Bool := false) : Word :=
  (0#15 ++ BitVec.ofBool sld ++ BitVec.ofBool ss ++ BitVec.ofBool crt ++ BitVec.ofBool um ++ BitVec.ofBool it ++ hsel ++ opc :
    BitVec 32)

/-- The command word of a command (R91, R96). -/
def encode : Instr → Word
  | .nop => packWord 0x00
  | .keyLoadPub => packWord 0x01
  | .keyLoadPriv => packWord 0x02
  | .keyLoadCrt => packWord 0x03
  | .keyClear => packWord 0x04
  | .rsaep => packWord 0x10
  | .rsadp crt => packWord 0x11 (crt := crt)
  | .rsasp1 crt => packWord 0x12 (crt := crt)
  | .rsavp1 => packWord 0x13
  | .minsel => packWord 0x14
  | .mgf1 h => packWord 0x20 h
  | .emeV15Encode => packWord 0x21
  | .emeV15Decode => packWord 0x22
  | .oaepEncode h => packWord 0x23 h
  | .oaepDecode h => packWord 0x24 h
  | .emsaV15Encode h => packWord 0x25 h
  | .pssEncode h ss sld => packWord 0x26 h (ss := ss) (sld := sld)
  | .pssCheck h sld => packWord 0x27 h (sld := sld)
  | .esV15Encrypt => packWord 0x30
  | .esV15Decrypt crt => packWord 0x31 (crt := crt)
  | .esOaepEncrypt h => packWord 0x32 h
  | .esOaepDecrypt h crt => packWord 0x33 h (crt := crt)
  | .ssaV15Sign h crt => packWord 0x34 h (crt := crt)
  | .ssaV15Verify h => packWord 0x35 h
  | .ssaPssSign h crt ss sld => packWord 0x36 h (crt := crt) (ss := ss) (sld := sld)
  | .ssaPssVerify h sld => packWord 0x37 h (sld := sld)
  | .ds1Sign h it um crt => packWord 0x40 h it um crt
  | .ds1Verify h => packWord 0x41 h
  | .ds2Sign h it um crt ss sld => packWord 0x42 h it um crt ss sld
  | .ds2Verify h sld => packWord 0x43 h (sld := sld)
  | .ds3Sign h it um crt => packWord 0x44 h it um crt
  | .ds3Verify h => packWord 0x45 h

/-- The command that a word, given as the host numbers its bits, decodes to; every bit above `nbits` is 0. -/
def decodeTableWord (nbits w : Nat) : Option Instr :=
  match decode (BitVec.ofNat 32 (w % 2 ^ nbits)) with
  | .ok i => some i
  | .error _ => none

end Sys2Proof
end

