-- ==== Sys2Proof/Config.lean ====
section
/-! DEFINITION. What an implementation fixes (R6) and the free values. A `Config` holds every parameter of R6, with the
constraints R6 puts on them as proof fields (93_implementation_defined.md I7), and the answers of the random port (R11).
Every definition of the machine takes a `Config` as an argument. -/

namespace Sys2Proof

/-- A row of the hash descriptor table `HASHES` (R41): digest length in octets and the ISO/IEC 9796-2 trailer identifier,
`none` for a hash that has no valid explicit trailer (90_conflicts.md C3). -/
structure HashRow where
  hLen : Nat
  hashID : Option Byte
  hLen_pos : 1 ≤ hLen

/-- Row 1 of R41, SHA-1. -/
def sha1Row : HashRow := ⟨20, some 0x33#8, by decide⟩

/-- Row 2 of R41, SHA-256. -/
def sha256Row : HashRow := ⟨32, some 0x34#8, by decide⟩

/-- The parameters of R6, the collaborators of R10 and R12 as functions, and the random port's answers.
A draw is a free input of the step (R9, R11): `rng i` is the `i`-th octet the port ever delivers,
`rngNonzero i` the `i`-th octet of its answers to a request for non-zero octets (R151), less one. -/
structure Config where
  /-- `MAX_K`; `none` is unbounded. -/
  maxK : Option Nat
  /-- `MAX_BUF`, octets of every buffer. -/
  maxBuf : Nat
  /-- `BUF_STRIDE`, address distance of two buffer windows. -/
  bufStride : Nat
  /-- `E_BITS_INF`. -/
  eBitsInf : Nat
  /-- `E_BITS_SUP`. -/
  eBitsSup : Nat
  /-- `MOD_BITS_INF`. -/
  modBitsInf : Nat
  /-- `HASHES` (R41). -/
  hashes : Sel → Option HashRow
  /-- `Hash` (R10). -/
  hash : Sel → Bytes → Bytes
  /-- `tLen`, the length of a DigestInfo (R12). -/
  tLen : Sel → Nat
  /-- `DigestInfo` (R12). -/
  digestInfo : Sel → Bytes → Bytes
  /-- `PSS_SLACK` (R201). -/
  pssSlack : Nat
  /-- `DS1_PAD`, the pad region of ds1 as a bit string, most significant bit first (R224). -/
  ds1Pad : Nat → Bool → List Bool
  /-- The parser that belongs to `DS1_PAD`: what follows the pad region, if the string starts with one (R227 steps 1 to 3). -/
  ds1Unpad : List Bool → Option (List Bool)
  /-- The random port (R11). -/
  rng : Nat → Byte
  /-- The random port asked for non-zero octets (R151). -/
  rngNonzero : Nat → Fin 255
  maxK_pos : ∀ k, maxK = some k → 1 ≤ k
  maxBuf_ge : ∀ k, maxK = some k → ceil8 k ≤ maxBuf
  stride_pow : ∃ e, bufStride = 2 ^ e
  stride_ge : max maxBuf 0x100 ≤ bufStride
  eBitsInf_eq : eBitsInf = 2
  hashes_none : hashes 0 = none
  hashes_sha1 : hashes 1 = some sha1Row
  hashes_sha256 : hashes 2 = some sha256Row
  hash_length : ∀ sel row X, hashes sel = some row → (hash sel X).length = row.hLen
  digestInfo_length : ∀ sel row D, hashes sel = some row → D.length = row.hLen →
    (digestInfo sel D).length = tLen sel
  pssSlack_le : pssSlack ≤ 1
  ds1Pad_length : ∀ r m, 4 ≤ r → (ds1Pad r m).length = r
  ds1Pad_top : ∀ r m, 4 ≤ r → (ds1Pad r m).head? = some false
  ds1Unpad_pad : ∀ r m body, 4 ≤ r → body.length % 8 = 0 → ds1Unpad (ds1Pad r m ++ body) = some body

namespace Config

/-- FREE VALUE (R10; log 2): octet `i` of the digest of a string under a selector. Nothing is known of it. -/
opaque hashOctet : Sel → Bytes → Nat → Byte

/-- FREE VALUE (R11; log 4): the octets the random port delivers, in the order the engine takes them. -/
opaque rngOctet : Nat → Byte

/-- FREE VALUE (R151; log 5): the non-zero octets the random port delivers, each less one. -/
opaque rngNonzeroOctet : Nat → Fin 255

end Config

end Sys2Proof
end

