-- ==== Sys2Proof/Machine/State.lean ====
section
/-! DEFINITION. The whole architectural state of RSAENG (R20): the word registers of R32, the 14 buffers of R34, the three
key slots of R38 to R40; beside them three fields of the MODEL's own (`drawn`, `inputs`, `resp`). What two names share is
stored once: STATUS, K_PUB, K_PRIV, K_CRT, FINDINGS as words and the interrupt output are computed views (Flags.lean). -/

namespace Sys2Proof.Machine

/-- `STATUS.PHASE` (R21): 0 IDLE, 1 BUSY, 2 DONE; 3 never occurs. -/
inductive Phase where
  | idle
  | busy
  | done
  deriving DecidableEq, Repr

/-- `STATUS.ERR` (R290): the result codes 0 to 5; 6 to 15 never occur. -/
inductive Err where
  | ok
  | domain
  | capacity
  | fail
  | param
  | illegal
  deriving DecidableEq, Repr

/-- The buffers of R34, in the order of their ids 0 to 13 (`inp` is the buffer IN). -/
inductive BufId where
  | msg
  | label
  | salt
  | inp
  | out
  | aux
  | kn
  | ke
  | kd
  | kp
  | kq
  | kdp
  | kdq
  | kqinv
  deriving DecidableEq, Repr

/-- One thing for each buffer: its octets, or its length register. -/
structure PerBuf (α : Type) where
  msg : α
  label : α
  salt : α
  inp : α
  out : α
  aux : α
  kn : α
  ke : α
  kd : α
  kp : α
  kq : α
  kdp : α
  kdq : α
  kqinv : α
  deriving DecidableEq, Repr

/-- The octets of a buffer, as the cells (offset, octet) whose octet is not 0x00, offsets rising. An offset that is not
listed holds 0x00: the reset contents of every buffer (R45). -/
abbrev Memory := List Host.Cell

/-- Slot PUB (R38). When `valid` is false every other field is zero. -/
structure PubSlot where
  valid : Bool
  n : Nat
  e : Nat
  k : Nat
  klen : Nat
  deriving DecidableEq, Repr

/-- Slot PRIV (R39). -/
structure PrivSlot where
  valid : Bool
  n : Nat
  e : Nat
  d : Nat
  k : Nat
  klen : Nat
  deriving DecidableEq, Repr

/-- Slot CRT (R40); `n = p·q` is derived at load. -/
structure CrtSlot where
  valid : Bool
  p : Nat
  q : Nat
  dP : Nat
  dQ : Nat
  qInv : Nat
  n : Nat
  k : Nat
  klen : Nat
  deriving DecidableEq, Repr

/-- The bits of `FINDINGS` (R25). -/
structure Findings where
  pubModShort : Bool
  pubEWindow : Bool
  privModShort : Bool
  privEWindow : Bool
  crtModShort : Bool
  deriving DecidableEq, Repr

/-- What is still to happen to the block, in order: a host access (R60), a turn of the engine (R69 leaves the moment of
completion open), or a reset (R320). -/
inductive HostEvent where
  | read (addr n : Nat)
  | write (addr n v : Nat)
  | engine
  | reset
  deriving DecidableEq, Repr

/-- The answer of the bus to a host access (R61, R63): a register's value, an octet, a write that was taken (or dropped
without an error, R66), or a bus error, which carries no data. -/
inductive BusResponse where
  | word (v : Word)
  | octet (v : Byte)
  | written
  | busError
  deriving DecidableEq, Repr

structure State where
  /-- CMD, the latched command word (R22). -/
  cmd : Word
  /-- STATUS.PHASE (R21). -/
  phase : Phase
  /-- STATUS.ERR (R21, R290). -/
  err : Err
  /-- IEN.DONE_IE (R24). -/
  doneIe : Bool
  /-- FINDINGS (R25). -/
  findings : Findings
  /-- EMBITS (R27). -/
  embits : Word
  /-- M1BITS (R28). -/
  m1bits : Word
  /-- The length registers (R29, R30, R31). -/
  lens : PerBuf Word
  /-- The buffers (R34). -/
  bufs : PerBuf Memory
  /-- Slot PUB (R38). -/
  pub : PubSlot
  /-- Slot PRIV (R39). -/
  priv : PrivSlot
  /-- Slot CRT (R40). -/
  crt : CrtSlot
  /-- MODEL's own (log 4): how many octets have been taken from the random port. -/
  drawn : Nat
  /-- MODEL's own (log 6): the host's accesses, the engine's turns and the resets still to come. -/
  inputs : List HostEvent
  /-- MODEL's own (log 6): the bus's answer to the last host access. -/
  resp : Option BusResponse
  deriving DecidableEq, Repr

/-- Why a step stops the machine. No step does: R292 gives every one of the `2^32` command words a defined outcome, and a
bus error (R63) is an answer to the host after which the block goes on. So no one raises a fault, which is safe. -/
inductive Fault where
  deriving DecidableEq, Repr

/-- Why an instruction has no meaning here. -/
inductive Refusal where
  /-- Raised by an arm of `exec` whose command is not modelled yet (safe: nothing is claimed of it). No arm is left so. -/
  | notModelled (mnemonic : String)
  deriving DecidableEq, Repr

/-- The outcome of a step of this machine. -/
abbrev Outcome := Host.Outcome State Fault Refusal

/-- The same thing for every buffer. -/
def PerBuf.all {α : Type} (x : α) : PerBuf α := ⟨x, x, x, x, x, x, x, x, x, x, x, x, x, x⟩

/-- An empty slot PUB (R38: "When `valid = 0` the other fields are zero"). -/
def PubSlot.empty : PubSlot := ⟨false, 0, 0, 0, 0⟩

/-- An empty slot PRIV (R39, R45). -/
def PrivSlot.empty : PrivSlot := ⟨false, 0, 0, 0, 0, 0⟩

/-- An empty slot CRT (R40, R45). -/
def CrtSlot.empty : CrtSlot := ⟨false, 0, 0, 0, 0, 0, 0, 0, 0⟩

/-- FINDINGS with no bit set. -/
def Findings.none : Findings := ⟨false, false, false, false, false⟩

/-- The state after reset (R45, R320): every register zero, every octet 0x00, every slot empty, PHASE IDLE, the interrupt
disabled. The model's own fields: nothing drawn, nothing to come, no answer on the bus (DESIGN CHOICE, log 4, 6). -/
def State.reset : State where
  cmd := 0
  phase := .idle
  err := .ok
  doneIe := false
  findings := Findings.none
  embits := 0
  m1bits := 0
  lens := PerBuf.all 0
  bufs := PerBuf.all []
  pub := PubSlot.empty
  priv := PrivSlot.empty
  crt := CrtSlot.empty
  drawn := 0
  inputs := []
  resp := none

end Sys2Proof.Machine
end

