-- ==== Sys2Proof/Machine/Operands.lean ====
section
/-! DEFINITION. Every operand form of a command: the octet codec (R8), the buffers with their length registers (R34, R35),
the key slots as the operand of a public-side or private-side command (R275), the selected hash (R92), and the operand use of
an opcode with its common checks (R95 steps 2 to 5, R96). -/

namespace Sys2Proof.Machine

/-! ## Integers and octet strings -/

/-- `bitlen(x)` (R7). -/
def bitlen (x : Nat) : Nat := if x = 0 then 0 else Nat.log2 x + 1

/-- `OS2IP(X)` (R8): big-endian, the empty string gives 0. -/
def os2ip (X : Bytes) : Nat := X.foldl (fun acc b => acc * 256 + b.toNat) 0

/-- `I2OS(x, l)` (R8), for `x < 256^l`; for a larger `x`, where R8 does not define it, the low `l` octets (log 18). -/
def i2os (x : Nat) : Nat → Bytes
  | 0 => []
  | l + 1 => BitVec.ofNat 8 (x / 256 ^ l) :: i2os x l

/-- `X ⊕ Y` (R8). -/
def xorBytes (X Y : Bytes) : Bytes := List.zipWith (· ^^^ ·) X Y

/-- `b×c`, `c` copies of octet `b` (R8). -/
def copies (c : Nat) (b : Byte) : Bytes := List.replicate c b

/-- `X[0] <- X[0] and (0xFF >> z)`: clear the `z` top bits of the first octet (R202, R244). -/
def clearTop (z : Nat) : Bytes → Bytes
  | [] => []
  | b :: rest => (b &&& (0xFF#8 >>> z)) :: rest

/-- Whether the `z` top bits of the first octet are all zero (R205 (c), R245 step 7). -/
def topIsZero (z : Nat) (X : Bytes) : Bool := X.headD 0 &&& ~~~(0xFF#8 >>> z) == 0

/-! ## Buffers and length registers -/

/-- The id of a buffer (R34). -/
def BufId.num : BufId → Nat
  | .msg => 0
  | .label => 1
  | .salt => 2
  | .inp => 3
  | .out => 4
  | .aux => 5
  | .kn => 6
  | .ke => 7
  | .kd => 8
  | .kp => 9
  | .kq => 10
  | .kdp => 11
  | .kdq => 12
  | .kqinv => 13

/-- The buffer with an id (R34). -/
def BufId.ofNum : Nat → Option BufId
  | 0 => some .msg
  | 1 => some .label
  | 2 => some .salt
  | 3 => some .inp
  | 4 => some .out
  | 5 => some .aux
  | 6 => some .kn
  | 7 => some .ke
  | 8 => some .kd
  | 9 => some .kp
  | 10 => some .kq
  | 11 => some .kdp
  | 12 => some .kdq
  | 13 => some .kqinv
  | _ => none

/-- What belongs to a buffer. -/
def PerBuf.get {α : Type} (P : PerBuf α) : BufId → α
  | .msg => P.msg
  | .label => P.label
  | .salt => P.salt
  | .inp => P.inp
  | .out => P.out
  | .aux => P.aux
  | .kn => P.kn
  | .ke => P.ke
  | .kd => P.kd
  | .kp => P.kp
  | .kq => P.kq
  | .kdp => P.kdp
  | .kdq => P.kdq
  | .kqinv => P.kqinv

/-- Replace what belongs to one buffer. -/
def PerBuf.set {α : Type} (P : PerBuf α) (b : BufId) (x : α) : PerBuf α :=
  match b with
  | .msg => { P with msg := x }
  | .label => { P with label := x }
  | .salt => { P with salt := x }
  | .inp => { P with inp := x }
  | .out => { P with out := x }
  | .aux => { P with aux := x }
  | .kn => { P with kn := x }
  | .ke => { P with ke := x }
  | .kd => { P with kd := x }
  | .kp => { P with kp := x }
  | .kq => { P with kq := x }
  | .kdp => { P with kdp := x }
  | .kdq => { P with kdq := x }
  | .kqinv => { P with kqinv := x }

/-- The octet at an offset of a buffer's memory; 0x00 where no cell is listed (R45). -/
def Memory.read : Memory → Nat → Byte
  | [], _ => 0
  | (k, v) :: m, a => if k = a then v else Memory.read m a

/-- The first `n` octets of a buffer's memory, `BUF[0..n)` (R9). -/
def Memory.bytes (m : Memory) (n : Nat) : Bytes := (List.range n).map (Memory.read m)

/-- The length register of a buffer (R29, R30, R31). -/
def State.len (s : State) (b : BufId) : Word := s.lens.get b

/-- The memory of a buffer (R34). -/
def State.buf (s : State) (b : BufId) : Memory := s.bufs.get b

/-- Octet `i` of a buffer, `BUF[i]` (R9). -/
def State.octet (s : State) (b : BufId) (i : Nat) : Byte := Memory.read (s.buf b) i

/-- A string operand, `X[0..X_LEN)` (R35): octets from `X_LEN` on have no effect on any result. -/
def State.operand (s : State) (b : BufId) : Bytes := Memory.bytes (s.buf b) (s.len b).toNat

/-- An integer operand, `OS2IP(X[0..X_LEN))` (R62, R131). -/
def State.intOperand (s : State) (b : BufId) : Nat := os2ip (s.operand b)

/-! ## The selected hash -/

/-- `hLen(sel)` (R41). -/
def hLen (C : Config) (sel : Sel) : Nat :=
  match C.hashes sel with
  | some row => row.hLen
  | none => 0

/-- `hashID(sel)`, `none` for a hash without one (R41). -/
def hashID (C : Config) (sel : Sel) : Option Byte :=
  match C.hashes sel with
  | some row => row.hashID
  | none => none

/-! ## Draws -/

/-- `Rng(n)` (R11): the next `n` octets of the random port. -/
def draw (C : Config) (s : State) (n : Nat) : Bytes := (List.range n).map fun i => C.rng (s.drawn + i)

/-- `draw({X : len(X) = n and every X[i] ≠ 0x00})` (R151). -/
def drawNonzero (C : Config) (s : State) (n : Nat) : Bytes :=
  (List.range n).map fun i => BitVec.ofNat 8 ((C.rngNonzero (s.drawn + i)).val + 1)

/-! ## Key slots as operands -/

/-- What every private-side rule uses of a slot beside `PrivExp` (R275). -/
structure Modulus where
  n : Nat
  k : Nat
  klen : Nat
  deriving DecidableEq, Repr

/-- The modulus of slot PUB. -/
def State.pubMod (s : State) : Modulus := ⟨s.pub.n, s.pub.k, s.pub.klen⟩

/-- The modulus of the selected private slot: CRT when the flag is 1, else PRIV (R90 bit 14). -/
def State.privMod (s : State) (crt : Bool) : Modulus :=
  if crt then ⟨s.crt.n, s.crt.k, s.crt.klen⟩ else ⟨s.priv.n, s.priv.k, s.priv.klen⟩

/-- The slot an opcode needs (R96 column "slot"). -/
inductive SlotUse where
  | none
  | pub
  | priv (crt : Bool)
  deriving DecidableEq, Repr

/-- Whether the slot an opcode needs holds a key (R95 step 4). -/
def State.slotValid (s : State) : SlotUse → Bool
  | .none => true
  | .pub => s.pub.valid
  | .priv crt => if crt then s.crt.valid else s.priv.valid

/-! ## Operand use and the common checks -/

/-- The operand use of a command (R96): whether its salt flags are legal (R93), the hash it selects, the slot it needs, the
buffers whose length register it uses, and whether it uses EMBITS. -/
structure Use where
  flagsLegal : Bool := true
  hash : Option Sel := none
  slot : SlotUse := .none
  bufs : List BufId := []
  embits : Bool := false
  deriving DecidableEq, Repr

/-- The common checks of R95 that the decoder leaves to the running command, in their order: step 2 (SS with SLD), step 3 (the
hash has a row), step 4 (the slot holds a key), step 5 (lengths). `none` when all pass. -/
def preCheck (C : Config) (u : Use) (s : State) : Option Err :=
  if u.flagsLegal = false then some .illegal
  else if (u.hash.all fun h => (C.hashes h).isSome) = false then some .illegal
  else if s.slotValid u.slot = false then some .illegal
  else if (u.bufs.all fun b => (s.len b).toNat ≤ C.maxBuf) = false then some .param
  else if u.embits = true ∧ C.maxBuf < ceil8 s.embits.toNat then some .param
  else none

/-- The buffer SALT with SALT_LEN is an input unless the default salt length is taken (R96: "When `SLD = 1` the register
SALT_LEN is not used and is not checked"). -/
def saltInput (sld : Bool) : List BufId := if sld then [] else [.salt]

/-- The salt length `sLen` (R203, R242): `hLen` when SLD = 1, else SALT_LEN. -/
def saltLen (C : Config) (h : Sel) (sld : Bool) (s : State) : Nat :=
  if sld then hLen C h else (s.len .salt).toNat

/-- The salt of an encoding or sign command (R203, R242): supplied when SS = 1, else drawn. -/
def saltOf (C : Config) (h : Sel) (ss sld : Bool) (s : State) : Bytes :=
  if ss then s.operand .salt else draw C s (saltLen C h sld s)

/-- How many octets `saltOf` takes from the random port. -/
def saltDrawn (C : Config) (h : Sel) (ss sld : Bool) (s : State) : Nat :=
  if ss then 0 else saltLen C h sld s

end Sys2Proof.Machine
end

