-- ==== Sys2Proof/Machine/Flags.lean ====
section
/-! DEFINITION. Every flag computation: STATUS as software reads it (R21), the interrupt output (R300), the findings and the
FINDINGS word (R25), and K_PUB, K_PRIV, K_CRT (R26). -/

namespace Sys2Proof.Machine

/-- The number of a phase in `STATUS.PHASE` (R21). -/
def Phase.code : Phase → BitVec 2
  | .idle => 0
  | .busy => 1
  | .done => 2

/-- The number of a result code (R290). -/
def Err.code : Err → BitVec 4
  | .ok => 0
  | .domain => 1
  | .capacity => 2
  | .fail => 3
  | .param => 4
  | .illegal => 5

/-- The interrupt output, a level: `PHASE = DONE and IEN.DONE_IE = 1` (R300). -/
def irq (s : State) : Bool := s.phase = .done && s.doneIe

/-- STATUS as it reads (R21): PHASE 1:0, ERR 7:4, PUBV 8, PRIVV 9, CRTV 10, IRQ 16, all else zero. -/
def statusWord (s : State) : Word :=
  (0#15 ++ BitVec.ofBool (irq s) ++ 0#5 ++ BitVec.ofBool s.crt.valid ++ BitVec.ofBool s.priv.valid ++
    BitVec.ofBool s.pub.valid ++ s.err.code ++ 0#2 ++ s.phase.code : BitVec 32)

/-- IEN as it reads (R24): bit 0 DONE_IE, all else zero. -/
def ienWord (s : State) : Word := (0#31 ++ BitVec.ofBool s.doneIe : BitVec 32)

/-- FINDINGS as it reads (R25): bits 0, 1 of PUB, 8, 9 of PRIV, 16 of CRT, all else zero. -/
def findingsWord (f : Findings) : Word :=
  (0#15 ++ BitVec.ofBool f.crtModShort ++ 0#6 ++ BitVec.ofBool f.privEWindow ++ BitVec.ofBool f.privModShort ++ 0#6 ++
    BitVec.ofBool f.pubEWindow ++ BitVec.ofBool f.pubModShort : BitVec 32)

/-- `k mod 2^32` of a slot (R26). -/
def kWord (k : Nat) : Word := BitVec.ofNat 32 k

/-- The finding MOD_SHORT (R25). -/
def modShort (C : Config) (k : Nat) : Bool := k < C.modBitsInf

/-- The finding E_WINDOW (R25). -/
def eWindow (C : Config) (e : Nat) : Bool := bitlen e < C.eBitsInf || C.eBitsSup < bitlen e

/-- FINDINGS after a successful KEY_LOAD_PUB (R271 step 5): the bits of the other slots are unchanged (R25). -/
def findPub (C : Config) (k e : Nat) (f : Findings) : Findings :=
  { f with pubModShort := modShort C k, pubEWindow := eWindow C e }

/-- FINDINGS after a successful KEY_LOAD_PRIV (R272 step 5). -/
def findPriv (C : Config) (k e : Nat) (f : Findings) : Findings :=
  { f with privModShort := modShort C k, privEWindow := eWindow C e }

/-- FINDINGS after a successful KEY_LOAD_CRT (R273 step 5). -/
def findCrt (C : Config) (k : Nat) (f : Findings) : Findings := { f with crtModShort := modShort C k }

end Sys2Proof.Machine
end

