-- ==== Sys2Proof/Machine/Ops.lean ====
section
/-! DEFINITION. The named operations over buffers and registers, and the transitions every command shares: accept (R22),
completion with a result (R101) or with an error (`raise`, R296; this is RSAENG's exception entry, R299), and the acknowledge
(R23; its return from one, R299). -/

namespace Sys2Proof.Machine

/-! ## Memory of a buffer -/

/-- The canonical form of a buffer's memory: offsets strictly rising, no cell equal to what an unlisted offset reads as. -/
abbrev Memory.wf (m : Memory) : Prop := m.Pairwise (fun a b => a.1 < b.1) ∧ ∀ c ∈ m, c.2 ≠ 0

/-- Every listed offset is below a bound. -/
abbrev Memory.below (n : Nat) (m : Memory) : Prop := ∀ c ∈ m, c.1 < n

/-- Write one octet: writing 0x00 removes the cell, so that equal memories are equal lists. -/
def Memory.write : Memory → Nat → Byte → Memory
  | [], a, v => if v = 0 then [] else [(a, v)]
  | (k, w) :: m, a, v =>
    if k < a then (k, w) :: Memory.write m a v
    else if k = a then (if v = 0 then m else (a, v) :: m)
    else if v = 0 then (k, w) :: m
    else (a, v) :: (k, w) :: m

/-- The memory that holds a string from an offset on and 0x00 everywhere else. -/
def Memory.ofBytesFrom : Nat → Bytes → Memory
  | _, [] => []
  | i, b :: bs => if b = 0 then Memory.ofBytesFrom (i + 1) bs else (i, b) :: Memory.ofBytesFrom (i + 1) bs

/-- The memory that holds a string at offset 0 and 0x00 past it. -/
def Memory.ofBytes (X : Bytes) : Memory := Memory.ofBytesFrom 0 X

/-! ## Register and buffer updates -/

/-- Replace a buffer's memory. -/
def State.setBuf (s : State) (b : BufId) (m : Memory) : State := { s with bufs := s.bufs.set b m }

/-- Replace a length register. -/
def State.setLen (s : State) (b : BufId) (w : Word) : State := { s with lens := s.lens.set b w }

/-- `BUF[i] <- v` (R61). -/
def State.setOctet (s : State) (b : BufId) (i : Nat) (v : Byte) : State := s.setBuf b (Memory.write (s.buf b) i v)

/-- OUT and AUX hold two strings at offset 0, zero past them, and OUT_LEN, AUX_LEN their lengths (R36; R30). A length is
kept modulo `2^32`, the width of the register (log 12). -/
def State.setResults (s : State) (out aux : Bytes) : State :=
  { s with
    bufs := (s.bufs.set .out (Memory.ofBytes out)).set .aux (Memory.ofBytes aux)
    lens := (s.lens.set .out (BitVec.ofNat 32 out.length)).set .aux (BitVec.ofNat 32 aux.length) }

/-! ## The life of a command -/

/-- Command accept (R22): latch the word, PHASE <- BUSY, ERR <- 0, OUT, AUX and their lengths cleared. -/
def accept (w : Word) (s : State) : State :=
  { s.setResults [] [] with cmd := w, phase := .busy, err := .ok }

/-- Completion with `ERR = 0` (R101): the results, ERR <- E_OK, PHASE <- DONE, all at once. -/
def deliver (out aux : Bytes) (s : State) : State :=
  { s.setResults out aux with err := .ok, phase := .done }

/-- `raise E_X` (R296): OUT and AUX all zero, their lengths 0, ERR <- E_X, PHASE <- DONE, everything else unchanged. (R296
says they "stay all zero"; R36 that they are all zero at completion with an error: log 11.) -/
def raise (e : Err) (s : State) : State :=
  { s.setResults [] [] with err := e, phase := .done }

/-- Acknowledge (R23): PHASE <- IDLE and ERR <- 0; the results stay. -/
def acknowledge (s : State) : State := { s with phase := .idle, err := .ok }

/-- Reset (R320, R321): the state after reset, whatever the block was doing. Octets drawn are lost (R321), and what is still to
come is the world's, not the block's. -/
def hardReset (s : State) : State := { State.reset with drawn := s.drawn, inputs := s.inputs }

/-- What a command's own rule answers, with the number of octets it has taken from the random port: an error code, or the
strings for OUT and AUX. -/
inductive Result where
  | error (e : Err) (used : Nat)
  | done (out aux : Bytes) (used : Nat)
  deriving DecidableEq, Repr

/-- Advance the random port (MODEL's own, log 4). -/
def State.draws (s : State) (n : Nat) : State := { s with drawn := s.drawn + n }

/-- The completion transition of a command (R101 (2)). -/
def complete (r : Result) (s : State) : State :=
  match r with
  | .error e used => raise e (s.draws used)
  | .done out aux used => deliver out aux (s.draws used)

/-- The answer of a command: its common checks (R95), then its own rule. -/
def guarded (C : Config) (u : Use) (s : State) (own : Result) : Result :=
  match preCheck C u s with
  | some e => .error e 0
  | none => own

/-- The domain check of a representative (R121), then what follows it. -/
def inDomain (r n used : Nat) (rest : Result) : Result := if n ≤ r then .error .domain used else rest

end Sys2Proof.Machine
end

