-- ==== Sys2Proof/Machine/Ds1Pad.lean ====
section
/-! DEFINITION. The default instance of DS1_PAD (R224) and the parser that belongs to it (R227 steps 1 to 3). A bit string is
a list of Bools, most significant bit first. -/

namespace Sys2Proof.Machine

/-- The nibble `1011`, `0xB`. -/
def nibbleB : List Bool := [true, false, true, true]

/-- The nibble `1010`, `0xA`. -/
def nibbleA : List Bool := [true, false, true, false]

/-- `g - 1` nibbles B and the nibble A (R224 step 2), for `g ≥ 1`. -/
def padNibbles : Nat → List Bool
  | 0 => nibbleA
  | g + 1 => nibbleB ++ padNibbles g

/-- `Ds1Pad(r, m)` for `r ≥ 4` (R224): `0 1 m 0^(r-4) 1`, then with `g = ⌊(r-3)/4⌋ ≥ 1` the rightmost nibble replaced by A
and the `g - 1` others inside the last `r - 3` bits by B. -/
def ds1PadStd (r : Nat) (m : Bool) : List Bool :=
  if (r - 3) / 4 = 0 then [false, true, m] ++ List.replicate (r - 4) false ++ [true]
  else [false, true, m] ++ List.replicate ((r - 3) % 4) false ++ padNibbles ((r - 3) / 4 - 1)

/-- The loop of R227 step 3: nibbles B, then the nibble A. -/
def skipNibbles : List Bool → Option (List Bool)
  | a :: b :: c :: d :: rest =>
    if [a, b, c, d] = nibbleB then skipNibbles rest
    else if [a, b, c, d] = nibbleA then some rest
    else none
  | _ => none

/-- R227 steps 1 to 3 on the whole bit string `X`, `k = len(X)`: what follows the pad region, or failure. -/
def ds1UnpadStd (X : List Bool) : Option (List Bool) :=
  match X with
  | b0 :: b1 :: _ :: b3 :: tail =>
    if b0 = true ∨ b1 = false then none
    else
      let rest := b3 :: tail
      let u := rest.length % 4
      let W := rest.take u
      if W = List.replicate u false then skipNibbles (rest.drop u)
      else if W = List.replicate (u - 1) false ++ [true] then some (rest.drop u)
      else none
  | _ => none

theorem padNibbles_length (g : Nat) : (padNibbles g).length = 4 * (g + 1) := by
  induction g with
  | zero => rfl
  | succ g ih => simp only [padNibbles, List.length_append, ih, nibbleB, List.length_cons, List.length_nil]; omega

theorem skipNibbles_padNibbles (g : Nat) (rest : List Bool) : skipNibbles (padNibbles g ++ rest) = some rest := by
  induction g with
  | zero => rfl
  | succ g ih => simpa [padNibbles, nibbleB, skipNibbles] using ih

/-- The pad region has `r` bits (R224). -/
theorem ds1PadStd_length (r : Nat) (m : Bool) (hr : 4 ≤ r) : (ds1PadStd r m).length = r := by
  unfold ds1PadStd
  split <;> simp [padNibbles_length] <;> omega

/-- The top bit of the region is 0 (R224). -/
theorem ds1PadStd_top (r : Nat) (m : Bool) (_ : 4 ≤ r) : (ds1PadStd r m).head? = some false := by
  unfold ds1PadStd
  split <;> rfl

/-- The parser finds the pad region (R227 is "the inverse of rule R224"). -/
theorem ds1UnpadStd_pad (r : Nat) (m : Bool) (body : List Bool) (hr : 4 ≤ r) (hb : body.length % 8 = 0) :
    ds1UnpadStd (ds1PadStd r m ++ body) = some body := by
  obtain ⟨w, rfl⟩ : ∃ w, r = w + 4 := ⟨r - 4, by omega⟩
  unfold ds1PadStd
  split
  · next hg =>
    have hw : w = 0 ∨ w = 1 ∨ w = 2 := by omega
    have hlen (j : Nat) (hj : j < 4) : (body.length + j) % 4 = j := by omega
    rcases hw with rfl | rfl | rfl
    · simp [ds1UnpadStd, hlen 1]
    · simp [ds1UnpadStd, List.replicate_succ, hlen 2, Nat.add_assoc]
    · simp [ds1UnpadStd, List.replicate_succ, hlen 3, Nat.add_assoc]
  · next hg =>
    have hshape : ∀ (L : List Bool), 1 ≤ L.length → ds1UnpadStd ([false, true, m] ++ L) =
        (if L.take (L.length % 4) = List.replicate (L.length % 4) false then skipNibbles (L.drop (L.length % 4))
         else if L.take (L.length % 4) = List.replicate (L.length % 4 - 1) false ++ [true] then
          some (L.drop (L.length % 4)) else none) := by
      intro L hL
      cases L with
      | nil => simp at hL
      | cons b L => simp [ds1UnpadStd]
    set u := (w + 4 - 3) % 4 with hu
    set g := (w + 4 - 3) / 4 - 1 with hgd
    have hL : (List.replicate u false ++ (padNibbles g ++ body)).length % 4 = u := by
      simp only [List.length_append, List.length_replicate, padNibbles_length]
      omega
    have := hshape (List.replicate u false ++ (padNibbles g ++ body)) (by
      simp only [List.length_append, List.length_replicate, padNibbles_length]; omega)
    rw [hL] at this
    simpa [skipNibbles_padNibbles] using this

end Sys2Proof.Machine
end

