-- ==== Sys2Proof/Machine/Setup.lean ====
section
/-! DEFINITION. The configuration in which `exec`, `step` and `core` run: CFG-EX of 95_test_vectors.md section 2 in the scalar
parameters (log 1), the default DigestInfo of R12 (log 3), the default DS1_PAD of R224 (log 16), and free functions for the
hash and the random port (log 2, 4, 5). -/

namespace Sys2Proof.Machine

/-- `HASHES` with the two fixed rows and no other (R41, R6: the default; log 17). -/
def stdHashes (sel : Sel) : Option HashRow :=
  if sel = 1 then some sha1Row else if sel = 2 then some sha256Row else none

/-- `DIPREFIX(sel)` (R41). -/
def diPrefix (sel : Sel) : Bytes :=
  if sel = 1 then [0x30, 0x21, 0x30, 0x09, 0x06, 0x05, 0x2b, 0x0e, 0x03, 0x02, 0x1a, 0x05, 0x00, 0x04, 0x14]
  else if sel = 2 then
    [0x30, 0x31, 0x30, 0x0d, 0x06, 0x09, 0x60, 0x86, 0x48, 0x01, 0x65, 0x03, 0x04, 0x02, 0x01, 0x05, 0x00, 0x04, 0x20]
  else []

/-- `tLen(sel)` of the default DigestInfo: 35 and 51 (R12, R41). -/
def stdTLen (sel : Sel) : Nat := if sel = 1 then 35 else if sel = 2 then 51 else 0

/-- The default DigestInfo (R12): `DIPREFIX(sel) || D`. -/
def stdDigestInfo (sel : Sel) (D : Bytes) : Bytes := diPrefix sel ++ D

/-- A hash of which only the output length is known (R10). -/
def freeHash (sel : Sel) (X : Bytes) : Bytes :=
  match stdHashes sel with
  | some row => (List.range row.hLen).map (Config.hashOctet sel X)
  | none => []

theorem freeHash_length (sel : Sel) (row : HashRow) (X : Bytes) (h : stdHashes sel = some row) :
    (freeHash sel X).length = row.hLen := by
  simp [freeHash, h]

theorem stdDigestInfo_length (sel : Sel) (row : HashRow) (D : Bytes) (h : stdHashes sel = some row)
    (hD : D.length = row.hLen) : (stdDigestInfo sel D).length = stdTLen sel := by
  unfold stdHashes at h
  split at h
  · next h1 => cases h; simp [stdDigestInfo, diPrefix, stdTLen, h1, hD, sha1Row]
  · split at h
    · next h1 h2 => cases h; simp [stdDigestInfo, diPrefix, stdTLen, h2, hD, sha256Row]
    · cases h

/-- CFG-EX with a given hash and given answers of the random port. -/
def cfgWith (hash : Sel → Bytes → Bytes)
    (hash_length : ∀ sel row X, stdHashes sel = some row → (hash sel X).length = row.hLen)
    (rng : Nat → Byte) (rngNonzero : Nat → Fin 255) : Config where
  maxK := some 8192
  maxBuf := 0x400
  bufStride := 0x1000
  eBitsInf := 2
  eBitsSup := 32
  modBitsInf := 1024
  hashes := stdHashes
  hash := hash
  tLen := stdTLen
  digestInfo := stdDigestInfo
  pssSlack := 1
  ds1Pad := ds1PadStd
  ds1Unpad := ds1UnpadStd
  rng := rng
  rngNonzero := rngNonzero
  maxK_pos := by intro k h; cases h; decide
  maxBuf_ge := by intro k h; cases h; decide
  stride_pow := ⟨12, rfl⟩
  stride_ge := by decide
  eBitsInf_eq := rfl
  hashes_none := rfl
  hashes_sha1 := rfl
  hashes_sha256 := rfl
  hash_length := hash_length
  digestInfo_length := stdDigestInfo_length
  pssSlack_le := by decide
  ds1Pad_length := ds1PadStd_length
  ds1Pad_top := ds1PadStd_top
  ds1Unpad_pad := ds1UnpadStd_pad

/-- The configuration of this machine. -/
def cfg : Config := cfgWith freeHash freeHash_length Config.rngOctet Config.rngNonzeroOctet

end Sys2Proof.Machine
end

