-- ==== Sys2Proof/Machine/Primitives.lean ====
section
/-! DEFINITION. 40_primitives.md: modular exponentiation (R120), the private exponentiation of both key variants (R122,
R123), the minimum selector (R129), and the commands RSAEP, RSADP, RSASP1, RSAVP1, MINSEL. -/

namespace Sys2Proof.Machine

/-- Square and multiply over the `fuel` low bits of the exponent. -/
def modExpFuel (n : Nat) : Nat → Nat → Nat → Nat
  | 0, _, _ => 1 % n
  | fuel + 1, b, x =>
    if x % 2 = 1 then modExpFuel n fuel (b * b % n) (x / 2) * b % n else modExpFuel n fuel (b * b % n) (x / 2)

/-- `ModExp(b, x, n)` (R120). Its contract is `b^x mod n`; the way the value is found is not architectural. -/
def modExp (b x n : Nat) : Nat := modExpFuel n (bitlen x) b x

/-- Garner's recombination (R123): `m2 + q·h` with `h = qInv·(m1 − m2) mod p`, the difference taken in the integers. -/
def crtExp (p q dP dQ qInv c : Nat) : Nat :=
  let m1 := modExp (c % p) dP p
  let m2 := modExp (c % q) dQ q
  let h := (((qInv : Int) * ((m1 : Int) - (m2 : Int))) % (p : Int)).toNat
  m2 + q * h

/-- `PrivExp(c)` of the selected private slot (R122, R123). -/
def State.privExp (s : State) (crt : Bool) (c : Nat) : Nat :=
  if crt then crtExp s.crt.p s.crt.q s.crt.dP s.crt.dQ s.crt.qInv c else modExp c s.priv.d s.priv.n

/-- `ModExp(m, PUB.e, PUB.n)`, the public exponentiation (R125, R128). -/
def State.pubExp (s : State) (m : Nat) : Nat := modExp m s.pub.e s.pub.n

/-- `MinSel(S, n)` (R129). -/
def minSel (S n : Nat) : Nat := min S (n - S)

/-- The rule RSAEP and RSAVP1 share (R125, R128). -/
def pubPrimitive (s : State) : Result :=
  let m := s.intOperand .inp
  inDomain m s.pub.n 0 (.done (i2os (s.pubExp m) s.pub.klen) [] 0)

/-- The rule RSADP and RSASP1 share (R126, R127). -/
def privPrimitive (crt : Bool) (s : State) : Result :=
  let c := s.intOperand .inp
  inDomain c (s.privMod crt).n 0 (.done (i2os (s.privExp crt c) (s.privMod crt).klen) [] 0)

/-- RSAEP (R125). -/
def runRsaep (C : Config) (s : State) : State :=
  complete (guarded C { slot := .pub, bufs := [.inp] } s (pubPrimitive s)) s

/-- RSADP (R126). -/
def runRsadp (C : Config) (crt : Bool) (s : State) : State :=
  complete (guarded C { slot := .priv crt, bufs := [.inp] } s (privPrimitive crt s)) s

/-- RSASP1 (R127). -/
def runRsasp1 (C : Config) (crt : Bool) (s : State) : State :=
  complete (guarded C { slot := .priv crt, bufs := [.inp] } s (privPrimitive crt s)) s

/-- RSAVP1 (R128). -/
def runRsavp1 (C : Config) (s : State) : State :=
  complete (guarded C { slot := .pub, bufs := [.inp] } s (pubPrimitive s)) s

/-- MINSEL (R130). -/
def runMinsel (C : Config) (s : State) : State :=
  let S := s.intOperand .inp
  complete (guarded C { slot := .pub, bufs := [.inp] } s
    (inDomain S s.pub.n 0 (.done (i2os (minSel S s.pub.n) s.pub.klen) [] 0))) s

/-- RSAEP in the configuration of this machine. -/
def execRsaep (s : State) : Outcome := .next (runRsaep cfg s)

/-- RSADP in the configuration of this machine. -/
def execRsadp (crt : Bool) (s : State) : Outcome := .next (runRsadp cfg crt s)

/-- RSASP1 in the configuration of this machine. -/
def execRsasp1 (crt : Bool) (s : State) : Outcome := .next (runRsasp1 cfg crt s)

/-- RSAVP1 in the configuration of this machine. -/
def execRsavp1 (s : State) : Outcome := .next (runRsavp1 cfg s)

/-- MINSEL in the configuration of this machine. -/
def execMinsel (s : State) : Outcome := .next (runMinsel cfg s)

end Sys2Proof.Machine
end

