-- ==== Sys2Proof/Machine/Keys.lean ====
section
/-! DEFINITION. 48_key_facade_housekeeping.md: the commands NOP, KEY_LOAD_PUB, KEY_LOAD_PRIV, KEY_LOAD_CRT, KEY_CLEAR. -/

namespace Sys2Proof.Machine

/-- Whether a slot and the buffers hold a modulus of `k` bits (R277: `bitlen(n) ≤ MAX_K` and `⌈bitlen(n)/8⌉ ≤ MAX_BUF`). -/
def modulusFits (C : Config) (k : Nat) : Bool := C.maxK.all (fun m => decide (k ≤ m)) && decide (ceil8 k ≤ C.maxBuf)

/-- Steps 1 to 4 of R271: the key that KEY_LOAD_PUB constructs, `none` for E_PARAM. -/
def newPub (C : Config) (s : State) : Option PubSlot :=
  let n := s.intOperand .kn
  let e := s.intOperand .ke
  if n = 0 ∨ e = 0 then none
  else if modulusFits C (bitlen n) = false then none
  else some ⟨true, n, e, bitlen n, ceil8 (bitlen n)⟩

/-- Steps 1 to 4 of R272. -/
def newPriv (C : Config) (s : State) : Option PrivSlot :=
  let n := s.intOperand .kn
  let e := s.intOperand .ke
  if n = 0 ∨ e = 0 then none
  else if modulusFits C (bitlen n) = false then none
  else some ⟨true, n, e, s.intOperand .kd, bitlen n, ceil8 (bitlen n)⟩

/-- Steps 1 to 4 of R273. -/
def newCrt (C : Config) (s : State) : Option CrtSlot :=
  let p := s.intOperand .kp
  let q := s.intOperand .kq
  let n := p * q
  if p = 0 ∨ q = 0 then none
  else if modulusFits C (bitlen n) = false then none
  else some ⟨true, p, q, s.intOperand .kdp, s.intOperand .kdq, s.intOperand .kqinv, n, bitlen n, ceil8 (bitlen n)⟩

/-- Install a public key with its findings (R271 steps 4 and 5). -/
def installPub (C : Config) (K : PubSlot) (s : State) : State :=
  { s with pub := K, findings := findPub C K.k K.e s.findings }

/-- Install a plain private key with its findings (R272 steps 4 and 5). -/
def installPriv (C : Config) (K : PrivSlot) (s : State) : State :=
  { s with priv := K, findings := findPriv C K.k K.e s.findings }

/-- Install a CRT private key with its finding (R273 steps 4 and 5). -/
def installCrt (C : Config) (K : CrtSlot) (s : State) : State :=
  { s with crt := K, findings := findCrt C K.k s.findings }

/-- The completion of a key load: the common checks, then the key constructed and installed, or an error that leaves the
slot, its valid bit, its K_* register and its FINDINGS bits as they were (R276, R296). -/
def loadKey {α : Type} (C : Config) (u : Use) (key : Option α) (install : α → State → State) (s : State) : State :=
  match preCheck C u s with
  | some e => raise e s
  | none =>
    match key with
    | none => raise .param s
    | some K => deliver [] [] (install K s)

/-- Steps 1 to 4 of R274: everything at its reset value but CMD, the phase and IEN (and the model's own fields). -/
def clearAll (s : State) : State :=
  { State.reset with
    cmd := s.cmd, phase := s.phase, err := s.err, doneIe := s.doneIe, drawn := s.drawn, inputs := s.inputs, resp := s.resp }

/-- NOP (R270). -/
def runNop (C : Config) (s : State) : State := complete (guarded C {} s (.done [] [] 0)) s

/-- KEY_LOAD_PUB (R271). -/
def runKeyLoadPub (C : Config) (s : State) : State :=
  loadKey C { bufs := [.kn, .ke] } (newPub C s) (installPub C) s

/-- KEY_LOAD_PRIV (R272). -/
def runKeyLoadPriv (C : Config) (s : State) : State :=
  loadKey C { bufs := [.kn, .ke, .kd] } (newPriv C s) (installPriv C) s

/-- KEY_LOAD_CRT (R273). -/
def runKeyLoadCrt (C : Config) (s : State) : State :=
  loadKey C { bufs := [.kp, .kq, .kdp, .kdq, .kqinv] } (newCrt C s) (installCrt C) s

/-- KEY_CLEAR (R274). -/
def runKeyClear (_C : Config) (s : State) : State := deliver [] [] (clearAll s)

/-- NOP in the configuration of this machine. -/
def execNop (s : State) : Outcome := .next (runNop cfg s)

/-- KEY_LOAD_PUB in the configuration of this machine. -/
def execKeyLoadPub (s : State) : Outcome := .next (runKeyLoadPub cfg s)

/-- KEY_LOAD_PRIV in the configuration of this machine. -/
def execKeyLoadPriv (s : State) : Outcome := .next (runKeyLoadPriv cfg s)

/-- KEY_LOAD_CRT in the configuration of this machine. -/
def execKeyLoadCrt (s : State) : Outcome := .next (runKeyLoadCrt cfg s)

/-- KEY_CLEAR in the configuration of this machine. -/
def execKeyClear (s : State) : Outcome := .next (runKeyClear cfg s)

end Sys2Proof.Machine
end

