-- ==== Sys2Proof/Machine/Bus.lean ====
section
/-! DEFINITION. The host's side: the register map (R32), the address map (R34, R67), the two bus primitives (R60 to R66,
R326), the engine's completion of the latched command (R95, R101), and one step of the block: the next host access, engine
turn or reset. -/

namespace Sys2Proof.Machine

/-- The word registers (R32); the fourteen length registers are named by their buffer. -/
inductive RegId where
  | cmd
  | status
  | ack
  | ien
  | findings
  | kPub
  | kPriv
  | kCrt
  | embits
  | m1bits
  | len (b : BufId)
  deriving DecidableEq, Repr

/-- The offset of a register (R32). -/
def regOffset : RegId → Nat
  | .cmd => 0x00
  | .status => 0x04
  | .ack => 0x08
  | .ien => 0x0C
  | .findings => 0x10
  | .kPub => 0x14
  | .kPriv => 0x18
  | .kCrt => 0x1C
  | .embits => 0x20
  | .m1bits => 0x24
  | .len b => 0x28 + 4 * b.num

/-- The register at an offset, `none` for a reserved word (R32, R33). -/
def regAt (addr : Nat) : Option RegId :=
  match addr with
  | 0x00 => some .cmd
  | 0x04 => some .status
  | 0x08 => some .ack
  | 0x0C => some .ien
  | 0x10 => some .findings
  | 0x14 => some .kPub
  | 0x18 => some .kPriv
  | 0x1C => some .kCrt
  | 0x20 => some .embits
  | 0x24 => some .m1bits
  | 0x28 => some (.len .msg)
  | 0x2C => some (.len .label)
  | 0x30 => some (.len .salt)
  | 0x34 => some (.len .inp)
  | 0x38 => some (.len .out)
  | 0x3C => some (.len .aux)
  | 0x40 => some (.len .kn)
  | 0x44 => some (.len .ke)
  | 0x48 => some (.len .kd)
  | 0x4C => some (.len .kp)
  | 0x50 => some (.len .kq)
  | 0x54 => some (.len .kdp)
  | 0x58 => some (.len .kdq)
  | 0x5C => some (.len .kqinv)
  | _ => none

/-- The buffers whose octets the host cannot read (R37). -/
def BufId.secret : BufId → Bool
  | .kd => true
  | .kp => true
  | .kq => true
  | .kdp => true
  | .kdq => true
  | .kqinv => true
  | .msg => false
  | .label => false
  | .salt => false
  | .inp => false
  | .out => false
  | .aux => false
  | .kn => false
  | .ke => false

/-- The buffers (and their length registers) that only the engine writes (R30, R36). -/
def BufId.readOnly : BufId → Bool
  | .out => true
  | .aux => true
  | .msg => false
  | .label => false
  | .salt => false
  | .inp => false
  | .kn => false
  | .ke => false
  | .kd => false
  | .kp => false
  | .kq => false
  | .kdp => false
  | .kdq => false
  | .kqinv => false

/-- The value a host read of a register returns while the block is not BUSY (R21 to R31). -/
def regValue (s : State) : RegId → Word
  | .cmd => s.cmd
  | .status => statusWord s
  | .ack => 0
  | .ien => ienWord s
  | .findings => findingsWord s.findings
  | .kPub => kWord s.pub.k
  | .kPriv => kWord s.priv.k
  | .kCrt => kWord s.crt.k
  | .embits => s.embits
  | .m1bits => s.m1bits
  | .len b => s.len b

/-- The registers that a host can read while the block is BUSY (R326). -/
def RegId.readableBusy : RegId → Bool
  | .cmd => true
  | .status => true
  | .ien => true
  | .ack => false
  | .findings => false
  | .kPub => false
  | .kPriv => false
  | .kCrt => false
  | .embits => false
  | .m1bits => false
  | .len _ => false

/-- What a host read of a register returns (R61, R326). -/
def readReg (s : State) (r : RegId) : Word :=
  if s.phase = .busy ∧ r.readableBusy = false then 0 else regValue s r

/-- What a host read of an octet returns: zero for a secret staging buffer (R37) and while BUSY (R326). -/
def readOctet (s : State) (b : BufId) (i : Nat) : Byte :=
  if s.phase = .busy ∨ b.secret = true then 0 else s.octet b i

/-- A host write of a register under its access rule, while the block is not BUSY (R22 to R31). -/
def regWrite (s : State) (r : RegId) (v : Word) : State :=
  match r with
  | .cmd => accept v s
  | .status => s
  | .ack => if v.getLsbD 0 = true ∧ s.phase = .done then acknowledge s else s
  | .ien => { s with doneIe := v.getLsbD 0 }
  | .findings => s
  | .kPub => s
  | .kPriv => s
  | .kCrt => s
  | .embits => { s with embits := v }
  | .m1bits => { s with m1bits := v }
  | .len b => if b.readOnly then s else s.setLen b v

/-- A host write of a register: dropped while BUSY (R326). -/
def writeReg (s : State) (r : RegId) (v : Word) : State := if s.phase = .busy then s else regWrite s r v

/-- A host write of an octet: dropped while BUSY (R326) and for OUT and AUX (R36, R61). -/
def writeOctet (s : State) (b : BufId) (i : Nat) (v : Byte) : State :=
  if s.phase = .busy ∨ b.readOnly = true then s else s.setOctet b i v

/-- Where an access of `n` octets at a block-relative address goes (R61, R63). -/
inductive Target where
  /-- A register. -/
  | reg (r : RegId)
  /-- A reserved word: reads zero, ignores writes (R33). -/
  | reserved
  /-- An octet of a buffer. -/
  | octet (b : BufId) (i : Nat)
  /-- Anything else: a bus error (R63). -/
  | nothing
  deriving DecidableEq, Repr

/-- The address of octet `i` of a buffer (R34). -/
def octetAddr (C : Config) (b : BufId) (i : Nat) : Nat := (b.num + 1) * C.bufStride + i

/-- The address map (R61, R63, R67). -/
def target (C : Config) (addr n : Nat) : Target :=
  if n = 4 ∧ addr % 4 = 0 ∧ addr < C.bufStride then
    match regAt addr with
    | some r => .reg r
    | none => .reserved
  else if n = 1 ∧ C.bufStride ≤ addr then
    match BufId.ofNum (addr / C.bufStride - 1) with
    | some b => if addr % C.bufStride < C.maxBuf then .octet b (addr % C.bufStride) else .nothing
    | none => .nothing
  else .nothing

/-- `MemRead(addr, n)` (R60, R61): what the bus answers. It has no side effect (R66). -/
def busRead (C : Config) (s : State) (addr n : Nat) : BusResponse :=
  match target C addr n with
  | .reg r => .word (readReg s r)
  | .reserved => .word 0
  | .octet b i => .octet (readOctet s b i)
  | .nothing => .busError

/-- `MemWrite(addr, n, v)` (R60, R61): what the bus answers. -/
def busWriteResponse (C : Config) (addr n : Nat) : BusResponse :=
  match target C addr n with
  | .reg _ => .written
  | .reserved => .written
  | .octet _ _ => .written
  | .nothing => .busError

/-- `MemWrite(addr, n, v)` (R60, R61): its effect. -/
def busWrite (C : Config) (s : State) (addr n v : Nat) : State :=
  match target C addr n with
  | .reg r => writeReg s r (BitVec.ofNat 32 v)
  | .reserved => s
  | .octet b i => writeOctet s b i (BitVec.ofNat 8 v)
  | .nothing => s

/-- The engine's completion of the latched command (R95, R101): the command it decodes to, or E_ILLEGAL. -/
def engineTurn (run : Instr → State → Outcome) (s : State) : Outcome :=
  match decode s.cmd with
  | .ok i => run i s
  | .error _ => .next (raise .illegal s)

/-- A turn of the engine: it completes the command if there is one (R69). -/
def engineMove (run : Instr → State → Outcome) (s : State) : Outcome :=
  if s.phase = .busy then engineTurn run s else .next s

/-- One step of the block (R69, log 6): the next thing to come happens; when nothing is to come, the engine moves, so that an
accepted command is completed (R331). -/
def stepWith (C : Config) (run : Instr → State → Outcome) (s : State) : Outcome :=
  match s.inputs with
  | [] => engineMove run s
  | .engine :: rest => engineMove run { s with inputs := rest }
  | .reset :: rest => .next (hardReset { s with inputs := rest })
  | .read addr n :: rest => .next { s with inputs := rest, resp := some (busRead C s addr n) }
  | .write addr n v :: rest =>
    .next { busWrite C s addr n v with inputs := rest, resp := some (busWriteResponse C addr n) }

/-- Place a command word where the engine takes it: accept it, with nothing to come before the engine's turn. -/
def placeWord (s : State) (nbits w : Nat) : State :=
  { accept (BitVec.ofNat 32 (w % 2 ^ nbits)) s with inputs := [] }

end Sys2Proof.Machine
end

