-- ==== Sys2Proof/Machine/EmeV15.lean ====
section
/-! DEFINITION. 41_eme_pkcs1_v15.md: EME-PKCS1-v1_5 (R150, R153) and the commands EME_V15_ENCODE, EME_V15_DECODE,
ES_V15_ENCRYPT, ES_V15_DECRYPT. -/

namespace Sys2Proof.Machine

/-- `EmeV15Encode(M, klen, PS)` (R150); `len(PS) = klen − len(M) − 3` fixes the length. -/
def emeV15Encode (M PS : Bytes) : Bytes := [0x00, 0x02] ++ PS ++ [0x00] ++ M

/-- `EmeV15Decode(EM)` (R153): `none` is the one undifferentiated failure. `ps` is the run of non-zero octets from index 2
on, so the separator `i` of R153 is at index `2 + len(ps)`. -/
def emeV15Decode (EM : Bytes) : Option Bytes :=
  let rest := EM.drop 2
  let ps := rest.takeWhile (· != 0x00)
  if 2 ≤ EM.length ∧ EM.take 2 = [0x00, 0x02] ∧ ps.length < rest.length ∧ 8 ≤ ps.length then
    some (rest.drop (ps.length + 1))
  else none

/-- The answer of a decode command: the string recovered, or E_FAIL with nothing of it (R154, R156). -/
def decoded : Option Bytes → Result
  | none => .error .fail 0
  | some M => .done M [] 0

/-- EME_V15_ENCODE (R152). -/
def runEmeV15Encode (C : Config) (s : State) : State :=
  let bits := s.embits.toNat
  let klen := bits / 8
  let M := s.operand .msg
  let psLen := klen - M.length - 3
  complete (guarded C { bufs := [.msg], embits := true } s
    (if bits % 8 ≠ 0 then .error .param 0
     else if klen < M.length + 11 then .error .capacity 0
     else .done (emeV15Encode M (drawNonzero C s psLen)) [] psLen)) s

/-- EME_V15_DECODE (R154). -/
def runEmeV15Decode (C : Config) (s : State) : State :=
  complete (guarded C { bufs := [.inp] } s (decoded (emeV15Decode (s.operand .inp)))) s

/-- ES_V15_ENCRYPT (R155). -/
def runEsV15Encrypt (C : Config) (s : State) : State :=
  let klen := s.pub.klen
  let M := s.operand .msg
  let psLen := klen - M.length - 3
  let m := os2ip (emeV15Encode M (drawNonzero C s psLen))
  complete (guarded C { slot := .pub, bufs := [.msg] } s
    (if klen < M.length + 11 then .error .capacity 0
     else inDomain m s.pub.n psLen (.done (i2os (s.pubExp m) klen) [] psLen))) s

/-- ES_V15_DECRYPT (R156). -/
def runEsV15Decrypt (C : Config) (crt : Bool) (s : State) : State :=
  let K := s.privMod crt
  let c := s.intOperand .inp
  complete (guarded C { slot := .priv crt, bufs := [.inp] } s
    (inDomain c K.n 0 (decoded (emeV15Decode (i2os (s.privExp crt c) K.klen))))) s

/-- EME_V15_ENCODE in the configuration of this machine. -/
def execEmeV15Encode (s : State) : Outcome := .next (runEmeV15Encode cfg s)

/-- EME_V15_DECODE in the configuration of this machine. -/
def execEmeV15Decode (s : State) : Outcome := .next (runEmeV15Decode cfg s)

/-- ES_V15_ENCRYPT in the configuration of this machine. -/
def execEsV15Encrypt (s : State) : Outcome := .next (runEsV15Encrypt cfg s)

/-- ES_V15_DECRYPT in the configuration of this machine. -/
def execEsV15Decrypt (crt : Bool) (s : State) : Outcome := .next (runEsV15Decrypt cfg crt s)

end Sys2Proof.Machine
end

