-- ==== Sys2Proof/Machine/EmsaV15.lean ====
section
/-! DEFINITION. 43_emsa_pkcs1_v15.md: EMSA-PKCS1-v1_5 (R185) and the commands EMSA_V15_ENCODE, SSA_V15_SIGN,
SSA_V15_VERIFY. -/

namespace Sys2Proof.Machine

/-- `EmsaV15Encode(sel, M, emLen)` (R185), for `emLen ≥ tLen(sel) + 11`. -/
def emsaV15Encode (C : Config) (sel : Sel) (M : Bytes) (emLen : Nat) : Bytes :=
  let T := C.digestInfo sel (C.hash sel M)
  [0x00, 0x01] ++ copies (emLen - C.tLen sel - 3) 0xFF ++ [0x00] ++ T

/-- EMSA_V15_ENCODE (R186). -/
def runEmsaV15Encode (C : Config) (h : Sel) (s : State) : State :=
  let bits := s.embits.toNat
  let emLen := bits / 8
  complete (guarded C { hash := some h, bufs := [.msg], embits := true } s
    (if bits % 8 ≠ 0 then .error .param 0
     else if emLen < C.tLen h + 11 then .error .capacity 0
     else .done (emsaV15Encode C h (s.operand .msg) emLen) [] 0)) s

/-- SSA_V15_SIGN (R187). -/
def runSsaV15Sign (C : Config) (h : Sel) (crt : Bool) (s : State) : State :=
  let K := s.privMod crt
  let m := os2ip (emsaV15Encode C h (s.operand .msg) K.klen)
  complete (guarded C { hash := some h, slot := .priv crt, bufs := [.msg] } s
    (if K.klen < C.tLen h + 11 then .error .capacity 0
     else inDomain m K.n 0 (.done (i2os (s.privExp crt m) K.klen) [] 0))) s

/-- SSA_V15_VERIFY (R188): the whole strings are compared. -/
def runSsaV15Verify (C : Config) (h : Sel) (s : State) : State :=
  let emLen := s.pub.klen
  let sig := s.intOperand .inp
  complete (guarded C { hash := some h, slot := .pub, bufs := [.msg, .inp] } s
    (if emLen < C.tLen h + 11 then .error .capacity 0
     else inDomain sig s.pub.n 0
      (if i2os (s.pubExp sig) emLen ≠ emsaV15Encode C h (s.operand .msg) emLen then .error .fail 0
       else .done [] [] 0))) s

/-- EMSA_V15_ENCODE in the configuration of this machine. -/
def execEmsaV15Encode (h : Sel) (s : State) : Outcome := .next (runEmsaV15Encode cfg h s)

/-- SSA_V15_SIGN in the configuration of this machine. -/
def execSsaV15Sign (h : Sel) (crt : Bool) (s : State) : Outcome := .next (runSsaV15Sign cfg h crt s)

/-- SSA_V15_VERIFY in the configuration of this machine. -/
def execSsaV15Verify (h : Sel) (s : State) : Outcome := .next (runSsaV15Verify cfg h s)

end Sys2Proof.Machine
end

