-- ==== Sys2Proof/Machine/Mgf1Oaep.lean ====
section
/-! DEFINITION. 42_eme_oaep_mgf1.md: the mask-generation datapath (R165) and EME-OAEP (R169, R172), and the commands MGF1,
OAEP_ENCODE, OAEP_DECODE, ES_OAEP_ENCRYPT, ES_OAEP_DECRYPT. -/

namespace Sys2Proof.Machine

/-- `Mgf1(sel, Z, l)` (R165). -/
def mgf1 (C : Config) (sel : Sel) (Z : Bytes) (l : Nat) : Bytes :=
  let blocks := (l + (hLen C sel - 1)) / hLen C sel
  ((List.range blocks).flatMap fun i => C.hash sel (Z ++ i2os i 4)).take l

/-- `OaepEncode(sel, M, L, klen, seed)` (R169; the leading 0x00 is 90_conflicts.md C2). -/
def oaepEncode (C : Config) (sel : Sel) (M L : Bytes) (klen : Nat) (seed : Bytes) : Bytes :=
  let hl := hLen C sel
  let DB := C.hash sel L ++ copies (klen - M.length - 2 * hl - 2) 0x00 ++ [0x01] ++ M
  let maskedDB := xorBytes DB (mgf1 C sel seed (klen - hl - 1))
  let maskedSeed := xorBytes seed (mgf1 C sel maskedDB hl)
  [0x00] ++ maskedSeed ++ maskedDB

/-- `OaepDecode(sel, EM, L)` (R172). The conditions are all evaluated; only their conjunction shows. -/
def oaepDecode (C : Config) (sel : Sel) (EM L : Bytes) : Option Bytes :=
  let hl := hLen C sel
  let maskedSeed := (EM.drop 1).take hl
  let maskedDB := EM.drop (1 + hl)
  let seed := xorBytes maskedSeed (mgf1 C sel maskedDB hl)
  let DB := xorBytes maskedDB (mgf1 C sel seed (EM.length - hl - 1))
  match (DB.drop hl).dropWhile (· == 0x00) with
  | [] => none
  | sep :: M => if EM.headD 0xFF = 0x00 ∧ DB.take hl = C.hash sel L ∧ sep = 0x01 then some M else none

/-- MGF1 (R166). -/
def runMgf1 (C : Config) (h : Sel) (s : State) : State :=
  let bits := s.embits.toNat
  complete (guarded C { hash := some h, bufs := [.inp], embits := true } s
    (if bits % 8 ≠ 0 then .error .param 0
     else .done (mgf1 C h (s.operand .inp) (bits / 8)) [] 0)) s

/-- OAEP_ENCODE (R171). -/
def runOaepEncode (C : Config) (h : Sel) (s : State) : State :=
  let bits := s.embits.toNat
  let klen := bits / 8
  let M := s.operand .msg
  let hl := hLen C h
  complete (guarded C { hash := some h, bufs := [.msg, .label], embits := true } s
    (if bits % 8 ≠ 0 then .error .param 0
     else if klen < 2 * hl + 2 then .error .capacity 0
     else if klen - 2 * hl - 2 < M.length then .error .capacity 0
     else .done (oaepEncode C h M (s.operand .label) klen (draw C s hl)) [] hl)) s

/-- OAEP_DECODE (R173). -/
def runOaepDecode (C : Config) (h : Sel) (s : State) : State :=
  let EM := s.operand .inp
  complete (guarded C { hash := some h, bufs := [.inp, .label] } s
    (if EM.length < 2 * hLen C h + 2 then .error .capacity 0
     else match oaepDecode C h EM (s.operand .label) with
      | none => .error .fail 0
      | some M => .done M [] 0)) s

/-- ES_OAEP_ENCRYPT (R174). -/
def runEsOaepEncrypt (C : Config) (h : Sel) (s : State) : State :=
  let klen := s.pub.klen
  let M := s.operand .msg
  let hl := hLen C h
  let EM := oaepEncode C h M (s.operand .label) klen (draw C s hl)
  complete (guarded C { hash := some h, slot := .pub, bufs := [.msg, .label] } s
    (if klen < 2 * hl + 2 then .error .capacity 0
     else if klen - 2 * hl - 2 < M.length then .error .capacity 0
     else inDomain (os2ip EM) s.pub.n hl (.done (i2os (s.pubExp (os2ip EM)) klen) [] hl))) s

/-- ES_OAEP_DECRYPT (R175). -/
def runEsOaepDecrypt (C : Config) (h : Sel) (crt : Bool) (s : State) : State :=
  let K := s.privMod crt
  let c := s.intOperand .inp
  complete (guarded C { hash := some h, slot := .priv crt, bufs := [.inp, .label] } s
    (if K.klen < 2 * hLen C h + 2 then .error .capacity 0
     else inDomain c K.n 0
      (match oaepDecode C h (i2os (s.privExp crt c) K.klen) (s.operand .label) with
       | none => .error .fail 0
       | some M => .done M [] 0))) s

/-- MGF1 in the configuration of this machine. -/
def execMgf1 (h : Sel) (s : State) : Outcome := .next (runMgf1 cfg h s)

/-- OAEP_ENCODE in the configuration of this machine. -/
def execOaepEncode (h : Sel) (s : State) : Outcome := .next (runOaepEncode cfg h s)

/-- OAEP_DECODE in the configuration of this machine. -/
def execOaepDecode (h : Sel) (s : State) : Outcome := .next (runOaepDecode cfg h s)

/-- ES_OAEP_ENCRYPT in the configuration of this machine. -/
def execEsOaepEncrypt (h : Sel) (s : State) : Outcome := .next (runEsOaepEncrypt cfg h s)

/-- ES_OAEP_DECRYPT in the configuration of this machine. -/
def execEsOaepDecrypt (h : Sel) (crt : Bool) (s : State) : Outcome := .next (runEsOaepDecrypt cfg h crt s)

end Sys2Proof.Machine
end

