-- ==== Sys2Proof/Machine/Pss.lean ====
section
/-! DEFINITION. 44_emsa_pss.md: EMSA-PSS (R201, R202, R205) and the commands PSS_ENCODE, PSS_CHECK, SSA_PSS_SIGN,
SSA_PSS_VERIFY. -/

namespace Sys2Proof.Machine

/-- `z = 8·emLen − emBits` with `emLen = ⌈emBits/8⌉` (R201). -/
def topZeros (emBits : Nat) : Nat := 8 * ceil8 emBits - emBits

/-- `PssEncode(sel, M, emBits, salt)` (R202), for `emLen ≥ hLen + sLen + 2`. -/
def pssEncode (C : Config) (sel : Sel) (M : Bytes) (emBits : Nat) (salt : Bytes) : Bytes :=
  let hl := hLen C sel
  let emLen := ceil8 emBits
  let H := C.hash sel (copies 8 0x00 ++ C.hash sel M ++ salt)
  let DB := copies (emLen - salt.length - hl - 2) 0x00 ++ [0x01] ++ salt
  let maskedDB := clearTop (topZeros emBits) (xorBytes DB (mgf1 C sel H (emLen - hl - 1)))
  maskedDB ++ H ++ [0xBC]

/-- `PssCheck(sel, M, EM, emBits, sLen)` (R205): the conjunction of (a) to (e). -/
def pssCheck (C : Config) (sel : Sel) (M EM : Bytes) (emBits sLen : Nat) : Bool :=
  let hl := hLen C sel
  let emLen := ceil8 emBits
  let z := topZeros emBits
  let dbLen := emLen - hl - 1
  let maskedDB := EM.take dbLen
  let H := (EM.drop dbLen).take hl
  let DB := clearTop z (xorBytes maskedDB (mgf1 C sel H dbLen))
  let psLen := emLen - hl - sLen - 2
  let salt := DB.drop (psLen + 1)
  decide (hl + sLen + 2 ≤ emLen) && EM.getD (emLen - 1) 0 == 0xBC && topIsZero z maskedDB &&
    DB.take (psLen + 1) == copies psLen 0x00 ++ [0x01] &&
    C.hash sel (copies 8 0x00 ++ C.hash sel M ++ salt) == H

/-- The verdict of a verify or check command that returns nothing (R293). -/
def verdict (verified : Bool) : Result := if verified then .done [] [] 0 else .error .fail 0

/-- PSS_ENCODE (R204). -/
def runPssEncode (C : Config) (h : Sel) (ss sld : Bool) (s : State) : State :=
  let emBits := s.embits.toNat
  complete (guarded C { flagsLegal := saltFlagsLegal ss sld, hash := some h, bufs := .msg :: saltInput sld, embits := true } s
    (if ceil8 emBits < hLen C h + saltLen C h sld s + 2 then .error .capacity 0
     else .done (pssEncode C h (s.operand .msg) emBits (saltOf C h ss sld s)) [] (saltDrawn C h ss sld s))) s

/-- PSS_CHECK (R206). -/
def runPssCheck (C : Config) (h : Sel) (sld : Bool) (s : State) : State :=
  let emBits := s.embits.toNat
  complete (guarded C { hash := some h, bufs := .msg :: .inp :: saltInput sld, embits := true } s
    (if (s.len .inp).toNat ≠ ceil8 emBits then .error .param 0
     else verdict (pssCheck C h (s.operand .msg) (s.operand .inp) emBits (saltLen C h sld s)))) s

/-- SSA_PSS_SIGN (R207). -/
def runSsaPssSign (C : Config) (h : Sel) (crt ss sld : Bool) (s : State) : State :=
  let K := s.privMod crt
  let emBits := K.k - C.pssSlack
  let used := saltDrawn C h ss sld s
  let m := os2ip (pssEncode C h (s.operand .msg) emBits (saltOf C h ss sld s))
  complete (guarded C
    { flagsLegal := saltFlagsLegal ss sld, hash := some h, slot := .priv crt, bufs := .msg :: saltInput sld } s
    (if ceil8 emBits < hLen C h + saltLen C h sld s + 2 then .error .capacity 0
     else inDomain m K.n used (.done (i2os (s.privExp crt m) K.klen) [] used))) s

/-- SSA_PSS_VERIFY (R208). -/
def runSsaPssVerify (C : Config) (h : Sel) (sld : Bool) (s : State) : State :=
  let emBits := s.pub.k - C.pssSlack
  let emLen := ceil8 emBits
  let sig := s.intOperand .inp
  let m := s.pubExp sig
  complete (guarded C { hash := some h, slot := .pub, bufs := .msg :: .inp :: saltInput sld } s
    (inDomain sig s.pub.n 0
      (if 256 ^ emLen ≤ m then .error .fail 0
       else verdict (pssCheck C h (s.operand .msg) (i2os m emLen) emBits (saltLen C h sld s))))) s

/-- PSS_ENCODE in the configuration of this machine. -/
def execPssEncode (h : Sel) (ss sld : Bool) (s : State) : Outcome := .next (runPssEncode cfg h ss sld s)

/-- PSS_CHECK in the configuration of this machine. -/
def execPssCheck (h : Sel) (sld : Bool) (s : State) : Outcome := .next (runPssCheck cfg h sld s)

/-- SSA_PSS_SIGN in the configuration of this machine. -/
def execSsaPssSign (h : Sel) (crt ss sld : Bool) (s : State) : Outcome := .next (runSsaPssSign cfg h crt ss sld s)

/-- SSA_PSS_VERIFY in the configuration of this machine. -/
def execSsaPssVerify (h : Sel) (sld : Bool) (s : State) : Outcome := .next (runSsaPssVerify cfg h sld s)

end Sys2Proof.Machine
end

