-- ==== Sys2Proof/Machine/IsoDs1.lean ====
section
/-! DEFINITION. 45_iso9796_ds1.md: the trailer (R223) and the opening of a signature (R226) that ds1, ds2 and ds3 share; the
ds1 digital-signature input and its parse (R221 to R227); the commands DS1_SIGN and DS1_VERIFY. -/

namespace Sys2Proof.Machine

/-! ## Shared by ds1, ds2 and ds3 -/

/-- `Trailer(sel, IT)` (R223); `none` when the explicit trailer does not exist. -/
def trailer (C : Config) (sel : Sel) (it : Bool) : Option Bytes :=
  if it then some [0xBC] else (hashID C sel).map fun i => [i, 0xCC]

/-- `IsoOpen(s, PUB)` (R226). -/
def isoOpen (s : State) (sig : Nat) : Option Nat :=
  let J := s.pubExp sig
  if J % 16 = 12 then some J
  else if (s.pub.n - J) % 16 = 12 then some (s.pub.n - J)
  else none

/-- The number of trailer octets that a recovered string ends in (R227 step 6, R245 step 4), `none` for no valid trailer. -/
def trailerOctets (C : Config) (sel : Sel) (X : Bytes) : Option Nat :=
  let last := X.getLastD 0
  if last = 0xBC then some 1
  else if last = 0xCC then
    match hashID C sel with
    | none => none
    | some i => if 2 ≤ X.length ∧ X.getD (X.length - 2) 0 = i then some 2 else none
  else none

/-- The signature integer that is published (R228, R246, R257): `S`, or with UM = 1 the smaller of `S` and `n − S`. -/
def published (um : Bool) (S n : Nat) : Nat := if um then minSel S n else S

/-! ## Bit strings of ds1 -/

/-- The integer value of a bit string. -/
def bitsVal (X : List Bool) : Nat := X.foldl (fun acc b => acc * 2 + b.toNat) 0

/-- The `k`-bit string of an integer below `2^k`. -/
def bitsOf (x : Nat) : Nat → List Bool
  | 0 => []
  | k + 1 => x.testBit k :: bitsOf x k

/-- The octets of a bit string whose length is a multiple of 8. -/
def bitsToBytes (X : List Bool) : Bytes := i2os (bitsVal X) (X.length / 8)

/-! ## ds1 -/

/-- The ds1 capacity `c` in bits (R221); it may be negative. -/
def ds1Cap (C : Config) (sel : Sel) (k t : Nat) : Int := (k : Int) - 8 * hLen C sel - 8 * t - 4

/-- `Ds1Dsi(sel, M, k, T)` (R222, R225) with the trailer `T`: the integer `dsi`, `M1` and `M2`. -/
def ds1Dsi (C : Config) (sel : Sel) (M : Bytes) (k : Nat) (T : Bytes) : Nat × Bytes × Bytes :=
  let cOct := (ds1Cap C sel k T.length).toNat / 8
  let m1Len := min M.length cOct
  let M1 := M.take m1Len
  let M2 := M.drop m1Len
  let body := M1 ++ C.hash sel M ++ T
  let L := 8 * body.length
  let pad := C.ds1Pad (k - L) (decide (0 < M2.length))
  (bitsVal pad * 2 ^ L + os2ip body, M1, M2)

/-- `Ds1Parse(sel, J, k)` (R227): `M1` and the trailer length. -/
def ds1Parse (C : Config) (sel : Sel) (J k : Nat) : Option (Bytes × Nat) :=
  match C.ds1Unpad (bitsOf J k) with
  | none => none
  | some rest =>
    if rest.length % 8 ≠ 0 then none
    else
      let body := bitsToBytes rest
      if body.length < 1 then none
      else match trailerOctets C sel body with
        | none => none
        | some t =>
          if body.length < hLen C sel + t then none
          else some (body.take (body.length - hLen C sel - t), t)

/-- R229 steps 4 and 5: the recovered `M1`, if the DSI a signer would build for `M1 || M2` is the recovered one. -/
def ds1Recover (C : Config) (sel : Sel) (s : State) (sig : Nat) (M2 : Bytes) : Option Bytes :=
  match isoOpen s sig with
  | none => none
  | some J =>
    match ds1Parse C sel J s.pub.k with
    | none => none
    | some (M1, t) =>
      match trailer C sel (t == 1) with
      | none => none
      | some T =>
        if ds1Cap C sel s.pub.k t < 0 ∨ (ds1Dsi C sel (M1 ++ M2) s.pub.k T).1 ≠ J then none
        else some M1

/-- DS1_SIGN (R228). -/
def runDs1Sign (C : Config) (h : Sel) (it um crt : Bool) (s : State) : State :=
  let K := s.privMod crt
  complete (guarded C { hash := some h, slot := .priv crt, bufs := [.msg] } s
    (match trailer C h it with
     | none => .error .param 0
     | some T =>
       if ds1Cap C h K.k T.length < 0 then .error .capacity 0
       else
         let D := ds1Dsi C h (s.operand .msg) K.k T
         inDomain D.1 K.n 0
           (.done (i2os (published um (s.privExp crt D.1) K.n) K.klen) D.2.2 0))) s

/-- DS1_VERIFY (R229). -/
def runDs1Verify (C : Config) (h : Sel) (s : State) : State :=
  let sig := s.intOperand .inp
  complete (guarded C { hash := some h, slot := .pub, bufs := [.inp, .msg] } s
    (if ds1Cap C h s.pub.k 1 < 0 then .error .capacity 0
     else inDomain sig s.pub.n 0 (decoded (ds1Recover C h s sig (s.operand .msg))))) s

/-- DS1_SIGN in the configuration of this machine. -/
def execDs1Sign (h : Sel) (it um crt : Bool) (s : State) : Outcome := .next (runDs1Sign cfg h it um crt s)

/-- DS1_VERIFY in the configuration of this machine. -/
def execDs1Verify (h : Sel) (s : State) : Outcome := .next (runDs1Verify cfg h s)

end Sys2Proof.Machine
end

