-- ==== Sys2Proof/Machine/IsoDs23.lean ====
section
/-! DEFINITION. 46_iso9796_ds2.md and 47_iso9796_ds3.md: the capacity (R241), the encoded message and its opening (R244,
R245), and the commands DS2_SIGN, DS2_VERIFY, DS3_SIGN, DS3_VERIFY. -/

namespace Sys2Proof.Machine

/-- `IsoCap(sel, k, t)` in bits (R241, R255 (c)); it may be negative. -/
def isoCap (C : Config) (sel : Sel) (k t : Nat) : Int := (k : Int) - 8 * hLen C sel - 8 * t - 2

/-- `H = Hash(I2OS(8·len(M1), 8) || M1 || Hash(M2) || salt)` (R244, R245 step 12). -/
def isoHash (C : Config) (sel : Sel) (M1 M2 salt : Bytes) : Bytes :=
  C.hash sel (i2os (8 * M1.length) 8 ++ M1 ++ C.hash sel M2 ++ salt)

/-- `IsoPssEm(sel, M1, M2, salt, k, T)` (R244). -/
def isoPssEm (C : Config) (sel : Sel) (M1 M2 salt : Bytes) (k : Nat) (T : Bytes) : Bytes :=
  let emBits := k - 1
  let H := isoHash C sel M1 M2 salt
  let dbLen := ceil8 emBits - hLen C sel - T.length
  let DB := copies (dbLen - M1.length - salt.length - 1) 0x00 ++ [0x01] ++ M1 ++ salt
  clearTop (topZeros emBits) (xorBytes DB (mgf1 C sel H dbLen)) ++ H ++ T

/-- `IsoPssOpen(sel, J, M2, sLen, k)` (R245): `M1`, or the one failure. -/
def isoPssOpen (C : Config) (sel : Sel) (J : Nat) (M2 : Bytes) (sLen k : Nat) : Option Bytes :=
  let emBits := k - 1
  let emLen := ceil8 emBits
  let z := topZeros emBits
  if 256 ^ emLen ≤ J then none
  else
    let EM := i2os J emLen
    match trailerOctets C sel EM with
    | none => none
    | some t =>
      if emLen < hLen C sel + t + sLen + 1 then none
      else
        let dbLen := emLen - hLen C sel - t
        let maskedDB := EM.take dbLen
        let H := (EM.drop dbLen).take (hLen C sel)
        if topIsZero z maskedDB = false then none
        else
          let DB := clearTop z (xorBytes maskedDB (mgf1 C sel H dbLen))
          match DB.dropWhile (· == 0x00) with
          | [] => none
          | b :: R =>
            if b ≠ 0x01 ∨ R.length < sLen then none
            else
              let M1 := R.take (R.length - sLen)
              let salt := R.drop (R.length - sLen)
              if isoHash C sel M1 M2 salt ≠ H then none else some M1

/-- R247 steps 5 and 6: open the signature, then the encoded message. -/
def isoRecover (C : Config) (sel : Sel) (s : State) (sig : Nat) (M2 : Bytes) (sLen : Nat) : Option Bytes :=
  match isoOpen s sig with
  | none => none
  | some J => isoPssOpen C sel J M2 sLen s.pub.k

/-- What DS2_SIGN and DS3_SIGN do with the two parts of the message and the salt (R246 steps 8 to 12, R257 steps 10 to
14). -/
def isoSign (C : Config) (h : Sel) (um crt : Bool) (s : State) (M1 M2 salt T : Bytes) (used : Nat) : Result :=
  let K := s.privMod crt
  let x := os2ip (isoPssEm C h M1 M2 salt K.k T)
  inDomain x K.n used (.done (i2os (published um (s.privExp crt x) K.n) K.klen) M2 used)

/-- The rule DS2_VERIFY and DS3_VERIFY share for a salt length (R247, R258). -/
def isoVerify (C : Config) (h : Sel) (s : State) (sLen : Nat) : Result :=
  let sig := s.intOperand .inp
  let c1 := isoCap C h s.pub.k 1
  if c1 < 0 then .error .capacity 0
  else if c1.toNat / 8 < sLen then .error .capacity 0
  else inDomain sig s.pub.n 0 (decoded (isoRecover C h s sig (s.operand .msg) sLen))

/-- DS2_SIGN (R246). -/
def runDs2Sign (C : Config) (h : Sel) (it um crt ss sld : Bool) (s : State) : State :=
  let K := s.privMod crt
  let M := s.operand .msg
  let sLen := saltLen C h sld s
  complete (guarded C
    { flagsLegal := saltFlagsLegal ss sld, hash := some h, slot := .priv crt, bufs := .msg :: saltInput sld } s
    (match trailer C h it with
     | none => .error .param 0
     | some T =>
       let c := isoCap C h K.k T.length
       if c < 0 then .error .capacity 0
       else if c.toNat / 8 < sLen then .error .capacity 0
       else
         let m1Len := min M.length (c.toNat / 8 - sLen)
         isoSign C h um crt s (M.take m1Len) (M.drop m1Len) (saltOf C h ss sld s) T (saltDrawn C h ss sld s))) s

/-- DS2_VERIFY (R247). -/
def runDs2Verify (C : Config) (h : Sel) (sld : Bool) (s : State) : State :=
  complete (guarded C { hash := some h, slot := .pub, bufs := .inp :: .msg :: saltInput sld } s
    (isoVerify C h s (saltLen C h sld s))) s

/-- DS3_SIGN (R257); the checks are those of R256, in its order. -/
def runDs3Sign (C : Config) (h : Sel) (it um crt : Bool) (s : State) : State :=
  let K := s.privMod crt
  let M := s.operand .msg
  let sLen := (s.len .salt).toNat
  let m1bits := s.m1bits.toNat
  complete (guarded C { hash := some h, slot := .priv crt, bufs := [.msg, .salt] } s
    (match trailer C h it with
     | none => .error .param 0
     | some T =>
       let c := isoCap C h K.k T.length
       if sLen = 0 then .error .param 0
       else if c < 0 then .error .capacity 0
       else if c.toNat / 8 < sLen then .error .capacity 0
       else if 8 * (c.toNat / 8 - sLen) < m1bits then .error .capacity 0
       else if m1bits % 8 ≠ 0 then .error .param 0
       else
         let m1Len := min M.length (m1bits / 8)
         isoSign C h um crt s (M.take m1Len) (M.drop m1Len) (s.operand .salt) T 0)) s

/-- DS3_VERIFY (R258): there is no SLD flag. -/
def runDs3Verify (C : Config) (h : Sel) (s : State) : State :=
  complete (guarded C { hash := some h, slot := .pub, bufs := [.inp, .msg, .salt] } s
    (isoVerify C h s (s.len .salt).toNat)) s

/-- DS2_SIGN in the configuration of this machine. -/
def execDs2Sign (h : Sel) (it um crt ss sld : Bool) (s : State) : Outcome := .next (runDs2Sign cfg h it um crt ss sld s)

/-- DS2_VERIFY in the configuration of this machine. -/
def execDs2Verify (h : Sel) (sld : Bool) (s : State) : Outcome := .next (runDs2Verify cfg h sld s)

/-- DS3_SIGN in the configuration of this machine. -/
def execDs3Sign (h : Sel) (it um crt : Bool) (s : State) : Outcome := .next (runDs3Sign cfg h it um crt s)

/-- DS3_VERIFY in the configuration of this machine. -/
def execDs3Verify (h : Sel) (s : State) : Outcome := .next (runDs3Verify cfg h s)

end Sys2Proof.Machine
end

