-- ==== Sys2Proof/Machine/Dispatch.lean ====
section
/-! DEFINITION. One arm per command (R91), each a direct call of its meaning. -/

namespace Sys2Proof.Machine

/-- The completion of a command (R101 (2)). -/
def exec (i : Instr) (s : State) : Host.Outcome State Fault Refusal :=
  match i with
  | .nop => Sys2Proof.Machine.execNop s
  | .keyLoadPub => Sys2Proof.Machine.execKeyLoadPub s
  | .keyLoadPriv => Sys2Proof.Machine.execKeyLoadPriv s
  | .keyLoadCrt => Sys2Proof.Machine.execKeyLoadCrt s
  | .keyClear => Sys2Proof.Machine.execKeyClear s
  | .rsaep => Sys2Proof.Machine.execRsaep s
  | .rsadp crt => Sys2Proof.Machine.execRsadp crt s
  | .rsasp1 crt => Sys2Proof.Machine.execRsasp1 crt s
  | .rsavp1 => Sys2Proof.Machine.execRsavp1 s
  | .minsel => Sys2Proof.Machine.execMinsel s
  | .mgf1 h => Sys2Proof.Machine.execMgf1 h s
  | .emeV15Encode => Sys2Proof.Machine.execEmeV15Encode s
  | .emeV15Decode => Sys2Proof.Machine.execEmeV15Decode s
  | .oaepEncode h => Sys2Proof.Machine.execOaepEncode h s
  | .oaepDecode h => Sys2Proof.Machine.execOaepDecode h s
  | .emsaV15Encode h => Sys2Proof.Machine.execEmsaV15Encode h s
  | .pssEncode h ss sld => Sys2Proof.Machine.execPssEncode h ss sld s
  | .pssCheck h sld => Sys2Proof.Machine.execPssCheck h sld s
  | .esV15Encrypt => Sys2Proof.Machine.execEsV15Encrypt s
  | .esV15Decrypt crt => Sys2Proof.Machine.execEsV15Decrypt crt s
  | .esOaepEncrypt h => Sys2Proof.Machine.execEsOaepEncrypt h s
  | .esOaepDecrypt h crt => Sys2Proof.Machine.execEsOaepDecrypt h crt s
  | .ssaV15Sign h crt => Sys2Proof.Machine.execSsaV15Sign h crt s
  | .ssaV15Verify h => Sys2Proof.Machine.execSsaV15Verify h s
  | .ssaPssSign h crt ss sld => Sys2Proof.Machine.execSsaPssSign h crt ss sld s
  | .ssaPssVerify h sld => Sys2Proof.Machine.execSsaPssVerify h sld s
  | .ds1Sign h it um crt => Sys2Proof.Machine.execDs1Sign h it um crt s
  | .ds1Verify h => Sys2Proof.Machine.execDs1Verify h s
  | .ds2Sign h it um crt ss sld => Sys2Proof.Machine.execDs2Sign h it um crt ss sld s
  | .ds2Verify h sld => Sys2Proof.Machine.execDs2Verify h sld s
  | .ds3Sign h it um crt => Sys2Proof.Machine.execDs3Sign h it um crt s
  | .ds3Verify h => Sys2Proof.Machine.execDs3Verify h s

end Sys2Proof.Machine
end

