-- ==== Sys2Proof/Machine/Step.lean ====
section
/-! DEFINITION. One step of the machine, and where it fetches its next command: the command word latched in CMD while
PHASE = BUSY (R22, R42, R101). -/

namespace Sys2Proof.Machine

/-- One step (R69, R101): see `stepWith`. -/
def step (s : State) : Host.Outcome State Fault Refusal := stepWith cfg exec s

/-- The state in which the very next step runs the command of a word: the word accepted as a CMD write accepts it (R22), and
nothing to come before the engine's turn (log 7). -/
def State.withFetchWord (s : State) (nbits w : Nat) : State := placeWord s nbits w

end Sys2Proof.Machine
end

