-- ==== Sys2Proof/Machine/Script.lean ====
section
/-! DEFINITION. The host scripts of 30_encoding.md (R99, R100): each statement as the bus operations it expands to, which are what
`State.inputs` holds. The engine's turns come between them wherever completion falls (log 6, log 23). -/

namespace Sys2Proof.Machine

/-- A host-script statement (R99) or pseudo-statement (R100). What a statement's expansion takes from a value the host has read is
an argument here: `wait` has the number of reads of STATUS it took, `get` the length that was read. -/
inductive Stmt where
  /-- `wr REG, v`. -/
  | wr (r : RegId) (v : Word)
  /-- `rd REG`. -/
  | rd (r : RegId)
  /-- `wb BUF+i, b`. -/
  | wb (b : BufId) (i : Nat) (v : Byte)
  /-- `rb BUF+i`. -/
  | rb (b : BufId) (i : Nat)
  /-- `cmd MNEMONIC[.HASH][, FLAG]...`: the opcode of the mnemonic (R91), the selector of the hash, the flag bits. -/
  | cmd (opc : Byte) (hash : Sel) (it um crt ss sld : Bool)
  /-- `ack`. -/
  | ack
  /-- `ld BUF, X`. -/
  | ld (b : BufId) (X : Bytes)
  /-- `ldint BUF, x`. -/
  | ldint (b : BufId) (x : Nat)
  /-- `wait`. -/
  | wait (reads : Nat)
  /-- `run MNEMONIC...`. -/
  | run (opc : Byte) (hash : Sel) (it um crt ss sld : Bool) (reads : Nat)
  /-- `get BUF`. -/
  | get (b : BufId) (l : Nat)
  /-- `expect cond`: no bus operation. -/
  | expect
  deriving DecidableEq, Repr

/-- `wr REG, v` as a bus operation (R99). -/
def wrEvent (r : RegId) (v : Word) : HostEvent := .write (regOffset r) 4 v.toNat

/-- The expansion of `ld BUF, X` (R100): the octets in rising order, then the length register. -/
def ldEvents (C : Config) (b : BufId) (X : Bytes) : List HostEvent :=
  (List.range X.length).map (fun i => .write (octetAddr C b i) 1 (X.getD i 0).toNat) ++
    [wrEvent (.len b) (BitVec.ofNat 32 X.length)]

/-- The shortest big-endian form of an integer, one octet for zero (R100 `ldint`). -/
def shortest (x : Nat) : Bytes := i2os x (max 1 (ceil8 (bitlen x)))

/-- The bus operations of a statement (R99, R100). -/
def Stmt.events (C : Config) : Stmt → List HostEvent
  | .wr r v => [wrEvent r v]
  | .rd r => [.read (regOffset r) 4]
  | .wb b i v => [.write (octetAddr C b i) 1 v.toNat]
  | .rb b i => [.read (octetAddr C b i) 1]
  | .cmd opc hash it um crt ss sld => [wrEvent .cmd (packWord opc hash it um crt ss sld)]
  | .ack => [wrEvent .ack 1]
  | .ld b X => ldEvents C b X
  | .ldint b x => ldEvents C b (shortest x)
  | .wait reads => List.replicate reads (.read (regOffset .status) 4)
  | .run opc hash it um crt ss sld reads =>
    wrEvent .cmd (packWord opc hash it um crt ss sld) :: List.replicate reads (.read (regOffset .status) 4)
  | .get b l => .read (regOffset (.len b)) 4 :: (List.range l).map (fun i => .read (octetAddr C b i) 1)
  | .expect => []

end Sys2Proof.Machine
end

