-- ==== Sys2Proof/Machine/Run.lean ====
section
/-! DEFINITION. The completion of a command in ANY configuration (R6: "OPEN (the model takes it as an argument and proves for
every value)"). `exec` is this at `cfg`; a law about `runAt C` holds for every admissible configuration, hash and answer of the
random port. -/

namespace Sys2Proof.Machine

/-- The state after the completion of a command, in configuration `C`. -/
def runAt (C : Config) (i : Instr) (s : State) : State :=
  match i with
  | .nop => runNop C s
  | .keyLoadPub => runKeyLoadPub C s
  | .keyLoadPriv => runKeyLoadPriv C s
  | .keyLoadCrt => runKeyLoadCrt C s
  | .keyClear => runKeyClear C s
  | .rsaep => runRsaep C s
  | .rsadp crt => runRsadp C crt s
  | .rsasp1 crt => runRsasp1 C crt s
  | .rsavp1 => runRsavp1 C s
  | .minsel => runMinsel C s
  | .mgf1 h => runMgf1 C h s
  | .emeV15Encode => runEmeV15Encode C s
  | .emeV15Decode => runEmeV15Decode C s
  | .oaepEncode h => runOaepEncode C h s
  | .oaepDecode h => runOaepDecode C h s
  | .emsaV15Encode h => runEmsaV15Encode C h s
  | .pssEncode h ss sld => runPssEncode C h ss sld s
  | .pssCheck h sld => runPssCheck C h sld s
  | .esV15Encrypt => runEsV15Encrypt C s
  | .esV15Decrypt crt => runEsV15Decrypt C crt s
  | .esOaepEncrypt h => runEsOaepEncrypt C h s
  | .esOaepDecrypt h crt => runEsOaepDecrypt C h crt s
  | .ssaV15Sign h crt => runSsaV15Sign C h crt s
  | .ssaV15Verify h => runSsaV15Verify C h s
  | .ssaPssSign h crt ss sld => runSsaPssSign C h crt ss sld s
  | .ssaPssVerify h sld => runSsaPssVerify C h sld s
  | .ds1Sign h it um crt => runDs1Sign C h it um crt s
  | .ds1Verify h => runDs1Verify C h s
  | .ds2Sign h it um crt ss sld => runDs2Sign C h it um crt ss sld s
  | .ds2Verify h sld => runDs2Verify C h sld s
  | .ds3Sign h it um crt => runDs3Sign C h it um crt s
  | .ds3Verify h => runDs3Verify C h s

/-- One step in configuration `C`. -/
def stepAt (C : Config) (s : State) : Outcome := stepWith C (fun i t => .next (runAt C i t)) s

end Sys2Proof.Machine
end

