-- ==== Sys2Proof/Safety.lean ====
section
/-! DEFINITION. What counts as a safe state and what the statements speak of: the operand table R96 and the error table R308 as
the spec prints them (the machine's meanings carry their own copies; the statements say that they agree), the invariant of
the block, and a consistent key. -/

namespace Sys2Proof

/-- The columns "mask" and "match" of a command's row in opcode_table.json. -/
def Instr.pattern : Instr → Word × Word
  | .nop => (0xFFFFFFFF, 0x00000000)
  | .keyLoadPub => (0xFFFFFFFF, 0x00000001)
  | .keyLoadPriv => (0xFFFFFFFF, 0x00000002)
  | .keyLoadCrt => (0xFFFFFFFF, 0x00000003)
  | .keyClear => (0xFFFFFFFF, 0x00000004)
  | .rsaep => (0xFFFFFFFF, 0x00000010)
  | .rsadp _ => (0xFFFFBFFF, 0x00000011)
  | .rsasp1 _ => (0xFFFFBFFF, 0x00000012)
  | .rsavp1 => (0xFFFFFFFF, 0x00000013)
  | .minsel => (0xFFFFFFFF, 0x00000014)
  | .mgf1 _ => (0xFFFFF0FF, 0x00000020)
  | .emeV15Encode => (0xFFFFFFFF, 0x00000021)
  | .emeV15Decode => (0xFFFFFFFF, 0x00000022)
  | .oaepEncode _ => (0xFFFFF0FF, 0x00000023)
  | .oaepDecode _ => (0xFFFFF0FF, 0x00000024)
  | .emsaV15Encode _ => (0xFFFFF0FF, 0x00000025)
  | .pssEncode _ _ _ => (0xFFFE70FF, 0x00000026)
  | .pssCheck _ _ => (0xFFFEF0FF, 0x00000027)
  | .esV15Encrypt => (0xFFFFFFFF, 0x00000030)
  | .esV15Decrypt _ => (0xFFFFBFFF, 0x00000031)
  | .esOaepEncrypt _ => (0xFFFFF0FF, 0x00000032)
  | .esOaepDecrypt _ _ => (0xFFFFB0FF, 0x00000033)
  | .ssaV15Sign _ _ => (0xFFFFB0FF, 0x00000034)
  | .ssaV15Verify _ => (0xFFFFF0FF, 0x00000035)
  | .ssaPssSign _ _ _ _ => (0xFFFE30FF, 0x00000036)
  | .ssaPssVerify _ _ => (0xFFFEF0FF, 0x00000037)
  | .ds1Sign _ _ _ _ => (0xFFFF80FF, 0x00000040)
  | .ds1Verify _ => (0xFFFFF0FF, 0x00000041)
  | .ds2Sign _ _ _ _ _ _ => (0xFFFE00FF, 0x00000042)
  | .ds2Verify _ _ => (0xFFFEF0FF, 0x00000043)
  | .ds3Sign _ _ _ _ => (0xFFFF80FF, 0x00000044)
  | .ds3Verify _ => (0xFFFFF0FF, 0x00000045)

end Sys2Proof

namespace Sys2Proof.Machine

/-! ## The tables of the spec -/

/-- The operand use of every command (R96): the columns "hash", "slot" and "inputs", and whether the salt flags are legal
(R93). SALT_LEN is used unless SLD = 1. -/
def useOf : Instr → Use
  | .nop => {}
  | .keyLoadPub => { bufs := [.kn, .ke] }
  | .keyLoadPriv => { bufs := [.kn, .ke, .kd] }
  | .keyLoadCrt => { bufs := [.kp, .kq, .kdp, .kdq, .kqinv] }
  | .keyClear => {}
  | .rsaep => { slot := .pub, bufs := [.inp] }
  | .rsadp crt => { slot := .priv crt, bufs := [.inp] }
  | .rsasp1 crt => { slot := .priv crt, bufs := [.inp] }
  | .rsavp1 => { slot := .pub, bufs := [.inp] }
  | .minsel => { slot := .pub, bufs := [.inp] }
  | .mgf1 h => { hash := some h, bufs := [.inp], embits := true }
  | .emeV15Encode => { bufs := [.msg], embits := true }
  | .emeV15Decode => { bufs := [.inp] }
  | .oaepEncode h => { hash := some h, bufs := [.msg, .label], embits := true }
  | .oaepDecode h => { hash := some h, bufs := [.inp, .label] }
  | .emsaV15Encode h => { hash := some h, bufs := [.msg], embits := true }
  | .pssEncode h ss sld =>
    { flagsLegal := saltFlagsLegal ss sld, hash := some h, bufs := .msg :: saltInput sld, embits := true }
  | .pssCheck h sld => { hash := some h, bufs := .msg :: .inp :: saltInput sld, embits := true }
  | .esV15Encrypt => { slot := .pub, bufs := [.msg] }
  | .esV15Decrypt crt => { slot := .priv crt, bufs := [.inp] }
  | .esOaepEncrypt h => { hash := some h, slot := .pub, bufs := [.msg, .label] }
  | .esOaepDecrypt h crt => { hash := some h, slot := .priv crt, bufs := [.inp, .label] }
  | .ssaV15Sign h crt => { hash := some h, slot := .priv crt, bufs := [.msg] }
  | .ssaV15Verify h => { hash := some h, slot := .pub, bufs := [.msg, .inp] }
  | .ssaPssSign h crt ss sld =>
    { flagsLegal := saltFlagsLegal ss sld, hash := some h, slot := .priv crt, bufs := .msg :: saltInput sld }
  | .ssaPssVerify h sld => { hash := some h, slot := .pub, bufs := .msg :: .inp :: saltInput sld }
  | .ds1Sign h _ _ crt => { hash := some h, slot := .priv crt, bufs := [.msg] }
  | .ds1Verify h => { hash := some h, slot := .pub, bufs := [.inp, .msg] }
  | .ds2Sign h _ _ crt ss sld =>
    { flagsLegal := saltFlagsLegal ss sld, hash := some h, slot := .priv crt, bufs := .msg :: saltInput sld }
  | .ds2Verify h sld => { hash := some h, slot := .pub, bufs := .inp :: .msg :: saltInput sld }
  | .ds3Sign h _ _ crt => { hash := some h, slot := .priv crt, bufs := [.msg, .salt] }
  | .ds3Verify h => { hash := some h, slot := .pub, bufs := [.inp, .msg, .salt] }

/-- Whether a command may call the random port (R96, column "rng"). -/
def mayDraw : Instr → Bool
  | .nop => false
  | .keyLoadPub => false
  | .keyLoadPriv => false
  | .keyLoadCrt => false
  | .keyClear => false
  | .rsaep => false
  | .rsadp _ => false
  | .rsasp1 _ => false
  | .rsavp1 => false
  | .minsel => false
  | .mgf1 _ => false
  | .emeV15Encode => true
  | .emeV15Decode => false
  | .oaepEncode _ => true
  | .oaepDecode _ => false
  | .emsaV15Encode _ => false
  | .pssEncode _ ss _ => !ss
  | .pssCheck _ _ => false
  | .esV15Encrypt => true
  | .esV15Decrypt _ => false
  | .esOaepEncrypt _ => true
  | .esOaepDecrypt _ _ => false
  | .ssaV15Sign _ _ => false
  | .ssaV15Verify _ => false
  | .ssaPssSign _ _ ss _ => !ss
  | .ssaPssVerify _ _ => false
  | .ds1Sign _ _ _ _ => false
  | .ds1Verify _ => false
  | .ds2Sign _ _ _ _ ss _ => !ss
  | .ds2Verify _ _ => false
  | .ds3Sign _ _ _ _ => false
  | .ds3Verify _ => false

/-- The commands that write key slots (R276). -/
def isKeyCommand : Instr → Bool
  | .keyLoadPub => true
  | .keyLoadPriv => true
  | .keyLoadCrt => true
  | .keyClear => true
  | .nop => false
  | .rsaep => false
  | .rsadp _ => false
  | .rsasp1 _ => false
  | .rsavp1 => false
  | .minsel => false
  | .mgf1 _ => false
  | .emeV15Encode => false
  | .emeV15Decode => false
  | .oaepEncode _ => false
  | .oaepDecode _ => false
  | .emsaV15Encode _ => false
  | .pssEncode _ _ _ => false
  | .pssCheck _ _ => false
  | .esV15Encrypt => false
  | .esV15Decrypt _ => false
  | .esOaepEncrypt _ => false
  | .esOaepDecrypt _ _ => false
  | .ssaV15Sign _ _ => false
  | .ssaV15Verify _ => false
  | .ssaPssSign _ _ _ _ => false
  | .ssaPssVerify _ _ => false
  | .ds1Sign _ _ _ _ => false
  | .ds1Verify _ => false
  | .ds2Sign _ _ _ _ _ _ => false
  | .ds2Verify _ _ => false
  | .ds3Sign _ _ _ _ => false
  | .ds3Verify _ => false

/-- The ISO sign commands, the only ones that leave anything in AUX (R96). -/
def isIsoSign : Instr → Bool
  | .ds1Sign _ _ _ _ => true
  | .ds2Sign _ _ _ _ _ _ => true
  | .ds3Sign _ _ _ _ => true
  | .nop => false
  | .keyLoadPub => false
  | .keyLoadPriv => false
  | .keyLoadCrt => false
  | .keyClear => false
  | .rsaep => false
  | .rsadp _ => false
  | .rsasp1 _ => false
  | .rsavp1 => false
  | .minsel => false
  | .mgf1 _ => false
  | .emeV15Encode => false
  | .emeV15Decode => false
  | .oaepEncode _ => false
  | .oaepDecode _ => false
  | .emsaV15Encode _ => false
  | .pssEncode _ _ _ => false
  | .pssCheck _ _ => false
  | .esV15Encrypt => false
  | .esV15Decrypt _ => false
  | .esOaepEncrypt _ => false
  | .esOaepDecrypt _ _ => false
  | .ssaV15Sign _ _ => false
  | .ssaV15Verify _ => false
  | .ssaPssSign _ _ _ _ => false
  | .ssaPssVerify _ _ => false
  | .ds1Verify _ => false
  | .ds2Verify _ _ => false
  | .ds3Verify _ => false

/-- The row of a command in R308 for a given `PSS_SLACK`: the codes beside E_OK and E_ILLEGAL that it can end with. -/
def codesOf (pssSlack : Nat) : Instr → List Err
  | .nop => []
  | .keyLoadPub => [.param]
  | .keyLoadPriv => [.param]
  | .keyLoadCrt => [.param]
  | .keyClear => []
  | .rsaep => [.param, .domain]
  | .rsadp _ => [.param, .domain]
  | .rsasp1 _ => [.param, .domain]
  | .rsavp1 => [.param, .domain]
  | .minsel => [.param, .domain]
  | .mgf1 _ => [.param]
  | .emeV15Encode => [.param, .capacity]
  | .emeV15Decode => [.param, .fail]
  | .oaepEncode _ => [.param, .capacity]
  | .oaepDecode _ => [.param, .capacity, .fail]
  | .emsaV15Encode _ => [.param, .capacity]
  | .pssEncode _ _ _ => [.param, .capacity]
  | .pssCheck _ _ => [.param, .fail]
  | .esV15Encrypt => [.param, .capacity]
  | .esV15Decrypt _ => [.param, .domain, .fail]
  | .esOaepEncrypt _ => [.param, .capacity]
  | .esOaepDecrypt _ _ => [.param, .capacity, .domain, .fail]
  | .ssaV15Sign _ _ => [.param, .capacity]
  | .ssaV15Verify _ => [.param, .capacity, .domain, .fail]
  | .ssaPssSign _ _ _ _ => if pssSlack = 0 then [.param, .capacity, .domain] else [.param, .capacity]
  | .ssaPssVerify _ _ => [.param, .domain, .fail]
  | .ds1Sign _ _ _ _ => [.param, .capacity]
  | .ds1Verify _ => [.param, .capacity, .domain, .fail]
  | .ds2Sign _ _ _ _ _ _ => [.param, .capacity]
  | .ds2Verify _ _ => [.param, .capacity, .domain, .fail]
  | .ds3Sign _ _ _ _ => [.param, .capacity]
  | .ds3Verify _ => [.param, .capacity, .domain, .fail]

/-! ## Ready to run -/

/-- The conditions of R95 steps 2 to 5 on a command's operands, one field a condition. -/
structure Ready (C : Config) (i : Instr) (s : State) : Prop where
  /-- Step 2: not SS = 1 and SLD = 1. -/
  flags : (useOf i).flagsLegal = true
  /-- Step 3: the selected hash has a row in HASHES. -/
  hash : ∀ h, (useOf i).hash = some h → (C.hashes h).isSome = true
  /-- Step 4: the slot the command needs holds a key. -/
  slot : s.slotValid (useOf i).slot = true
  /-- Step 5: every length register the command uses is at most MAX_BUF. -/
  lens : ∀ b, b ∈ (useOf i).bufs → (s.len b).toNat ≤ C.maxBuf
  /-- Step 5: `⌈EMBITS/8⌉ ≤ MAX_BUF`, if the command uses EMBITS. -/
  embits : (useOf i).embits = true → ceil8 s.embits.toNat ≤ C.maxBuf

/-- Steps 2 to 4 of R95. -/
def Legal (C : Config) (i : Instr) (s : State) : Prop :=
  (useOf i).flagsLegal = true ∧ (∀ h, (useOf i).hash = some h → (C.hashes h).isSome = true) ∧
    s.slotValid (useOf i).slot = true

/-- Step 5 of R95. -/
def Sized (C : Config) (i : Instr) (s : State) : Prop :=
  (∀ b, b ∈ (useOf i).bufs → (s.len b).toNat ≤ C.maxBuf) ∧
    ((useOf i).embits = true → ceil8 s.embits.toNat ≤ C.maxBuf)

/-! ## The invariant -/

/-- A slot PUB as KEY_LOAD_PUB, KEY_CLEAR and reset leave it (R38, R277). -/
def PubSlot.Ok (C : Config) (K : PubSlot) : Prop :=
  if K.valid = true then
    1 ≤ K.n ∧ 1 ≤ K.e ∧ K.k = bitlen K.n ∧ K.klen = ceil8 K.k ∧ K.klen ≤ C.maxBuf ∧ ∀ m, C.maxK = some m → K.k ≤ m
  else K = PubSlot.empty

/-- A slot PRIV as KEY_LOAD_PRIV, KEY_CLEAR and reset leave it (R39, R277). -/
def PrivSlot.Ok (C : Config) (K : PrivSlot) : Prop :=
  if K.valid = true then
    1 ≤ K.n ∧ 1 ≤ K.e ∧ K.k = bitlen K.n ∧ K.klen = ceil8 K.k ∧ K.klen ≤ C.maxBuf ∧ ∀ m, C.maxK = some m → K.k ≤ m
  else K = PrivSlot.empty

/-- A slot CRT as KEY_LOAD_CRT, KEY_CLEAR and reset leave it (R40, R277). -/
def CrtSlot.Ok (C : Config) (K : CrtSlot) : Prop :=
  if K.valid = true then
    1 ≤ K.p ∧ 1 ≤ K.q ∧ K.n = K.p * K.q ∧ K.k = bitlen K.n ∧ K.klen = ceil8 K.k ∧ K.klen ≤ C.maxBuf ∧
      ∀ m, C.maxK = some m → K.k ≤ m
  else K = CrtSlot.empty

/-- What every state that the block can be in satisfies. -/
structure Inv (C : Config) (s : State) : Prop where
  /-- Every buffer is in canonical form and lists only octets it has (R34). -/
  bufs : ∀ b, (s.buf b).wf ∧ (s.buf b).below C.maxBuf
  /-- OUT_LEN and AUX_LEN fit the buffers (R30, R36). -/
  outLen : (s.len .out).toNat ≤ C.maxBuf ∧ (s.len .aux).toNat ≤ C.maxBuf
  /-- Octets past the results are zero (R36). -/
  tails : ∀ i, ((s.len .out).toNat ≤ i → s.octet .out i = 0) ∧ ((s.len .aux).toNat ≤ i → s.octet .aux i = 0)
  /-- ERR is zero while PHASE is IDLE or BUSY (R21). -/
  errOnlyDone : s.phase ≠ .done → s.err = .ok
  /-- OUT and AUX are empty while BUSY (R22) and after an error (R36). -/
  emptyOnError : s.phase = .busy ∨ s.err ≠ .ok → s.buf .out = [] ∧ s.buf .aux = [] ∧ s.len .out = 0 ∧ s.len .aux = 0
  pub : s.pub.Ok C
  priv : s.priv.Ok C
  crt : s.crt.Ok C
  /-- An empty slot has no findings (R25). -/
  findings : (s.pub.valid = false → s.findings.pubModShort = false ∧ s.findings.pubEWindow = false) ∧
    (s.priv.valid = false → s.findings.privModShort = false ∧ s.findings.privEWindow = false) ∧
    (s.crt.valid = false → s.findings.crtModShort = false)

/-! ## What a completion changes -/

/-- "every other register, every other buffer and every key slot: unchanged" (R296): all of the state but STATUS, OUT, AUX and
their lengths, and the count of drawn octets. -/
structure Unchanged (s t : State) : Prop where
  cmd : t.cmd = s.cmd
  doneIe : t.doneIe = s.doneIe
  findings : t.findings = s.findings
  embits : t.embits = s.embits
  m1bits : t.m1bits = s.m1bits
  pub : t.pub = s.pub
  priv : t.priv = s.priv
  crt : t.crt = s.crt
  inputs : t.inputs = s.inputs
  resp : t.resp = s.resp
  lens : ∀ b, b ≠ .out → b ≠ .aux → t.len b = s.len b
  octets : ∀ b i, b ≠ .out → b ≠ .aux → t.octet b i = s.octet b i

/-- OUT and AUX hold two strings at offset 0 and 0x00 past them, and OUT_LEN and AUX_LEN their lengths (R36). -/
structure Holds (out aux : Bytes) (t : State) : Prop where
  outLen : (t.len .out).toNat = out.length
  auxLen : (t.len .aux).toNat = aux.length
  outOctets : ∀ i, t.octet .out i = out.getD i 0
  auxOctets : ∀ i, t.octet .aux i = aux.getD i 0

/-- Two states have the same results: ERR, OUT, AUX and their lengths. -/
structure SameResults (s t : State) : Prop where
  err : s.err = t.err
  outLen : s.len .out = t.len .out
  auxLen : s.len .aux = t.len .aux
  outOctets : ∀ i, s.octet .out i = t.octet .out i
  auxOctets : ∀ i, s.octet .aux i = t.octet .aux i

/-- Whether the octets of SALT are an input (R96: "SALT (if SS)"; "When `SS = 0` the buffer SALT is not read"). -/
def readsSalt : Instr → Bool
  | .pssEncode _ ss _ => ss
  | .ssaPssSign _ _ ss _ => ss
  | .ds2Sign _ _ _ _ ss _ => ss
  | .ds3Sign _ _ _ _ => true
  | .nop => false
  | .keyLoadPub => false
  | .keyLoadPriv => false
  | .keyLoadCrt => false
  | .keyClear => false
  | .rsaep => false
  | .rsadp _ => false
  | .rsasp1 _ => false
  | .rsavp1 => false
  | .minsel => false
  | .mgf1 _ => false
  | .emeV15Encode => false
  | .emeV15Decode => false
  | .oaepEncode _ => false
  | .oaepDecode _ => false
  | .emsaV15Encode _ => false
  | .pssCheck _ _ => false
  | .esV15Encrypt => false
  | .esV15Decrypt _ => false
  | .esOaepEncrypt _ => false
  | .esOaepDecrypt _ _ => false
  | .ssaV15Sign _ _ => false
  | .ssaV15Verify _ => false
  | .ssaPssVerify _ _ => false
  | .ds1Sign _ _ _ _ => false
  | .ds1Verify _ => false
  | .ds2Verify _ _ => false
  | .ds3Verify _ => false

/-- Two states agree on everything R96 lets a command use: the key slot, the octets of each input buffer below its length
register, EMBITS if the command uses it, M1BITS for DS3_SIGN, the random port's position if the command may draw. The
buffer SALT counts with its length alone unless the command reads its octets. -/
structure SameOperands (i : Instr) (s t : State) : Prop where
  slot : s.slotValid (useOf i).slot = t.slotValid (useOf i).slot
  pub : (useOf i).slot = .pub → s.pub = t.pub
  priv : (useOf i).slot = .priv false → s.priv = t.priv
  crt : (useOf i).slot = .priv true → s.crt = t.crt
  lens : ∀ b, b ∈ (useOf i).bufs → s.len b = t.len b
  octets : ∀ b, b ∈ (useOf i).bufs → (b = .salt → readsSalt i = true) → ∀ j, j < (s.len b).toNat → s.octet b j = t.octet b j
  embits : (useOf i).embits = true → s.embits = t.embits
  m1bits : (∃ h it um crt, i = .ds3Sign h it um crt) → s.m1bits = t.m1bits
  drawn : mayDraw i = true → s.drawn = t.drawn

/-- A command that is not ready ends with E_ILLEGAL when it fails steps 2 to 4 of R95, else with E_PARAM (R297), and does
nothing of its own rule (R296). -/
def ChecksFirst (i : Instr) (s : State) : Prop :=
  ¬ Ready cfg i s →
    (¬ Legal cfg i s ∧ exec i s = .next (raise .illegal s)) ∨ (Legal cfg i s ∧ exec i s = .next (raise .param s))

/-! ## Values the rules name -/

/-- `m^e mod n` of slot PUB (R125, R128), with the power of the naturals. -/
def pubPower (s : State) (m : Nat) : Nat := m ^ s.pub.e % s.pub.n

/-- `PrivExp(c)` (R122, R123), with the powers of the naturals. -/
def privPower (s : State) (crt : Bool) (c : Nat) : Nat :=
  if crt then
    let m1 := (c % s.crt.p) ^ s.crt.dP % s.crt.p
    let m2 := (c % s.crt.q) ^ s.crt.dQ % s.crt.q
    m2 + s.crt.q * ((s.crt.qInv : Int) * ((m1 : Int) - (m2 : Int)) % (s.crt.p : Int)).toNat
  else c ^ s.priv.d % s.priv.n

/-- `EM = 0x00 || 0x02 || PS || 0x00 || M` with at least 8 octets of PS, none of them 0x00 (R150, R153). -/
def EmeForm (EM M : Bytes) : Prop :=
  ∃ PS : Bytes, 8 ≤ PS.length ∧ (∀ b ∈ PS, b ≠ 0x00) ∧ EM = [0x00, 0x02] ++ PS ++ [0x00] ++ M

/-- `J` is the integer that R226 opens a signature integer to: `s^e mod n` if its low nibble is 0xC, else `n` less that, if the
low nibble of this is 0xC. -/
def Opens (s : State) (sig J : Nat) : Prop :=
  J % 16 = 12 ∧ (J = pubPower s sig ∨ (pubPower s sig % 16 ≠ 12 ∧ J = s.pub.n - pubPower s sig))

/-- The trailer of a sign command (R223): `0xBC`, or the hash identifier and `0xCC`. -/
def TrailerIs (C : Config) (h : Sel) (it : Bool) (T : Bytes) : Prop :=
  (it = true ∧ T = [0xBC]) ∨ (it = false ∧ ∃ i, hashID C h = some i ∧ T = [i, 0xCC])

/-- The signature integer an ISO sign command publishes (R228, R246, R257): `S`, or with UM = 1 the smaller of `S` and
`n − S`. -/
def canonicalS (um : Bool) (S n : Nat) : Nat := if um = true ∧ n - S < S then n - S else S

/-! ## Consistent keys -/

/-- The public slot and the selected private slot hold one RSA key (R124, R157): two distinct primes, `n = p·q`, an exponent `d`
that inverts `e`, and for the CRT form the exponents and the coefficient that belong to `d`. For the CRT form `dP` and `dQ`
are not 0 (log 19). -/
def KeyPair (s : State) (crt : Bool) : Prop :=
  ∃ p q d : Nat, p.Prime ∧ q.Prime ∧ p ≠ q ∧ s.pub.n = p * q ∧ 1 ≤ d ∧
    s.pub.e * d % (p - 1) = 1 % (p - 1) ∧ s.pub.e * d % (q - 1) = 1 % (q - 1) ∧
    if crt then
      s.crt.p = p ∧ s.crt.q = q ∧ s.crt.n = p * q ∧ 1 ≤ s.crt.dP ∧ 1 ≤ s.crt.dQ ∧ s.crt.dP % (p - 1) = d % (p - 1) ∧
        s.crt.dQ % (q - 1) = d % (q - 1) ∧ s.crt.qInv * q % p = 1
    else s.priv.n = p * q ∧ s.priv.d = d

end Sys2Proof.Machine
end

