-- ==== Sys2Proof/Certificates/Slice0/Obligations.lean ====
section
/-! DEFINITION. The statements about the machine. Each docstring names the rule of spec/ that the statement formalises. `exec` and
`step` run in the configuration `cfg`; a statement about `runAt C` or `stepAt C` is about every configuration (R6). -/

section
open Sys2Proof Sys2Proof.Machine

/-! ## Reset and the invariant -/

/-- R45, R320: after reset every register reads zero, every octet is 0x00, every slot is empty, PHASE is IDLE, ERR is zero and the
interrupt is off, whatever the block was doing before the reset (a command that was running included). -/
def Obligations.ResetBringsEveryValue : Prop :=
  (∀ s rest, s.inputs = .reset :: rest → ∃ t, step s = .next t) ∧
  ∀ t : State, (t = State.reset ∨ ∃ s rest, s.inputs = .reset :: rest ∧ step s = .next t) →
    (∀ r, regValue t r = 0) ∧ (∀ b i, t.octet b i = 0) ∧ t.pub = ⟨false, 0, 0, 0, 0⟩ ∧ t.priv = ⟨false, 0, 0, 0, 0, 0⟩ ∧
      t.crt = ⟨false, 0, 0, 0, 0, 0, 0, 0, 0⟩ ∧ t.phase = .idle ∧ t.err = .ok ∧ t.doneIe = false ∧ irq t = false

/-- The state after reset satisfies the invariant, in every configuration. -/
def Obligations.ResetMeetsInvariant : Prop := ∀ C : Config, Inv C State.reset

/-- Every step keeps the invariant, in every configuration whose buffers a length register can measure (log 12), and so on this
machine. -/
def Obligations.StepKeepsInvariant : Prop :=
  (∀ (C : Config) (s t : State), C.maxBuf < 2 ^ 32 → Inv C s → stepAt C s = .next t → Inv C t) ∧
  ∀ s t : State, Inv cfg s → step s = .next t → Inv cfg t

/-! ## Encoding -/

/-- R90, R91, R96: the word of a well-formed command decodes to it, with every field at every value. -/
def Obligations.DecodeOfEncode : Prop := ∀ i : Instr, i.wf = true → decode (encode i) = .ok i

/-- A word that decodes is the word of the command it decodes to, which is well-formed: no bit of the word is dropped. -/
def Obligations.EncodeOfDecode : Prop := ∀ (w : Word) (i : Instr), decode w = .ok i → encode i = w ∧ i.wf = true

/-- R94, opcode_table.json: a word decodes exactly when it has the fixed bits of some row (and not SS and SLD together, R93),
and then to a command of that row. -/
def Obligations.DecodeMatchesOpcodeTable : Prop :=
  (∀ (w : Word) (i : Instr), decode w = .ok i →
    w &&& i.pattern.1 = i.pattern.2 ∧ (w.getLsbD 15 && w.getLsbD 16) = false) ∧
  ∀ (w : Word) (i : Instr), w &&& i.pattern.1 = i.pattern.2 → (w.getLsbD 15 && w.getLsbD 16) = false →
    ∃ j, decode w = .ok j ∧ j.pattern = i.pattern

/-- R97: a word with a reserved opcode is accepted, and completes with E_ILLEGAL and no other effect. That the completion is the
very next step, and the CMD write an entry of `inputs`, is the model's choice (log 6). -/
def Obligations.ReservedOpcodesAreIllegal : Prop :=
  ∀ (s : State) (w : Word),
    (let opc := w.toNat % 256
     (0x05 ≤ opc ∧ opc ≤ 0x0F) ∨ (0x15 ≤ opc ∧ opc ≤ 0x1F) ∨ (0x28 ≤ opc ∧ opc ≤ 0x2F) ∨ (0x38 ≤ opc ∧ opc ≤ 0x3F) ∨
       (0x46 ≤ opc ∧ opc ≤ 0xFF)) →
    s.phase ≠ .busy → s.inputs = [.write 0x00 4 w.toNat] →
      ∃ t u, step s = .next t ∧ t.phase = .busy ∧ t.cmd = w ∧ step t = .next u ∧ u.err = .illegal ∧ Unchanged t u ∧
        Holds [] [] u ∧ u.phase = .done

/-- R292: every one of the `2^32` command words either is a legal command (R95 steps 1 to 4) or ends with E_ILLEGAL and changes
nothing but STATUS, OUT, AUX and their lengths. That in both cases the command completes is R101 and R331. The model's choices in
this: the completion is the next step, since nothing else is to come (log 6), and EME_V15_ENCODE and ES_V15_ENCRYPT draw their
padding in one piece, so that the premise R151 names, that the random port yields enough non-zero octets, is not a hypothesis
here (log 5). -/
def Obligations.EveryWordHasAnOutcome : Prop :=
  ∀ s : State, s.phase = .busy → s.inputs = [] →
    ∃ t, step s = .next t ∧ t.phase = .done ∧
      ((∃ i, decode s.cmd = .ok i ∧ Legal cfg i s ∧ exec i s = .next t) ∨
       (t.err = .illegal ∧ Unchanged s t ∧ Holds [] [] t))

/-- Words written out from R90 and R91, one of each family (30_encoding.md section 1). -/
def Obligations.WordsDecodeAsTheTableSays : Prop :=
  decode 0b000000000000000_0_0_0_0_0_0000_00000000#32 = .ok .nop ∧
  decode 0b000000000000000_0_0_0_0_0_0000_00000001#32 = .ok .keyLoadPub ∧
  decode 0b000000000000000_0_0_1_0_0_0000_00010001#32 = .ok (.rsadp true) ∧
  decode 0b000000000000000_0_0_0_0_0_0010_00100011#32 = .ok (.oaepEncode 2) ∧
  decode 0b000000000000000_0_0_1_0_0_0000_00110001#32 = .ok (.esV15Decrypt true) ∧
  decode 0b000000000000000_0_0_0_0_0_0001_00110100#32 = .ok (.ssaV15Sign 1 false) ∧
  decode 0b000000000000000_0_1_1_0_0_0010_00110110#32 = .ok (.ssaPssSign 2 true true false) ∧
  decode 0b000000000000000_0_0_0_1_1_0001_01000000#32 = .ok (.ds1Sign 1 true true false) ∧
  decode 0b000000000000000_1_0_1_0_1_0010_01000010#32 = .ok (.ds2Sign 2 true false true false true) ∧
  decode 0b000000000000000_0_0_0_0_0_0010_01000101#32 = .ok (.ds3Verify 2)

/-- One step (R69, R101): with a command accepted and the engine's turn next, the step is `exec` of the command the latched word
decodes to; a step on a host access or a reset does that alone; with nothing to do the step changes nothing. Choices of the model:
that the accesses, the engine's turns and the resets stand in `inputs`, and that an empty list is the engine's turn (log 6); that
a reset leaves what is still to come (log 15); what `withFetchWord` places (log 7). -/
def Obligations.StepRunsTheDecodedCommand : Prop :=
  (∀ (s : State) (i : Instr), s.phase = .busy → s.inputs = [] → decode s.cmd = .ok i → step s = exec i s) ∧
  (∀ (s : State) (i : Instr) rest, s.phase = .busy → s.inputs = .engine :: rest → decode s.cmd = .ok i →
    step s = exec i { s with inputs := rest }) ∧
  (∀ s : State, s.phase ≠ .busy → s.inputs = [] → step s = .next s) ∧
  (∀ (s : State) rest, s.phase ≠ .busy → s.inputs = .engine :: rest → step s = .next { s with inputs := rest }) ∧
  (∀ (s : State) a n rest, s.inputs = .read a n :: rest →
    step s = .next { s with inputs := rest, resp := some (busRead cfg s a n) }) ∧
  (∀ (s : State) a n v rest, s.inputs = .write a n v :: rest →
    step s = .next { busWrite cfg s a n v with inputs := rest, resp := some (busWriteResponse cfg a n) }) ∧
  (∀ (s : State) rest, s.inputs = .reset :: rest → step s = .next (hardReset { s with inputs := rest })) ∧
  (∀ (s : State) (w : Word) (i : Instr), decode w = .ok i →
    step (s.withFetchWord 32 w.toNat) = exec i { accept w s with inputs := [] })

/-! ## The bus -/

/-- R63: any access but an aligned word access below BUF_STRIDE and an octet access inside a buffer gets a bus error, changes no
state, and returns no data. -/
def Obligations.OtherAccessesAreBusErrors : Prop :=
  ∀ (C : Config) (s : State) (addr n v : Nat), ¬ (n = 4 ∧ addr % 4 = 0 ∧ addr < C.bufStride) →
    ¬ (n = 1 ∧ ∃ id i, id ≤ 13 ∧ i < C.maxBuf ∧ addr = (id + 1) * C.bufStride + i) →
      busRead C s addr n = .busError ∧ busWriteResponse C addr n = .busError ∧ busWrite C s addr n v = s

/-- R32, R33: what a word read returns at every word address below BUF_STRIDE, while the block is not BUSY. -/
def Obligations.RegisterMapReads : Prop :=
  ∀ (C : Config) (s : State), s.phase ≠ .busy →
    (∀ p ∈ [(0x00, s.cmd), (0x04, statusWord s), (0x08, 0), (0x0C, ienWord s), (0x10, findingsWord s.findings),
        (0x14, BitVec.ofNat 32 s.pub.k), (0x18, BitVec.ofNat 32 s.priv.k), (0x1C, BitVec.ofNat 32 s.crt.k), (0x20, s.embits),
        (0x24, s.m1bits), (0x28, s.len .msg), (0x2C, s.len .label), (0x30, s.len .salt), (0x34, s.len .inp), (0x38, s.len .out),
        (0x3C, s.len .aux), (0x40, s.len .kn), (0x44, s.len .ke), (0x48, s.len .kd), (0x4C, s.len .kp), (0x50, s.len .kq),
        (0x54, s.len .kdp), (0x58, s.len .kdq), (0x5C, s.len .kqinv)],
      busRead C s p.1 4 = .word p.2) ∧
    ∀ addr v, 0x60 ≤ addr → addr % 4 = 0 → addr < C.bufStride →
      busRead C s addr 4 = .word 0 ∧ busWriteResponse C addr 4 = .written ∧ busWrite C s addr 4 v = s

/-- R27 to R31, R66: a write of a writable register is read back and changes no other register, buffer or slot; a write of a
read-only register changes nothing. -/
def Obligations.RegisterWritesReadBack : Prop :=
  ∀ (C : Config) (s : State) (v : Word), s.phase ≠ .busy →
    busWrite C s 0x20 4 v.toNat = { s with embits := v } ∧ busWrite C s 0x24 4 v.toNat = { s with m1bits := v } ∧
    busWrite C s 0x0C 4 v.toNat = { s with doneIe := v.getLsbD 0 } ∧
    (∀ b : BufId, b ≠ .out → b ≠ .aux →
      (busWrite C s (0x28 + 4 * b.num) 4 v.toNat).len b = v ∧
      (∀ c, c ≠ b → (busWrite C s (0x28 + 4 * b.num) 4 v.toNat).len c = s.len c) ∧
      { busWrite C s (0x28 + 4 * b.num) 4 v.toNat with lens := s.lens } = s) ∧
    ∀ addr ∈ [0x04, 0x10, 0x14, 0x18, 0x1C, 0x38, 0x3C], busWrite C s addr 4 v.toNat = s ∧ busWriteResponse C addr 4 = .written

/-- R61, R34, R36: octet `i` of buffer `id` is at `(id + 1)·BUF_STRIDE + i`; a write of an octet of a writable buffer is what the
octet then holds, and no other octet and no other state changes; a write of OUT or AUX is ignored. -/
def Obligations.BufferOctetAccess : Prop :=
  ∀ (C : Config) (s : State) (b : BufId) (i v : Nat), i < C.maxBuf → s.phase ≠ .busy →
    let addr := (b.num + 1) * C.bufStride + i
    (b ∈ [.msg, .label, .salt, .inp, .out, .aux, .kn, .ke] → busRead C s addr 1 = .octet (s.octet b i)) ∧
    busWriteResponse C addr 1 = .written ∧
    (b ≠ .out → b ≠ .aux → (s.buf b).wf →
      (busWrite C s addr 1 v).octet b i = BitVec.ofNat 8 v ∧
      (∀ c j, (c ≠ b ∨ j ≠ i) → (busWrite C s addr 1 v).octet c j = s.octet c j) ∧
      { busWrite C s addr 1 v with bufs := s.bufs } = s) ∧
    (b = .out ∨ b = .aux → busWrite C s addr 1 v = s)

/-- R37: a host read of a secret staging buffer returns zero at every offset, in every phase, and a host write while the block is
not BUSY stores the octet. -/
def Obligations.SecretBuffersReadZero : Prop :=
  ∀ (C : Config) (s : State) (b : BufId) (i v : Nat), b ∈ [.kd, .kp, .kq, .kdp, .kdq, .kqinv] → i < C.maxBuf →
    busRead C s ((b.num + 1) * C.bufStride + i) 1 = .octet 0 ∧
    (s.phase ≠ .busy → (s.buf b).wf → (busWrite C s ((b.num + 1) * C.bufStride + i) 1 v).octet b i = BitVec.ofNat 8 v)

/-- R22, R23: a CMD write while the block is not BUSY latches the word, sets BUSY and clears ERR, OUT, AUX and their lengths, and
one while BUSY is ignored; a CMD read returns the latched word; an ACK write with bit 0 set while DONE sets IDLE and clears ERR
and leaves the results; any other ACK write does nothing; ACK reads zero. -/
def Obligations.CmdAndAckWrites : Prop :=
  ∀ (C : Config) (s : State) (w : Word),
    (s.phase ≠ .busy → ∃ t, busWrite C s 0x00 4 w.toNat = t ∧ t.cmd = w ∧ t.phase = .busy ∧ t.err = .ok ∧ Holds [] [] t ∧
      Unchanged { s with cmd := w } t ∧ t.drawn = s.drawn) ∧
    (s.phase = .busy → busWrite C s 0x00 4 w.toNat = s) ∧
    busRead C s 0x00 4 = .word s.cmd ∧
    (s.phase = .done → w.getLsbD 0 = true → busWrite C s 0x08 4 w.toNat = { s with phase := .idle, err := .ok }) ∧
    (s.phase ≠ .done ∨ w.getLsbD 0 = false → busWrite C s 0x08 4 w.toNat = s) ∧
    busRead C s 0x08 4 = .word 0

/-- R300, R24: the interrupt output is the level `PHASE = DONE and DONE_IE`, and bit 16 of STATUS is its copy; writing IEN turns it
on and off at once; every completion, of a command or of an illegal word, raises it when it is enabled; an acknowledge, an accepted command
and a reset clear it. -/
def Obligations.InterruptIsALevel : Prop :=
  ∀ (C : Config) (s : State) (v w : Word),
    (irq s = true ↔ s.phase = .done ∧ s.doneIe = true) ∧
    (statusWord s).getLsbD 16 = irq s ∧
    (s.phase = .done → irq (busWrite C s 0x0C 4 v.toNat) = v.getLsbD 0) ∧
    (∀ i, irq (runAt C i s) = s.doneIe) ∧ (∀ e, irq (raise e s) = s.doneIe) ∧
    (s.phase = .done → w.getLsbD 0 = true → irq (busWrite C s 0x08 4 w.toNat) = false) ∧
    (s.phase ≠ .busy → irq (busWrite C s 0x00 4 w.toNat) = false) ∧
    irq (hardReset s) = false

/-- R21: the fields of STATUS. -/
def Obligations.StatusFields : Prop :=
  ∀ s : State,
    (statusWord s).extractLsb' 0 2 = (match s.phase with | .idle => 0 | .busy => 1 | .done => 2) ∧
    (statusWord s).extractLsb' 2 2 = 0 ∧
    (statusWord s).extractLsb' 4 4 =
      (match s.err with | .ok => 0 | .domain => 1 | .capacity => 2 | .fail => 3 | .param => 4 | .illegal => 5) ∧
    (statusWord s).getLsbD 8 = s.pub.valid ∧ (statusWord s).getLsbD 9 = s.priv.valid ∧
    (statusWord s).getLsbD 10 = s.crt.valid ∧ (statusWord s).extractLsb' 11 5 = 0 ∧
    (statusWord s).getLsbD 16 = (decide (s.phase = .done) && s.doneIe) ∧ (statusWord s).extractLsb' 17 15 = 0

/-- R326: while the block is BUSY every host write is dropped; a read of STATUS, CMD or IEN returns the register; a read of any
other register or of any buffer returns zero; what is a bus error in other phases still is one. -/
def Obligations.BusyDropsWritesAndHidesReads : Prop :=
  ∀ (C : Config) (s : State), s.phase = .busy →
    (∀ addr n v, busWrite C s addr n v = s) ∧
    busRead C s 0x00 4 = .word s.cmd ∧ busRead C s 0x04 4 = .word (statusWord s) ∧ busRead C s 0x0C 4 = .word (ienWord s) ∧
    (statusWord s).extractLsb' 0 2 = 1 ∧ (Inv C s → (statusWord s).extractLsb' 4 4 = 0) ∧
    (∀ addr, addr ≠ 0x00 → addr ≠ 0x04 → addr ≠ 0x0C → addr % 4 = 0 → addr < C.bufStride → busRead C s addr 4 = .word 0) ∧
    (∀ (b : BufId) i, i < C.maxBuf → busRead C s ((b.num + 1) * C.bufStride + i) 1 = .octet 0) ∧
    ∀ addr n (t : State), busRead C t addr n = .busError → busRead C s addr n = .busError

/-! ## The life of a command -/

/-- R36, R101: a completion without an error puts its two strings at offset 0 of OUT and AUX with zeros past them, sets the
lengths, ERR and PHASE, and changes nothing else. -/
def Obligations.SuccessHoldsItsResults : Prop :=
  ∀ (out aux : Bytes) (s : State), out.length < 2 ^ 32 → aux.length < 2 ^ 32 →
    Holds out aux (deliver out aux s) ∧ Unchanged s (deliver out aux s) ∧ (deliver out aux s).err = .ok ∧
      (deliver out aux s).phase = .done ∧
      (deliver out aux s).operand .out = out ∧ (deliver out aux s).operand .aux = aux

/-- R296: a command that ends with an error leaves OUT and AUX all zero and their lengths zero, sets DONE, and changes no other
register, no other buffer, no slot and no finding. For every command, the key loads included. -/
def Obligations.ErrorChangesNothingElse : Prop :=
  ∀ (C : Config) (i : Instr) (s : State), (runAt C i s).err ≠ .ok →
    Holds [] [] (runAt C i s) ∧ (runAt C i s).phase = .done ∧ Unchanged s (runAt C i s)

/-- R35, R276, R133, R296: the frame of every command that writes no key slot. Whatever it ends with, no register but STATUS,
OUT_LEN and AUX_LEN, no octet of a buffer but OUT and AUX, no slot and no finding changes; only an ISO sign command leaves
anything in AUX (R96). -/
def Obligations.CommandFrame : Prop :=
  ∀ (i : Instr) (s t : State), isKeyCommand i = false → exec i s = .next t →
    Unchanged s t ∧ (isIsoSign i = false → t.len .aux = 0 ∧ ∀ j, t.octet .aux j = 0)

/-- R276, R25: the frame of the key loads. Each changes its own slot and its own bits of FINDINGS, and no other slot, no other
bit, no other register and no input or staging buffer. -/
def Obligations.KeyLoadFrame : Prop :=
  ∀ s t : State,
    (exec .keyLoadPub s = .next t → Unchanged { s with pub := t.pub, findings := t.findings } t ∧
      t.findings = { s.findings with pubModShort := t.findings.pubModShort, pubEWindow := t.findings.pubEWindow }) ∧
    (exec .keyLoadPriv s = .next t → Unchanged { s with priv := t.priv, findings := t.findings } t ∧
      t.findings = { s.findings with privModShort := t.findings.privModShort, privEWindow := t.findings.privEWindow }) ∧
    (exec .keyLoadCrt s = .next t → Unchanged { s with crt := t.crt, findings := t.findings } t ∧
      t.findings = { s.findings with crtModShort := t.findings.crtModShort })

/-- R70 (a), R326: whatever the host reads and writes while the block is BUSY, the command completes with the result it has on
the registers and buffers that were in place when it was accepted. The accesses and the engine's turn are entries of `inputs`
(log 6). -/
def Obligations.CommandSeesOperandsAtAccept : Prop :=
  ∀ (s : State) (es rest : List HostEvent) (i : Instr), s.phase = .busy → s.inputs = es ++ .engine :: rest →
    (∀ e ∈ es, (∃ a n, e = .read a n) ∨ ∃ a n v, e = .write a n v) → decode s.cmd = .ok i →
      ∃ answer, Host.Core.run Sys2Proof.core (es.length + 1) s = exec i { s with inputs := rest, resp := answer }

/-- R70 (c): once a command has ended, its results stay until the next accepted CMD write or reset: no other step of the block
changes OUT, AUX, their lengths, a slot or a finding, and ERR changes by an acknowledge alone. -/
def Obligations.ResultsStayUntilNextAccept : Prop :=
  ∀ (C : Config) (s t : State), s.phase ≠ .busy → stepAt C s = .next t → (∀ rest, s.inputs ≠ .reset :: rest) →
    (∀ v rest, s.inputs ≠ .write 0x00 4 v :: rest) →
      t.phase ≠ .busy ∧ t.len .out = s.len .out ∧ t.len .aux = s.len .aux ∧ t.pub = s.pub ∧ t.priv = s.priv ∧ t.crt = s.crt ∧
      t.findings = s.findings ∧ t.cmd = s.cmd ∧ (∀ i, t.octet .out i = s.octet .out i ∧ t.octet .aux i = s.octet .aux i) ∧
      (t.err = s.err ∨ ∃ v rest, s.inputs = .write 0x08 4 v :: rest)

/-- R308: which command can end with which code, in every state that satisfies the invariant. In particular no encrypt or sign
command ends with E_DOMAIN (but SSA_PSS_SIGN with PSS_SLACK = 0), and only a decode, check or verify command with E_FAIL. -/
def Obligations.ErrorCodesPerCommand : Prop :=
  ∀ (C : Config) (i : Instr) (s : State), Inv C s → (runAt C i s).err ∈ .ok :: .illegal :: codesOf C.pssSlack i

/-- R95, R297: the common checks come first and in their order: a word that does not decode, SS with SLD, a hash without a row or an
empty slot is E_ILLEGAL whatever else holds; then a length register or EMBITS too large is E_PARAM; nothing of the command's own
rule is done. -/
def Obligations.CommonChecksComeFirst : Prop :=
  (∀ (C : Config) (s : State) x, s.phase = .busy → s.inputs = [] → decode s.cmd = .error x → stepAt C s = .next (raise .illegal s)) ∧
  ∀ (C : Config) (i : Instr) (s : State),
    (¬ Legal C i s → runAt C i s = raise .illegal s) ∧ (Legal C i s → ¬ Sized C i s → runAt C i s = raise .param s)

/-- R96 (column "rng"), R11 (the random port, 00_scope.md section 6): a command not marked there takes nothing from the random port and its completion is the same
whatever the port would answer. -/
def Obligations.OnlyMarkedCommandsDraw : Prop :=
  ∀ (C : Config) (i : Instr) (s : State) (rng : Nat → Byte) (rngNonzero : Nat → Fin 255), mayDraw i = false →
    runAt { C with rng := rng, rngNonzero := rngNonzero } i s = runAt C i s ∧ (runAt C i s).drawn = s.drawn

/-- R35, R25, R42, R96: the results of a command depend on its operands alone: not on FINDINGS, not on octets past a length
register, not on a buffer, an argument register or a slot it does not use. -/
def Obligations.ResultsDependOnOperandsOnly : Prop :=
  ∀ (C : Config) (i : Instr) (s t : State), SameOperands i s t → SameResults (runAt C i s) (runAt C i t)

/-! ## Housekeeping and keys -/

/-- R270: NOP delivers two empty strings. R274: KEY_CLEAR leaves every piece of state at its reset value but CMD (which reads the
KEY_CLEAR word), PHASE (DONE) and IEN. The last three fields are the model's own (log 4, 6). -/
def Obligations.NopAndKeyClear : Prop :=
  ∀ s : State,
    encode .nop = 0x00000000 ∧ encode .keyClear = 0x00000004 ∧
    exec .nop s = .next (deliver [] [] s) ∧
    exec .keyClear s = .next { State.reset with cmd := s.cmd, phase := .done, doneIe := s.doneIe,
                                                drawn := s.drawn, inputs := s.inputs, resp := s.resp } ∧
    (decode s.cmd = .ok .keyClear → s.cmd = 0x00000004)

/-- R271: KEY_LOAD_PUB, in every configuration; `exec` is the case of `cfg`. `k` and `j` are the bit lengths of `n` and `e` (R7). Of
the two tests of step 3, `k > MAX_K` is a clause; `⌈k/8⌉ > MAX_BUF` cannot hold of a KN that passed the common checks, which the
bound on `n` says. -/
def Obligations.KeyLoadPubInstallsTheKey : Prop :=
  encode .keyLoadPub = 0x00000001 ∧
  (∀ s : State, ChecksFirst .keyLoadPub s ∧ exec .keyLoadPub s = .next (runAt cfg .keyLoadPub s)) ∧
  ∀ (C : Config) (s : State), Ready C .keyLoadPub s →
    let n := s.intOperand .kn
    let e := s.intOperand .ke
    n < 2 ^ (8 * C.maxBuf) ∧
    (∀ k j, 1 ≤ k → 2 ^ (k - 1) ≤ n → n < 2 ^ k → 1 ≤ j → 2 ^ (j - 1) ≤ e → e < 2 ^ j → (∀ m, C.maxK = some m → k ≤ m) →
      runAt C .keyLoadPub s = deliver [] []
        { s with pub := ⟨true, n, e, k, (k + 7) / 8⟩
                 findings := { s.findings with pubModShort := decide (k < C.modBitsInf)
                                               pubEWindow := decide (j < C.eBitsInf ∨ C.eBitsSup < j) } }) ∧
    (n = 0 ∨ e = 0 ∨ (∃ m, C.maxK = some m ∧ 2 ^ m ≤ n) → runAt C .keyLoadPub s = raise .param s)

/-- R272: KEY_LOAD_PRIV, in every configuration; step 3 as for KEY_LOAD_PUB. -/
def Obligations.KeyLoadPrivInstallsTheKey : Prop :=
  encode .keyLoadPriv = 0x00000002 ∧
  (∀ s : State, ChecksFirst .keyLoadPriv s ∧ exec .keyLoadPriv s = .next (runAt cfg .keyLoadPriv s)) ∧
  ∀ (C : Config) (s : State), Ready C .keyLoadPriv s →
    let n := s.intOperand .kn
    let e := s.intOperand .ke
    n < 2 ^ (8 * C.maxBuf) ∧
    (∀ k j, 1 ≤ k → 2 ^ (k - 1) ≤ n → n < 2 ^ k → 1 ≤ j → 2 ^ (j - 1) ≤ e → e < 2 ^ j → (∀ m, C.maxK = some m → k ≤ m) →
      runAt C .keyLoadPriv s = deliver [] []
        { s with priv := ⟨true, n, e, s.intOperand .kd, k, (k + 7) / 8⟩
                 findings := { s.findings with privModShort := decide (k < C.modBitsInf)
                                               privEWindow := decide (j < C.eBitsInf ∨ C.eBitsSup < j) } }) ∧
    (n = 0 ∨ e = 0 ∨ (∃ m, C.maxK = some m ∧ 2 ^ m ≤ n) → runAt C .keyLoadPriv s = raise .param s)

/-- R273: KEY_LOAD_CRT, in every configuration. `k` is the bit length of `n = p·q`, which can fail both tests of step 3. -/
def Obligations.KeyLoadCrtInstallsTheKey : Prop :=
  encode .keyLoadCrt = 0x00000003 ∧
  (∀ s : State, ChecksFirst .keyLoadCrt s ∧ exec .keyLoadCrt s = .next (runAt cfg .keyLoadCrt s)) ∧
  ∀ (C : Config) (s : State), Ready C .keyLoadCrt s →
    let p := s.intOperand .kp
    let q := s.intOperand .kq
    (∀ k, 1 ≤ k → 2 ^ (k - 1) ≤ p * q → p * q < 2 ^ k → (∀ m, C.maxK = some m → k ≤ m) → (k + 7) / 8 ≤ C.maxBuf →
      runAt C .keyLoadCrt s = deliver [] []
        { s with crt := ⟨true, p, q, s.intOperand .kdp, s.intOperand .kdq, s.intOperand .kqinv, p * q, k, (k + 7) / 8⟩
                 findings := { s.findings with crtModShort := decide (k < C.modBitsInf) } }) ∧
    (p = 0 ∨ q = 0 ∨ (∃ m, C.maxK = some m ∧ 2 ^ m ≤ p * q) ∨ 2 ^ (8 * C.maxBuf) ≤ p * q → runAt C .keyLoadCrt s = raise .param s)

/-! ## Primitives -/

/-- R120: the exponentiation unit computes `b^x mod n`. -/
def Obligations.ModExpIsThePower : Prop := ∀ b x n : Nat, 1 ≤ n → b < n → modExp b x n = b ^ x % n

/-- R125, R128: RSAEP and RSAVP1 deliver the `klen` octets of `m^e mod n`, or end with E_DOMAIN when `m ≥ n`. -/
def Obligations.PublicPrimitives : Prop :=
  encode .rsaep = 0x00000010 ∧ encode .rsavp1 = 0x00000013 ∧
  ∀ (i : Instr) (s : State), i = .rsaep ∨ i = .rsavp1 → ChecksFirst i s ∧ (Ready cfg i s →
    let m := s.intOperand .inp
    (m < s.pub.n → exec i s = .next (deliver (i2os (m ^ s.pub.e % s.pub.n) s.pub.klen) [] s)) ∧
    (s.pub.n ≤ m → exec i s = .next (raise .domain s)))

/-- R126, R127 with R122 and R123: RSADP and RSASP1 deliver the `klen` octets of `PrivExp(c)` of the selected slot: `c^d mod n`,
or Garner's recombination of the two half-size powers; or end with E_DOMAIN when `c ≥ n`. -/
def Obligations.PrivatePrimitives : Prop :=
  (∀ crt, encode (.rsadp crt) = if crt then 0x00004011 else 0x00000011) ∧
  (∀ crt, encode (.rsasp1 crt) = if crt then 0x00004012 else 0x00000012) ∧
  ∀ (i : Instr) (s : State) (crt : Bool), i = .rsadp crt ∨ i = .rsasp1 crt → ChecksFirst i s ∧ (Ready cfg i s →
    let c := s.intOperand .inp
    let n := if crt then s.crt.n else s.priv.n
    let klen := if crt then s.crt.klen else s.priv.klen
    let m1 := (c % s.crt.p) ^ s.crt.dP % s.crt.p
    let m2 := (c % s.crt.q) ^ s.crt.dQ % s.crt.q
    let h := (s.crt.qInv : Int) * ((m1 : Int) - (m2 : Int)) % (s.crt.p : Int)
    let m := if crt then m2 + s.crt.q * h.toNat else c ^ s.priv.d % s.priv.n
    (c < n → exec i s = .next (deliver (i2os m klen) [] s)) ∧ (n ≤ c → exec i s = .next (raise .domain s)))

/-- R130, R129: MINSEL delivers the smaller of `S` and `n − S`, which is at most its own complement. -/
def Obligations.MinselDeliversTheSmaller : Prop :=
  encode .minsel = 0x00000014 ∧
  ∀ s : State, ChecksFirst .minsel s ∧ (Ready cfg .minsel s →
    let S := s.intOperand .inp
    (S < s.pub.n → ∃ m, exec .minsel s = .next (deliver (i2os m s.pub.klen) [] s) ∧ (m = S ∨ m = s.pub.n - S) ∧
      m ≤ S ∧ m ≤ s.pub.n - S ∧ m ≤ s.pub.n - m ∧ (2 * S ≠ s.pub.n → m < s.pub.n - m)) ∧
    (s.pub.n ≤ S → exec .minsel s = .next (raise .domain s)))

/-- R124, for `d`, `dP`, `dQ` not 0 (as printed R124 admits 0 and then fails: log 19): with a plain and a CRT form of one key
loaded, every private-side command completes alike on both. -/
def Obligations.CrtAgreesWithPlain : Prop :=
  ∀ (C : Config) (s : State), Inv C s → s.priv.valid = true → s.crt.valid = true → s.crt.p.Prime → s.crt.q.Prime →
    s.crt.p ≠ s.crt.q → s.priv.n = s.crt.p * s.crt.q → 1 ≤ s.priv.d → 1 ≤ s.crt.dP → 1 ≤ s.crt.dQ →
    s.crt.dP % (s.crt.p - 1) = s.priv.d % (s.crt.p - 1) → s.crt.dQ % (s.crt.q - 1) = s.priv.d % (s.crt.q - 1) →
    s.crt.qInv * s.crt.q % s.crt.p = 1 →
      (∀ c, c < s.priv.n → privPower s true c = privPower s false c) ∧
      runAt C (.rsadp true) s = runAt C (.rsadp false) s ∧ runAt C (.rsasp1 true) s = runAt C (.rsasp1 false) s ∧
      runAt C (.esV15Decrypt true) s = runAt C (.esV15Decrypt false) s ∧
      ∀ h it um ss sld, runAt C (.esOaepDecrypt h true) s = runAt C (.esOaepDecrypt h false) s ∧
        runAt C (.ssaV15Sign h true) s = runAt C (.ssaV15Sign h false) s ∧
        runAt C (.ssaPssSign h true ss sld) s = runAt C (.ssaPssSign h false ss sld) s ∧
        runAt C (.ds1Sign h it um true) s = runAt C (.ds1Sign h it um false) s ∧
        runAt C (.ds2Sign h it um true ss sld) s = runAt C (.ds2Sign h it um false ss sld) s ∧
        runAt C (.ds3Sign h it um true) s = runAt C (.ds3Sign h it um false) s

/-! ## PKCS#1 v1.5 encryption -/

/-- R152, R155 with R150 and R151: EME_V15_ENCODE delivers `0x00 0x02 PS 0x00 M` of `EMBITS/8` octets, ES_V15_ENCRYPT the `klen`
octets of its power, for some string PS without a zero octet that the random port chose; the length conditions. Choices of the
model (log 5): PS is drawn in one piece, one octet of the count `drawn` for each of its octets, and the commands complete without
the premise R151 names, that the port yields enough non-zero octets. -/
def Obligations.EmeV15EncodeAndEncrypt : Prop :=
  encode .emeV15Encode = 0x00000021 ∧ encode .esV15Encrypt = 0x00000030 ∧
  (∀ s : State, ChecksFirst .emeV15Encode s ∧ (Ready cfg .emeV15Encode s →
    let bits := s.embits.toNat
    let M := s.operand .msg
    (bits % 8 = 0 → M.length + 11 ≤ bits / 8 →
      ∃ PS : Bytes, PS.length = bits / 8 - M.length - 3 ∧ (∀ b ∈ PS, b ≠ 0x00) ∧
        exec .emeV15Encode s = .next (deliver ([0x00, 0x02] ++ PS ++ [0x00] ++ M) [] (s.draws PS.length))) ∧
    (bits % 8 ≠ 0 → exec .emeV15Encode s = .next (raise .param s)) ∧
    (bits % 8 = 0 → bits / 8 < M.length + 11 → exec .emeV15Encode s = .next (raise .capacity s)))) ∧
  ∀ s : State, ChecksFirst .esV15Encrypt s ∧ (Inv cfg s → Ready cfg .esV15Encrypt s →
    let M := s.operand .msg
    (M.length + 11 ≤ s.pub.klen →
      ∃ PS : Bytes, PS.length = s.pub.klen - M.length - 3 ∧ (∀ b ∈ PS, b ≠ 0x00) ∧
        exec .esV15Encrypt s = .next (deliver
          (i2os (os2ip ([0x00, 0x02] ++ PS ++ [0x00] ++ M) ^ s.pub.e % s.pub.n) s.pub.klen) [] (s.draws PS.length))) ∧
    (s.pub.klen < M.length + 11 → exec .esV15Encrypt s = .next (raise .capacity s)))

/-- R154, R156 with R153: EME_V15_DECODE delivers `M` exactly when IN holds `0x00 0x02 PS 0x00 M` with at least 8 octets of PS, none
zero, and otherwise ends with E_FAIL; ES_V15_DECRYPT does so with the `klen` octets of `PrivExp(c)`, after the domain check. -/
def Obligations.EmeV15DecodeAndDecrypt : Prop :=
  encode .emeV15Decode = 0x00000022 ∧ (∀ crt, encode (.esV15Decrypt crt) = if crt then 0x00004031 else 0x00000031) ∧
  (∀ s : State, ChecksFirst .emeV15Decode s ∧ (Ready cfg .emeV15Decode s →
    (∀ M, EmeForm (s.operand .inp) M → exec .emeV15Decode s = .next (deliver M [] s)) ∧
    ((∀ M, ¬ EmeForm (s.operand .inp) M) → exec .emeV15Decode s = .next (raise .fail s)))) ∧
  ∀ (s : State) (crt : Bool), ChecksFirst (.esV15Decrypt crt) s ∧ (Ready cfg (.esV15Decrypt crt) s →
    let n := (s.privMod crt).n
    let c := s.intOperand .inp
    let EM := i2os (privPower s crt c) (s.privMod crt).klen
    (n ≤ c → exec (.esV15Decrypt crt) s = .next (raise .domain s)) ∧
    (∀ M, c < n → EmeForm EM M → exec (.esV15Decrypt crt) s = .next (deliver M [] s)) ∧
    (c < n → (∀ M, ¬ EmeForm EM M) → exec (.esV15Decrypt crt) s = .next (raise .fail s)))

/-- R157: with a consistent key, decrypting what ES_V15_ENCRYPT delivered gives the message, for every message that fits and every
answer of the random port. -/
def Obligations.EsV15DecryptInvertsEncrypt : Prop :=
  ∀ (C : Config) (s u : State) (crt : Bool), C.maxBuf < 2 ^ 32 → Inv C s → KeyPair s crt → Ready C .esV15Encrypt s →
    (s.operand .msg).length + 11 ≤ s.pub.klen → u.priv = s.priv → u.crt = s.crt → Ready C (.esV15Decrypt crt) u →
    u.operand .inp = (runAt C .esV15Encrypt s).operand .out →
      (runAt C .esV15Encrypt s).err = .ok ∧ runAt C (.esV15Decrypt crt) u = deliver (s.operand .msg) [] u

/-! ## MGF1 and OAEP -/

/-- R166, R165: octet `i` of the mask is octet `i mod hLen` of the digest of the seed and the 4-octet big-endian counter
`⌊i/hLen⌋`. -/
def Obligations.Mgf1DeliversTheMask : Prop :=
  (∀ h, encode (.mgf1 h) = 0x00000020 + (h.setWidth 32 <<< 8)) ∧
  ∀ (s : State) (h : Sel), ChecksFirst (.mgf1 h) s ∧ (Ready cfg (.mgf1 h) s →
    let bits := s.embits.toNat
    (bits % 8 ≠ 0 → exec (.mgf1 h) s = .next (raise .param s)) ∧
    (bits % 8 = 0 → ∃ mask : Bytes, mask.length = bits / 8 ∧ exec (.mgf1 h) s = .next (deliver mask [] s) ∧
      ∀ i, i < bits / 8 →
        mask.getD i 0 = (cfg.hash h (s.operand .inp ++ i2os (i / hLen cfg h) 4)).getD (i % hLen cfg h) 0))

/-- R171, R174 with R169 and R170: OAEP_ENCODE delivers the encoded message under some seed that the random port chose,
ES_OAEP_ENCRYPT the `klen` octets of its power; the capacity conditions R168. The count `drawn` is the model's own (log 4). -/
def Obligations.OaepEncodeAndEncrypt : Prop :=
  (∀ h, encode (.oaepEncode h) = 0x00000023 + (h.setWidth 32 <<< 8)) ∧
  (∀ h, encode (.esOaepEncrypt h) = 0x00000032 + (h.setWidth 32 <<< 8)) ∧
  ∀ (s : State) (h : Sel),
    let hl := hLen cfg h
    let M := s.operand .msg
    let EM := fun (klen : Nat) (seed : Bytes) =>
      let DB := cfg.hash h (s.operand .label) ++ List.replicate (klen - M.length - 2 * hl - 2) 0x00 ++ [0x01] ++ M
      let maskedDB := xorBytes DB (mgf1 cfg h seed (klen - hl - 1))
      let maskedSeed := xorBytes seed (mgf1 cfg h maskedDB hl)
      [0x00] ++ maskedSeed ++ maskedDB
    ChecksFirst (.oaepEncode h) s ∧ ChecksFirst (.esOaepEncrypt h) s ∧
    (Ready cfg (.oaepEncode h) s →
      let bits := s.embits.toNat
      (bits % 8 ≠ 0 → exec (.oaepEncode h) s = .next (raise .param s)) ∧
      (bits % 8 = 0 → bits / 8 < M.length + 2 * hl + 2 → exec (.oaepEncode h) s = .next (raise .capacity s)) ∧
      (bits % 8 = 0 → M.length + 2 * hl + 2 ≤ bits / 8 → ∃ seed : Bytes, seed.length = hl ∧
        (EM (bits / 8) seed).length = bits / 8 ∧
        exec (.oaepEncode h) s = .next (deliver (EM (bits / 8) seed) [] (s.draws hl)))) ∧
    (Inv cfg s → Ready cfg (.esOaepEncrypt h) s →
      (s.pub.klen < M.length + 2 * hl + 2 → exec (.esOaepEncrypt h) s = .next (raise .capacity s)) ∧
      (M.length + 2 * hl + 2 ≤ s.pub.klen → ∃ seed : Bytes, seed.length = hl ∧
        exec (.esOaepEncrypt h) s = .next (deliver
          (i2os (os2ip (EM s.pub.klen seed) ^ s.pub.e % s.pub.n) s.pub.klen) [] (s.draws hl))))

/-- R173, R175 with R172: OAEP_DECODE delivers `M` exactly when IN holds the encoding (R169) of `M` under the label and some seed,
and otherwise ends with the one code E_FAIL; ES_OAEP_DECRYPT does so with the `klen` octets of `PrivExp(c)`. -/
def Obligations.OaepDecodeAndDecrypt : Prop :=
  (∀ h, encode (.oaepDecode h) = 0x00000024 + (h.setWidth 32 <<< 8)) ∧
  (∀ h crt, encode (.esOaepDecrypt h crt) = 0x00000033 + (h.setWidth 32 <<< 8) + if crt then 0x4000 else 0) ∧
  ∀ (s : State) (h : Sel) (crt : Bool),
    let hl := hLen cfg h
    let IsEncoding := fun (EM M : Bytes) => ∃ seed : Bytes, seed.length = hl ∧ M.length + 2 * hl + 2 ≤ EM.length ∧
      EM = oaepEncode cfg h M (s.operand .label) EM.length seed
    ChecksFirst (.oaepDecode h) s ∧ ChecksFirst (.esOaepDecrypt h crt) s ∧
    (Ready cfg (.oaepDecode h) s →
      let EM := s.operand .inp
      (EM.length < 2 * hl + 2 → exec (.oaepDecode h) s = .next (raise .capacity s)) ∧
      (∀ M, 2 * hl + 2 ≤ EM.length → IsEncoding EM M → exec (.oaepDecode h) s = .next (deliver M [] s)) ∧
      (2 * hl + 2 ≤ EM.length → (∀ M, ¬ IsEncoding EM M) → exec (.oaepDecode h) s = .next (raise .fail s))) ∧
    (Ready cfg (.esOaepDecrypt h crt) s →
      let K := s.privMod crt
      let c := s.intOperand .inp
      let EM := i2os (privPower s crt c) K.klen
      (K.klen < 2 * hl + 2 → exec (.esOaepDecrypt h crt) s = .next (raise .capacity s)) ∧
      (2 * hl + 2 ≤ K.klen → K.n ≤ c → exec (.esOaepDecrypt h crt) s = .next (raise .domain s)) ∧
      (∀ M, 2 * hl + 2 ≤ K.klen → c < K.n → IsEncoding EM M → exec (.esOaepDecrypt h crt) s = .next (deliver M [] s)) ∧
      (2 * hl + 2 ≤ K.klen → c < K.n → (∀ M, ¬ IsEncoding EM M) →
        exec (.esOaepDecrypt h crt) s = .next (raise .fail s)))

/-- R176: with a consistent key, decrypting under the same label what ES_OAEP_ENCRYPT delivered gives the message, for every
message that fits, every configured hash and every seed. -/
def Obligations.EsOaepDecryptInvertsEncrypt : Prop :=
  ∀ (C : Config) (s u : State) (h : Sel) (crt : Bool), C.maxBuf < 2 ^ 32 → Inv C s → KeyPair s crt →
    Ready C (.esOaepEncrypt h) s → (s.operand .msg).length + 2 * hLen C h + 2 ≤ s.pub.klen → u.priv = s.priv → u.crt = s.crt →
    Ready C (.esOaepDecrypt h crt) u → u.operand .label = s.operand .label →
    u.operand .inp = (runAt C (.esOaepEncrypt h) s).operand .out →
      (runAt C (.esOaepEncrypt h) s).err = .ok ∧ runAt C (.esOaepDecrypt h crt) u = deliver (s.operand .msg) [] u

/-! ## PKCS#1 v1.5 signatures -/

/-- R186, R187, R188 with R185: the encoded message `0x00 0x01 0xFF.. 0x00 T`; SSA_V15_SIGN delivers the `klen` octets of its
`PrivExp`; SSA_V15_VERIFY ends with E_OK exactly when the signature's power is that encoded message, and else with E_FAIL. -/
def Obligations.EmsaV15EncodeSignVerify : Prop :=
  (∀ h, encode (.emsaV15Encode h) = 0x00000025 + (h.setWidth 32 <<< 8)) ∧
  (∀ h crt, encode (.ssaV15Sign h crt) = 0x00000034 + (h.setWidth 32 <<< 8) + if crt then 0x4000 else 0) ∧
  (∀ h, encode (.ssaV15Verify h) = 0x00000035 + (h.setWidth 32 <<< 8)) ∧
  ∀ (s : State) (h : Sel) (crt : Bool),
    let tl := cfg.tLen h
    let EM := fun (emLen : Nat) =>
      [0x00, 0x01] ++ List.replicate (emLen - tl - 3) 0xFF ++ [0x00] ++ cfg.digestInfo h (cfg.hash h (s.operand .msg))
    ChecksFirst (.emsaV15Encode h) s ∧ ChecksFirst (.ssaV15Sign h crt) s ∧ ChecksFirst (.ssaV15Verify h) s ∧
    (Ready cfg (.emsaV15Encode h) s →
      let bits := s.embits.toNat
      (bits % 8 ≠ 0 → exec (.emsaV15Encode h) s = .next (raise .param s)) ∧
      (bits % 8 = 0 → bits / 8 < tl + 11 → exec (.emsaV15Encode h) s = .next (raise .capacity s)) ∧
      (bits % 8 = 0 → tl + 11 ≤ bits / 8 → (EM (bits / 8)).length = bits / 8 ∧
        exec (.emsaV15Encode h) s = .next (deliver (EM (bits / 8)) [] s))) ∧
    (Inv cfg s → Ready cfg (.ssaV15Sign h crt) s →
      let K := s.privMod crt
      (K.klen < tl + 11 → exec (.ssaV15Sign h crt) s = .next (raise .capacity s)) ∧
      (tl + 11 ≤ K.klen →
        exec (.ssaV15Sign h crt) s = .next (deliver (i2os (privPower s crt (os2ip (EM K.klen))) K.klen) [] s))) ∧
    (Inv cfg s → Ready cfg (.ssaV15Verify h) s →
      let klen := s.pub.klen
      let sig := s.intOperand .inp
      (klen < tl + 11 → exec (.ssaV15Verify h) s = .next (raise .capacity s)) ∧
      (tl + 11 ≤ klen → s.pub.n ≤ sig → exec (.ssaV15Verify h) s = .next (raise .domain s)) ∧
      (tl + 11 ≤ klen → sig < s.pub.n → pubPower s sig = os2ip (EM klen) →
        exec (.ssaV15Verify h) s = .next (deliver [] [] s)) ∧
      (tl + 11 ≤ klen → sig < s.pub.n → pubPower s sig ≠ os2ip (EM klen) →
        exec (.ssaV15Verify h) s = .next (raise .fail s)))

/-! ## PSS -/

/-- R204, R207 with R201, R202 and R203: PSS_ENCODE delivers the encoded message for the supplied salt, or for some salt that the
random port chose; SSA_PSS_SIGN the `klen` octets of its `PrivExp`; the capacity condition. That `emBits` is `k − 1`, and that
therefore the domain check of R207 step 7 never fails, is this machine's PSS_SLACK = 1 (log 16); the count `drawn` is the model's
own (log 4). -/
def Obligations.PssEncodeAndSign : Prop :=
  (∀ h ss sld, encode (.pssEncode h ss sld) =
    0x00000026 + (h.setWidth 32 <<< 8) + (if ss then 0x8000 else 0) + if sld then 0x10000 else 0) ∧
  (∀ h crt ss sld, encode (.ssaPssSign h crt ss sld) =
    0x00000036 + (h.setWidth 32 <<< 8) + (if crt then 0x4000 else 0) + (if ss then 0x8000 else 0) + if sld then 0x10000 else 0) ∧
  ∀ (s : State) (h : Sel) (crt ss sld : Bool),
    let hl := hLen cfg h
    let M := s.operand .msg
    let sLen := if sld then hl else (s.len .salt).toNat
    let SaltOk := fun (salt : Bytes) => salt.length = sLen ∧ (ss = true → salt = s.operand .salt)
    let EM := fun (emBits : Nat) (salt : Bytes) =>
      let emLen := (emBits + 7) / 8
      let H := cfg.hash h (List.replicate 8 0x00 ++ cfg.hash h M ++ salt)
      let DB := List.replicate (emLen - sLen - hl - 2) 0x00 ++ [0x01] ++ salt
      clearTop (8 * emLen - emBits) (xorBytes DB (mgf1 cfg h H (emLen - hl - 1))) ++ H ++ [0xBC]
    let used := if ss then 0 else sLen
    ChecksFirst (.pssEncode h ss sld) s ∧ ChecksFirst (.ssaPssSign h crt ss sld) s ∧
    (Ready cfg (.pssEncode h ss sld) s →
      let emBits := s.embits.toNat
      ((emBits + 7) / 8 < hl + sLen + 2 → exec (.pssEncode h ss sld) s = .next (raise .capacity s)) ∧
      (hl + sLen + 2 ≤ (emBits + 7) / 8 → ∃ salt, SaltOk salt ∧ (EM emBits salt).length = (emBits + 7) / 8 ∧
        os2ip (EM emBits salt) < 2 ^ emBits ∧
        exec (.pssEncode h ss sld) s = .next (deliver (EM emBits salt) [] (s.draws used)))) ∧
    (Inv cfg s → Ready cfg (.ssaPssSign h crt ss sld) s →
      let K := s.privMod crt
      let emBits := K.k - 1
      ((emBits + 7) / 8 < hl + sLen + 2 → exec (.ssaPssSign h crt ss sld) s = .next (raise .capacity s)) ∧
      (hl + sLen + 2 ≤ (emBits + 7) / 8 → ∃ salt, SaltOk salt ∧
        exec (.ssaPssSign h crt ss sld) s = .next (deliver
          (i2os (privPower s crt (os2ip (EM emBits salt))) K.klen) [] (s.draws used))))

/-- R206, R208 with R205: PSS_CHECK ends with E_OK exactly when IN holds the encoding (R202) of the message under some salt of the
stated length, and else with E_FAIL (or with E_PARAM when IN_LEN is not emLen); SSA_PSS_VERIFY does so with the `emLen` octets of
the signature's power, where `emBits` is `k − 1` by this machine's PSS_SLACK = 1 (log 16). -/
def Obligations.PssCheckAndVerify : Prop :=
  (∀ h sld, encode (.pssCheck h sld) = 0x00000027 + (h.setWidth 32 <<< 8) + if sld then 0x10000 else 0) ∧
  (∀ h sld, encode (.ssaPssVerify h sld) = 0x00000037 + (h.setWidth 32 <<< 8) + if sld then 0x10000 else 0) ∧
  ∀ (s : State) (h : Sel) (sld : Bool),
    let hl := hLen cfg h
    let sLen := if sld then hl else (s.len .salt).toNat
    let IsEncoding := fun (emBits x : Nat) => hl + sLen + 2 ≤ (emBits + 7) / 8 ∧
      ∃ salt : Bytes, salt.length = sLen ∧ x = os2ip (pssEncode cfg h (s.operand .msg) emBits salt)
    ChecksFirst (.pssCheck h sld) s ∧ ChecksFirst (.ssaPssVerify h sld) s ∧
    (Ready cfg (.pssCheck h sld) s →
      let emBits := s.embits.toNat
      let sized := (s.len .inp).toNat = (emBits + 7) / 8
      (¬ sized → exec (.pssCheck h sld) s = .next (raise .param s)) ∧
      (sized → IsEncoding emBits (s.intOperand .inp) → exec (.pssCheck h sld) s = .next (deliver [] [] s)) ∧
      (sized → ¬ IsEncoding emBits (s.intOperand .inp) → exec (.pssCheck h sld) s = .next (raise .fail s))) ∧
    (Ready cfg (.ssaPssVerify h sld) s →
      let sig := s.intOperand .inp
      (s.pub.n ≤ sig → exec (.ssaPssVerify h sld) s = .next (raise .domain s)) ∧
      (sig < s.pub.n → IsEncoding (s.pub.k - 1) (pubPower s sig) →
        exec (.ssaPssVerify h sld) s = .next (deliver [] [] s)) ∧
      (sig < s.pub.n → ¬ IsEncoding (s.pub.k - 1) (pubPower s sig) →
        exec (.ssaPssVerify h sld) s = .next (raise .fail s)))

/-- R189, R209: with a consistent key, verifying a signature that SSA_V15_SIGN or SSA_PSS_SIGN delivered, on the same message and
hash (and salt length), ends with E_OK. -/
def Obligations.Pkcs1VerifyAcceptsSignatures : Prop :=
  ∀ (C : Config) (s u : State) (h : Sel) (crt ss sld sld' : Bool), C.maxBuf < 2 ^ 32 → Inv C s → KeyPair s crt → u.pub = s.pub →
    u.operand .msg = s.operand .msg →
    (Ready C (.ssaV15Sign h crt) s → (runAt C (.ssaV15Sign h crt) s).err = .ok → Ready C (.ssaV15Verify h) u →
      u.operand .inp = (runAt C (.ssaV15Sign h crt) s).operand .out → runAt C (.ssaV15Verify h) u = deliver [] [] u) ∧
    (Ready C (.ssaPssSign h crt ss sld) s → (runAt C (.ssaPssSign h crt ss sld) s).err = .ok →
      Ready C (.ssaPssVerify h sld') u → saltLen C h sld' u = saltLen C h sld s →
      u.operand .inp = (runAt C (.ssaPssSign h crt ss sld) s).operand .out →
        runAt C (.ssaPssVerify h sld') u = deliver [] [] u)

/-! ## ISO/IEC 9796-2 -/

/-- R224: the pad region of ds1, at every length that is a whole number of octets and at the lengths the rule lists. -/
def Obligations.Ds1PadRegion : Prop :=
  (∀ m, ds1PadStd 4 m = [false, true, m, true] ∧ ds1PadStd 5 m = [false, true, m, false, true] ∧
    ds1PadStd 6 m = [false, true, m, false, false, true] ∧
    ds1PadStd 7 m = [false, true, m, true, false, true, false] ∧
    ds1PadStd 12 m = [false, true, m, false, true, false, true, true, true, false, true, false]) ∧
  ∀ (j : Nat) (m : Bool),
    bitsToBytes (ds1PadStd 8 m) = [if m then 0x6A else 0x4A] ∧
    bitsToBytes (ds1PadStd (8 * (j + 2)) m) = (if m then 0x6B else 0x4B) :: List.replicate j 0xBB ++ [0xBA]

/-- R223: a sign command with IT = 0 under a hash that has no ISO/IEC 9796-2 identifier ends with E_PARAM. -/
def Obligations.ExplicitTrailerNeedsIdentifier : Prop :=
  ∀ (C : Config) (s : State) (h : Sel) (um crt ss sld : Bool), hashID C h = none →
    (Ready C (.ds1Sign h false um crt) s → runAt C (.ds1Sign h false um crt) s = raise .param s) ∧
    (Ready C (.ds2Sign h false um crt ss sld) s → runAt C (.ds2Sign h false um crt ss sld) s = raise .param s) ∧
    (Ready C (.ds3Sign h false um crt) s → runAt C (.ds3Sign h false um crt) s = raise .param s)

/-- R228 with R221, R222, R225: DS1_SIGN delivers the signature of the DSI `pad || M1 || Hash(M) || T` and the rest `M2` of the
message, `M1` being as long as the capacity allows; or ends with E_CAPACITY. The pad region is `ds1PadStd` (R224), this machine's
choice of DS1_PAD (log 16). -/
def Obligations.Ds1SignDeliversSignatureAndTail : Prop :=
  (∀ h it um crt, encode (.ds1Sign h it um crt) =
    0x00000040 + (h.setWidth 32 <<< 8) + (if it then 0x1000 else 0) + (if um then 0x2000 else 0) + if crt then 0x4000 else 0) ∧
  ∀ (s : State) (h : Sel) (it um crt : Bool), ChecksFirst (.ds1Sign h it um crt) s ∧
    (Inv cfg s → Ready cfg (.ds1Sign h it um crt) s → ∀ T, TrailerIs cfg h it T →
      let K := s.privMod crt
      let fixed := 8 * hLen cfg h + 8 * T.length + 4
      (K.k < fixed → exec (.ds1Sign h it um crt) s = .next (raise .capacity s)) ∧
      (fixed ≤ K.k → ∀ M1 M2, s.operand .msg = M1 ++ M2 → M1.length = min (s.operand .msg).length ((K.k - fixed) / 8) →
        let body := M1 ++ cfg.hash h (M1 ++ M2) ++ T
        let pad := ds1PadStd (K.k - 8 * body.length) (decide (M2 ≠ []))
        let dsi := bitsVal pad * 2 ^ (8 * body.length) + os2ip body
        dsi < K.n ∧ dsi % 16 = 12 ∧
        exec (.ds1Sign h it um crt) s =
          .next (deliver (i2os (canonicalS um (privPower s crt dsi) K.n) K.klen) M2 s)))

/-- R229 with R226 and R227: DS1_VERIFY delivers `M1` exactly when the signature opens to the DSI that a signer would build for
`M1 || M2` under one of the two trailers with that split, and else ends with E_FAIL. The DSI has this machine's DS1_PAD (log 16). -/
def Obligations.Ds1VerifyAcceptsExactlyDsis : Prop :=
  (∀ h, encode (.ds1Verify h) = 0x00000041 + (h.setWidth 32 <<< 8)) ∧
  ∀ (s : State) (h : Sel), ChecksFirst (.ds1Verify h) s ∧ (Inv cfg s → Ready cfg (.ds1Verify h) s →
    let sig := s.intOperand .inp
    let M2 := s.operand .msg
    let IsDsi := fun (J : Nat) (M1 : Bytes) => ∃ it T, TrailerIs cfg h it T ∧ 8 * hLen cfg h + 8 * T.length + 4 ≤ s.pub.k ∧
      ds1Dsi cfg h (M1 ++ M2) s.pub.k T = (J, M1, M2)
    (s.pub.k < 8 * hLen cfg h + 12 → exec (.ds1Verify h) s = .next (raise .capacity s)) ∧
    (8 * hLen cfg h + 12 ≤ s.pub.k → s.pub.n ≤ sig → exec (.ds1Verify h) s = .next (raise .domain s)) ∧
    (∀ J M1, 8 * hLen cfg h + 12 ≤ s.pub.k → sig < s.pub.n → Opens s sig J → IsDsi J M1 →
      exec (.ds1Verify h) s = .next (deliver M1 [] s)) ∧
    (8 * hLen cfg h + 12 ≤ s.pub.k → sig < s.pub.n → (∀ J M1, Opens s sig J → ¬ IsDsi J M1) →
      exec (.ds1Verify h) s = .next (raise .fail s)))

/-- R230: with a consistent key, DS1_VERIFY of what DS1_SIGN delivered, with either choice of UM and of the trailer, gives an `M1`
that with `M2` is the message; `M2` is empty exactly when the message fits the capacity. -/
def Obligations.Ds1VerifyRecoversMessage : Prop :=
  ∀ (C : Config) (s u : State) (h : Sel) (it um crt : Bool), C.maxBuf < 2 ^ 32 → Inv C s → KeyPair s crt →
    Ready C (.ds1Sign h it um crt) s → (runAt C (.ds1Sign h it um crt) s).err = .ok → u.pub = s.pub → Ready C (.ds1Verify h) u →
    u.operand .inp = (runAt C (.ds1Sign h it um crt) s).operand .out →
    u.operand .msg = (runAt C (.ds1Sign h it um crt) s).operand .aux →
      ∃ M1, runAt C (.ds1Verify h) u = deliver M1 [] u ∧ M1 ++ u.operand .msg = s.operand .msg ∧
        (u.operand .msg = [] ↔
          8 * (s.operand .msg).length + 8 * hLen C h + 8 * (if it then 1 else 2) + 4 ≤ (s.privMod crt).k)

/-- R246, R257 with R241, R243, R244 and R256: DS2_SIGN and DS3_SIGN deliver the signature of the encoded message and the rest `M2`
of the message; the order of the checks of DS3_SIGN. The count `drawn` is the model's own (log 4). -/
def Obligations.Ds2AndDs3SignDeliverSignatureAndTail : Prop :=
  (∀ h it um crt ss sld, encode (.ds2Sign h it um crt ss sld) =
    0x00000042 + (h.setWidth 32 <<< 8) + (if it then 0x1000 else 0) + (if um then 0x2000 else 0) + (if crt then 0x4000 else 0) +
      (if ss then 0x8000 else 0) + if sld then 0x10000 else 0) ∧
  (∀ h it um crt, encode (.ds3Sign h it um crt) =
    0x00000044 + (h.setWidth 32 <<< 8) + (if it then 0x1000 else 0) + (if um then 0x2000 else 0) + if crt then 0x4000 else 0) ∧
  ∀ (s : State) (h : Sel) (it um crt ss sld : Bool) (T : Bytes), TrailerIs cfg h it T →
    let K := s.privMod crt
    let hl := hLen cfg h
    let M := s.operand .msg
    let fixed := 8 * hl + 8 * T.length + 2
    let cOct := (K.k - fixed) / 8
    let EM := fun (M1 M2 salt : Bytes) =>
      let emLen := (K.k - 1 + 7) / 8
      let H := cfg.hash h (i2os (8 * M1.length) 8 ++ M1 ++ cfg.hash h M2 ++ salt)
      let dbLen := emLen - hl - T.length
      let DB := List.replicate (dbLen - M1.length - salt.length - 1) 0x00 ++ [0x01] ++ M1 ++ salt
      clearTop (8 * emLen - (K.k - 1)) (xorBytes DB (mgf1 cfg h H dbLen)) ++ H ++ T
    let Sig := fun (M1 M2 salt : Bytes) =>
      i2os (canonicalS um (privPower s crt (os2ip (EM M1 M2 salt))) K.n) K.klen
    ChecksFirst (.ds2Sign h it um crt ss sld) s ∧ ChecksFirst (.ds3Sign h it um crt) s ∧
    (Inv cfg s → Ready cfg (.ds2Sign h it um crt ss sld) s →
      let sLen := if sld then hl else (s.len .salt).toNat
      (K.k < fixed ∨ cOct < sLen → exec (.ds2Sign h it um crt ss sld) s = .next (raise .capacity s)) ∧
      (fixed ≤ K.k → sLen ≤ cOct → ∀ M1 M2, M = M1 ++ M2 → M1.length = min M.length (cOct - sLen) →
        ∃ salt : Bytes, salt.length = sLen ∧ (ss = true → salt = s.operand .salt) ∧
          exec (.ds2Sign h it um crt ss sld) s =
            .next (deliver (Sig M1 M2 salt) M2 (s.draws (if ss then 0 else sLen))))) ∧
    (Inv cfg s → Ready cfg (.ds3Sign h it um crt) s →
      let salt := s.operand .salt
      let bits := s.m1bits.toNat
      (salt = [] → exec (.ds3Sign h it um crt) s = .next (raise .param s)) ∧
      (salt ≠ [] → K.k < fixed ∨ cOct < salt.length ∨ 8 * (cOct - salt.length) < bits →
        exec (.ds3Sign h it um crt) s = .next (raise .capacity s)) ∧
      (salt ≠ [] → fixed ≤ K.k → salt.length ≤ cOct → bits ≤ 8 * (cOct - salt.length) → bits % 8 ≠ 0 →
        exec (.ds3Sign h it um crt) s = .next (raise .param s)) ∧
      (salt ≠ [] → fixed ≤ K.k → salt.length ≤ cOct → bits ≤ 8 * (cOct - salt.length) → bits % 8 = 0 →
        ∀ M1 M2, M = M1 ++ M2 → M1.length = min M.length (bits / 8) →
          exec (.ds3Sign h it um crt) s = .next (deliver (Sig M1 M2 salt) M2 s)))

/-- R247, R258 with R226 and R245: DS2_VERIFY and DS3_VERIFY deliver `M1` exactly when the signature opens to the encoded message
(R244) of `M1` and `M2` under one of the two trailers and some salt of the stated length, and else end with E_FAIL. -/
def Obligations.Ds2AndDs3VerifyAcceptExactlyEncodings : Prop :=
  (∀ h sld, encode (.ds2Verify h sld) = 0x00000043 + (h.setWidth 32 <<< 8) + if sld then 0x10000 else 0) ∧
  (∀ h, encode (.ds3Verify h) = 0x00000045 + (h.setWidth 32 <<< 8)) ∧
  ∀ (i : Instr) (s : State) (h : Sel) (sld : Bool), i = .ds2Verify h sld ∨ (i = .ds3Verify h ∧ sld = false) →
    ChecksFirst i s ∧ (Inv cfg s → Ready cfg i s →
      let hl := hLen cfg h
      let sLen := if sld then hl else (s.len .salt).toNat
      let sig := s.intOperand .inp
      let k := s.pub.k
      let fits := 8 * hl + 10 ≤ k ∧ sLen ≤ (k - 8 * hl - 10) / 8
      let IsEncoding := fun (J : Nat) (M1 : Bytes) => ∃ (it : Bool) (T salt : Bytes), TrailerIs cfg h it T ∧
        salt.length = sLen ∧ M1.length + sLen + 1 + hl + T.length ≤ (k - 1 + 7) / 8 ∧
        J = os2ip (isoPssEm cfg h M1 (s.operand .msg) salt k T)
      (¬ fits → exec i s = .next (raise .capacity s)) ∧
      (fits → s.pub.n ≤ sig → exec i s = .next (raise .domain s)) ∧
      (∀ J M1, fits → sig < s.pub.n → Opens s sig J → IsEncoding J M1 → exec i s = .next (deliver M1 [] s)) ∧
      (fits → sig < s.pub.n → (∀ J M1, Opens s sig J → ¬ IsEncoding J M1) → exec i s = .next (raise .fail s)))

/-- R248, R260: with a consistent key, DS2_VERIFY and DS3_VERIFY of what DS2_SIGN or DS3_SIGN delivered, with the salt length the
signer used, give an `M1` that with `M2` is the message, as long as R243 and R256 say; the verify commands accept both formats
(R258). -/
def Obligations.Ds2AndDs3VerifyRecoverMessage : Prop :=
  ∀ (C : Config) (s u : State) (h : Sel) (it um crt ss sld : Bool) (i j : Instr) (sLen : Nat), C.maxBuf < 2 ^ 32 → Inv C s →
    KeyPair s crt →
    (i = .ds2Sign h it um crt ss sld ∧ sLen = saltLen C h sld s) ∨ (i = .ds3Sign h it um crt ∧ sLen = (s.len .salt).toNat) →
    (j = .ds2Verify h true ∧ sLen = hLen C h) ∨ ((j = .ds2Verify h false ∨ j = .ds3Verify h) ∧ sLen = (u.len .salt).toNat) →
    Ready C i s → (runAt C i s).err = .ok → u.pub = s.pub → Ready C j u → u.operand .inp = (runAt C i s).operand .out →
    u.operand .msg = (runAt C i s).operand .aux →
      ∃ M1, runAt C j u = deliver M1 [] u ∧ M1 ++ u.operand .msg = s.operand .msg ∧
        (i = .ds2Sign h it um crt ss sld → M1.length = min (s.operand .msg).length
          (((s.privMod crt).k - (8 * hLen C h + 8 * (if it then 1 else 2) + 2)) / 8 - sLen)) ∧
        (i = .ds3Sign h it um crt → M1.length = min (s.operand .msg).length (s.m1bits.toNat / 8))

/-- R260, R255 (i), R256: one bit of M1BITS past the maximum, and one octet of salt past the capacity, end DS3_SIGN with
E_CAPACITY; so does SALT_LEN = 0 with E_PARAM, whatever M1BITS is. -/
def Obligations.Ds3LimitsAreExact : Prop :=
  ∀ (C : Config) (s : State) (h : Sel) (it um crt : Bool) (T : Bytes), TrailerIs C h it T → Ready C (.ds3Sign h it um crt) s →
    let fixed := 8 * hLen C h + 8 * T.length + 2
    let cOct := ((s.privMod crt).k - fixed) / 8
    fixed ≤ (s.privMod crt).k →
    (1 ≤ (s.len .salt).toNat → (s.len .salt).toNat ≤ cOct → s.m1bits.toNat = 8 * (cOct - (s.len .salt).toNat) + 1 →
      runAt C (.ds3Sign h it um crt) s = raise .capacity s) ∧
    ((s.len .salt).toNat = cOct + 1 → runAt C (.ds3Sign h it um crt) s = raise .capacity s) ∧
    ((s.len .salt).toNat = 0 → runAt C (.ds3Sign h it um crt) s = raise .param s)

/-- R259, R248: with UM = 1 the published integer of an ISO sign command is at most its complement, and less than it unless twice
it is `n`. -/
def Obligations.MinimumSignaturesAreCanonical : Prop :=
  ∀ (C : Config) (s : State) (h : Sel) (it crt ss sld : Bool) (i : Instr), C.maxBuf < 2 ^ 32 → Inv C s →
    i = .ds1Sign h it true crt ∨ i = .ds2Sign h it true crt ss sld ∨ i = .ds3Sign h it true crt →
    (runAt C i s).err = .ok →
      let x := os2ip ((runAt C i s).operand .out)
      let n := (s.privMod crt).n
      x ≤ n - x ∧ (2 * x ≠ n → x < n - x)

/-! ## Host scripts -/

/-- R100 with R61, R29, R31 and R8: the bus operations of `ld BUF, X` leave `X` as the operand of the buffer, those of
`ldint BUF, x` the integer `x`; each takes one step, and no other buffer, no octet past `X`, no other register and no slot
changes. -/
def Obligations.LoadScriptsPutTheOperand : Prop :=
  ∀ (s : State) (b : BufId) (X : Bytes) (rest : List HostEvent), b ≠ .out → b ≠ .aux → X.length ≤ cfg.maxBuf →
    s.phase ≠ .busy → (s.buf b).wf →
      (s.inputs = (Stmt.ld b X).events cfg ++ rest ∨ ∃ x, X = shortest x ∧ s.inputs = (Stmt.ldint b x).events cfg ++ rest) →
      ∃ t, Host.Core.run Sys2Proof.core (X.length + 1) s = .next t ∧ t.operand b = X ∧ t.inputs = rest ∧
        (∀ x, X = shortest x → t.intOperand b = x) ∧
        (∀ c, c ≠ b → t.len c = s.len c ∧ ∀ j, t.octet c j = s.octet c j) ∧
        (∀ j, X.length ≤ j → t.octet b j = s.octet b j) ∧
        { t with bufs := s.bufs, lens := s.lens, inputs := s.inputs, resp := s.resp } = s

end
end

