-- ==== Sys2Proof/Laws/Bytes.lean ====
section
/-! SUPPORT. The octet codec (R8) and the string operations: lengths, and the codec's two directions. -/

namespace Sys2Proof.Machine

@[simp] theorem length_i2os (x l : Nat) : (i2os x l).length = l := by
  induction l with
  | zero => rfl
  | succ l ih => simp [i2os, ih]

@[simp] theorem length_copies (c : Nat) (b : Byte) : (copies c b).length = c := by
  simp [copies]

@[simp] theorem length_xorBytes (X Y : Bytes) : (xorBytes X Y).length = min X.length Y.length := by
  simp [xorBytes]

@[simp] theorem length_clearTop (z : Nat) (X : Bytes) : (clearTop z X).length = X.length := by
  cases X <;> rfl

@[simp] theorem length_draw (C : Config) (s : State) (n : Nat) : (draw C s n).length = n := by
  simp [draw]

@[simp] theorem length_drawNonzero (C : Config) (s : State) (n : Nat) : (drawNonzero C s n).length = n := by
  simp [drawNonzero]

/-- R151: no octet of the padding string is 0x00. -/
theorem drawNonzero_ne_zero (C : Config) (s : State) (n : Nat) : ∀ b ∈ drawNonzero C s n, b ≠ 0 := by
  intro b hb
  obtain ⟨i, _, rfl⟩ := List.mem_map.mp hb
  have := (C.rngNonzero (s.drawn + i)).isLt
  intro h
  have h' : (BitVec.ofNat 8 ((C.rngNonzero (s.drawn + i)).val + 1)).toNat = 0 := by rw [h]; rfl
  rw [BitVec.toNat_ofNat] at h'
  omega

@[simp] theorem os2ip_nil : os2ip [] = 0 := rfl

theorem foldl_os2ip (acc : Nat) (X : Bytes) :
    X.foldl (fun acc b => acc * 256 + b.toNat) acc = acc * 256 ^ X.length + os2ip X := by
  induction X generalizing acc with
  | nil => simp
  | cons b X ih =>
    have h0 := ih (0 * 256 + b.toNat)
    rw [os2ip, List.foldl_cons, List.foldl_cons, ih, h0, List.length_cons, pow_succ]
    ring

/-- The first octet is the most significant (R8). -/
theorem os2ip_cons (b : Byte) (X : Bytes) : os2ip (b :: X) = b.toNat * 256 ^ X.length + os2ip X := by
  rw [os2ip, List.foldl_cons, foldl_os2ip, Nat.zero_mul, Nat.zero_add]

theorem os2ip_append (X Y : Bytes) : os2ip (X ++ Y) = os2ip X * 256 ^ Y.length + os2ip Y := by
  rw [os2ip, List.foldl_append, foldl_os2ip]
  rfl

/-- A string of `l` octets is below `256^l`. -/
theorem os2ip_lt (X : Bytes) : os2ip X < 256 ^ X.length := by
  induction X with
  | nil => simp
  | cons b X ih =>
    have hb : b.toNat ≤ 255 := by have := b.isLt; omega
    rw [os2ip_cons, List.length_cons, pow_succ]
    nlinarith [Nat.mul_le_mul_right (256 ^ X.length) hb]

/-- The value of the `l` octets of `x` (R8): `x`, when it fits. -/
theorem os2ip_i2os (x l : Nat) : os2ip (i2os x l) = x % 256 ^ l := by
  induction l with
  | zero => simp [i2os, Nat.mod_one]
  | succ l ih =>
    have h : x % 256 ^ (l + 1) = x % 256 ^ l + 256 ^ l * (x / 256 ^ l % 256) := by rw [pow_succ, Nat.mod_mul]
    rw [i2os, os2ip_cons, ih, length_i2os, BitVec.toNat_ofNat, h, Nat.add_comm, Nat.mul_comm]

theorem os2ip_i2os_of_lt {x l : Nat} (h : x < 256 ^ l) : os2ip (i2os x l) = x := by
  rw [os2ip_i2os, Nat.mod_eq_of_lt h]

/-- Reading the octets of `x` sees only `x mod 256^l`. -/
theorem i2os_add_mul (a x l : Nat) : i2os (a * 256 ^ l + x) l = i2os x l := by
  suffices h : ∀ m, l ≤ m → i2os (a * 256 ^ m + x) l = i2os x l from h l le_rfl
  induction l with
  | zero => intros; rfl
  | succ l ih =>
    intro m hm
    rw [i2os, i2os, ih m (by omega)]
    congr 1
    obtain ⟨j, rfl⟩ : ∃ j, m = l + 1 + j := ⟨m - (l + 1), by omega⟩
    have : a * 256 ^ (l + 1 + j) + x = 256 ^ l * (256 * (a * 256 ^ j)) + x := by
      rw [pow_add, pow_succ]; ring
    rw [this, Nat.mul_add_div (by positivity)]
    apply BitVec.eq_of_toNat_eq
    simp only [BitVec.toNat_ofNat]
    omega

/-- The octets of the value of a string are the string (R8). -/
@[simp] theorem i2os_os2ip (X : Bytes) : i2os (os2ip X) X.length = X := by
  induction X with
  | nil => rfl
  | cons b X ih =>
    rw [os2ip_cons, List.length_cons, i2os, i2os_add_mul, ih]
    congr 1
    apply BitVec.eq_of_toNat_eq
    have hlt := os2ip_lt X
    rw [BitVec.toNat_ofNat, mul_comm, Nat.mul_add_div (by positivity), Nat.div_eq_of_lt hlt, Nat.add_zero]
    exact Nat.mod_eq_of_lt b.isLt

/-- Strings of one length with one value are equal. -/
theorem os2ip_injective {X Y : Bytes} (hl : X.length = Y.length) (h : os2ip X = os2ip Y) : X = Y := by
  rw [← i2os_os2ip X, ← i2os_os2ip Y, hl, h]

@[simp] theorem os2ip_copies_zero (c : Nat) : os2ip (copies c 0) = 0 := by
  induction c with
  | zero => rfl
  | succ c ih =>
    rw [copies, List.replicate_succ, os2ip_cons]
    simpa [copies] using ih

/-- Leading zero octets do not change the value (R8). -/
theorem os2ip_zero_cons (X : Bytes) : os2ip (0 :: X) = os2ip X := by
  simp [os2ip_cons]

/-- Masking twice with one mask gives the string back (R169, R172, R202, R205). -/
theorem xorBytes_xorBytes (X Y : Bytes) (h : X.length ≤ Y.length) : xorBytes (xorBytes X Y) Y = X := by
  induction X generalizing Y with
  | nil => rfl
  | cons x X ih =>
    cases Y with
    | nil => simp at h
    | cons y Y =>
      have h' : X.length ≤ Y.length := by simpa using h
      have hx : x ^^^ y ^^^ y = x := by rw [BitVec.xor_assoc, BitVec.xor_self, BitVec.xor_zero]
      simpa [xorBytes, hx] using ih Y h'

theorem bitlen_zero : bitlen 0 = 0 := rfl

/-- `bitlen(x)` (R7): `2^(b−1) ≤ x < 2^b` for `x ≥ 1`. -/
theorem bitlen_spec {x : Nat} (h : 1 ≤ x) : 1 ≤ bitlen x ∧ 2 ^ (bitlen x - 1) ≤ x ∧ x < 2 ^ bitlen x := by
  have hx : x ≠ 0 := by omega
  rw [bitlen, if_neg hx]
  exact ⟨by omega, by simpa using Nat.log2_self_le hx, Nat.lt_log2_self⟩

theorem lt_two_pow_bitlen (x : Nat) : x < 2 ^ bitlen x := by
  rcases Nat.eq_zero_or_pos x with rfl | h
  · simp [bitlen]
  · exact (bitlen_spec h).2.2

/-- A number of `2^m` or more has more than `m` bits. -/
theorem lt_bitlen {x m : Nat} (h : 2 ^ m ≤ x) : m < bitlen x := by
  by_contra hc
  have := Nat.pow_le_pow_right (n := 2) (by omega) (show bitlen x ≤ m by omega)
  have := lt_two_pow_bitlen x
  omega

/-- The bit length is the one `k` with `2^(k−1) ≤ x < 2^k` (R7). -/
theorem bitlen_unique {x k : Nat} (h1 : 1 ≤ k) (h2 : 2 ^ (k - 1) ≤ x) (h3 : x < 2 ^ k) : bitlen x = k := by
  have hx := lt_bitlen h2
  by_contra hc
  have := (bitlen_spec (le_trans Nat.one_le_two_pow h2)).2.1
  have := Nat.pow_le_pow_right (n := 2) (by omega) (show k ≤ bitlen x - 1 by omega)
  omega

/-- `klen` octets hold the modulus (R131). -/
theorem lt_pow_ceil8_bitlen (x : Nat) : x < 256 ^ ceil8 (bitlen x) := by
  refine lt_of_lt_of_le (lt_two_pow_bitlen x) ?_
  rw [show (256 : Nat) = 2 ^ 8 from rfl, ← pow_mul]
  exact Nat.pow_le_pow_right (by omega) (by unfold ceil8; omega)

end Sys2Proof.Machine
end

