-- ==== Sys2Proof/Laws/State.lean ====
section
/-! SUPPORT. One lemma per field per update of State, true by rfl and in the simp set, so that no later proof unfolds a record
update; and the read-after-update laws of what belongs to a buffer. -/

namespace Sys2Proof.Machine

/-! ## Per-buffer data -/

@[simp] theorem PerBuf.get_set_self {α : Type} (P : PerBuf α) (b : BufId) (x : α) : (P.set b x).get b = x := by
  cases b <;> rfl

@[simp] theorem PerBuf.get_set_other {α : Type} (P : PerBuf α) {b c : BufId} (x : α) (h : c ≠ b) :
    (P.set b x).get c = P.get c := by
  cases b <;> cases c <;> first | rfl | exact absurd rfl h

@[simp] theorem PerBuf.get_all {α : Type} (x : α) (b : BufId) : (PerBuf.all x).get b = x := by
  cases b <;> rfl

/-- What belongs to every buffer determines the whole. -/
theorem PerBuf.ext_get {α : Type} {P Q : PerBuf α} (h : ∀ b, P.get b = Q.get b) : P = Q := by
  cases P; cases Q
  simpa only [PerBuf.mk.injEq] using ⟨h .msg, h .label, h .salt, h .inp, h .out, h .aux, h .kn, h .ke, h .kd, h .kp, h .kq,
    h .kdp, h .kdq, h .kqinv⟩

theorem BufId.num_ofNum (b : BufId) : BufId.ofNum b.num = some b := by
  cases b <;> rfl

theorem BufId.num_lt (b : BufId) : b.num < 14 := by
  cases b <;> decide


/-! ## setBuf -/

@[simp] theorem setBuf_cmd (s : State) (b : BufId) (m : Memory) : (s.setBuf b m).cmd = s.cmd := rfl
@[simp] theorem setBuf_phase (s : State) (b : BufId) (m : Memory) : (s.setBuf b m).phase = s.phase := rfl
@[simp] theorem setBuf_err (s : State) (b : BufId) (m : Memory) : (s.setBuf b m).err = s.err := rfl
@[simp] theorem setBuf_doneIe (s : State) (b : BufId) (m : Memory) : (s.setBuf b m).doneIe = s.doneIe := rfl
@[simp] theorem setBuf_findings (s : State) (b : BufId) (m : Memory) : (s.setBuf b m).findings = s.findings := rfl
@[simp] theorem setBuf_embits (s : State) (b : BufId) (m : Memory) : (s.setBuf b m).embits = s.embits := rfl
@[simp] theorem setBuf_m1bits (s : State) (b : BufId) (m : Memory) : (s.setBuf b m).m1bits = s.m1bits := rfl
@[simp] theorem setBuf_lens (s : State) (b : BufId) (m : Memory) : (s.setBuf b m).lens = s.lens := rfl
@[simp] theorem setBuf_bufs (s : State) (b : BufId) (m : Memory) : (s.setBuf b m).bufs = s.bufs.set b m := rfl
@[simp] theorem setBuf_pub (s : State) (b : BufId) (m : Memory) : (s.setBuf b m).pub = s.pub := rfl
@[simp] theorem setBuf_priv (s : State) (b : BufId) (m : Memory) : (s.setBuf b m).priv = s.priv := rfl
@[simp] theorem setBuf_crt (s : State) (b : BufId) (m : Memory) : (s.setBuf b m).crt = s.crt := rfl
@[simp] theorem setBuf_drawn (s : State) (b : BufId) (m : Memory) : (s.setBuf b m).drawn = s.drawn := rfl
@[simp] theorem setBuf_inputs (s : State) (b : BufId) (m : Memory) : (s.setBuf b m).inputs = s.inputs := rfl
@[simp] theorem setBuf_resp (s : State) (b : BufId) (m : Memory) : (s.setBuf b m).resp = s.resp := rfl

/-! ## setLen -/

@[simp] theorem setLen_cmd (s : State) (b : BufId) (w : Word) : (s.setLen b w).cmd = s.cmd := rfl
@[simp] theorem setLen_phase (s : State) (b : BufId) (w : Word) : (s.setLen b w).phase = s.phase := rfl
@[simp] theorem setLen_err (s : State) (b : BufId) (w : Word) : (s.setLen b w).err = s.err := rfl
@[simp] theorem setLen_doneIe (s : State) (b : BufId) (w : Word) : (s.setLen b w).doneIe = s.doneIe := rfl
@[simp] theorem setLen_findings (s : State) (b : BufId) (w : Word) : (s.setLen b w).findings = s.findings := rfl
@[simp] theorem setLen_embits (s : State) (b : BufId) (w : Word) : (s.setLen b w).embits = s.embits := rfl
@[simp] theorem setLen_m1bits (s : State) (b : BufId) (w : Word) : (s.setLen b w).m1bits = s.m1bits := rfl
@[simp] theorem setLen_lens (s : State) (b : BufId) (w : Word) : (s.setLen b w).lens = s.lens.set b w := rfl
@[simp] theorem setLen_bufs (s : State) (b : BufId) (w : Word) : (s.setLen b w).bufs = s.bufs := rfl
@[simp] theorem setLen_pub (s : State) (b : BufId) (w : Word) : (s.setLen b w).pub = s.pub := rfl
@[simp] theorem setLen_priv (s : State) (b : BufId) (w : Word) : (s.setLen b w).priv = s.priv := rfl
@[simp] theorem setLen_crt (s : State) (b : BufId) (w : Word) : (s.setLen b w).crt = s.crt := rfl
@[simp] theorem setLen_drawn (s : State) (b : BufId) (w : Word) : (s.setLen b w).drawn = s.drawn := rfl
@[simp] theorem setLen_inputs (s : State) (b : BufId) (w : Word) : (s.setLen b w).inputs = s.inputs := rfl
@[simp] theorem setLen_resp (s : State) (b : BufId) (w : Word) : (s.setLen b w).resp = s.resp := rfl

/-! ## setOctet -/

@[simp] theorem setOctet_cmd (s : State) (b : BufId) (i : Nat) (v : Byte) : (s.setOctet b i v).cmd = s.cmd := rfl
@[simp] theorem setOctet_phase (s : State) (b : BufId) (i : Nat) (v : Byte) : (s.setOctet b i v).phase = s.phase := rfl
@[simp] theorem setOctet_err (s : State) (b : BufId) (i : Nat) (v : Byte) : (s.setOctet b i v).err = s.err := rfl
@[simp] theorem setOctet_doneIe (s : State) (b : BufId) (i : Nat) (v : Byte) : (s.setOctet b i v).doneIe = s.doneIe := rfl
@[simp] theorem setOctet_findings (s : State) (b : BufId) (i : Nat) (v : Byte) : (s.setOctet b i v).findings = s.findings := rfl
@[simp] theorem setOctet_embits (s : State) (b : BufId) (i : Nat) (v : Byte) : (s.setOctet b i v).embits = s.embits := rfl
@[simp] theorem setOctet_m1bits (s : State) (b : BufId) (i : Nat) (v : Byte) : (s.setOctet b i v).m1bits = s.m1bits := rfl
@[simp] theorem setOctet_lens (s : State) (b : BufId) (i : Nat) (v : Byte) : (s.setOctet b i v).lens = s.lens := rfl
@[simp] theorem setOctet_bufs (s : State) (b : BufId) (i : Nat) (v : Byte) : (s.setOctet b i v).bufs = s.bufs.set b (Memory.write (s.buf b) i v) := rfl
@[simp] theorem setOctet_pub (s : State) (b : BufId) (i : Nat) (v : Byte) : (s.setOctet b i v).pub = s.pub := rfl
@[simp] theorem setOctet_priv (s : State) (b : BufId) (i : Nat) (v : Byte) : (s.setOctet b i v).priv = s.priv := rfl
@[simp] theorem setOctet_crt (s : State) (b : BufId) (i : Nat) (v : Byte) : (s.setOctet b i v).crt = s.crt := rfl
@[simp] theorem setOctet_drawn (s : State) (b : BufId) (i : Nat) (v : Byte) : (s.setOctet b i v).drawn = s.drawn := rfl
@[simp] theorem setOctet_inputs (s : State) (b : BufId) (i : Nat) (v : Byte) : (s.setOctet b i v).inputs = s.inputs := rfl
@[simp] theorem setOctet_resp (s : State) (b : BufId) (i : Nat) (v : Byte) : (s.setOctet b i v).resp = s.resp := rfl

/-! ## setResults -/

@[simp] theorem setResults_cmd (s : State) (out aux : Bytes) : (s.setResults out aux).cmd = s.cmd := rfl
@[simp] theorem setResults_phase (s : State) (out aux : Bytes) : (s.setResults out aux).phase = s.phase := rfl
@[simp] theorem setResults_err (s : State) (out aux : Bytes) : (s.setResults out aux).err = s.err := rfl
@[simp] theorem setResults_doneIe (s : State) (out aux : Bytes) : (s.setResults out aux).doneIe = s.doneIe := rfl
@[simp] theorem setResults_findings (s : State) (out aux : Bytes) : (s.setResults out aux).findings = s.findings := rfl
@[simp] theorem setResults_embits (s : State) (out aux : Bytes) : (s.setResults out aux).embits = s.embits := rfl
@[simp] theorem setResults_m1bits (s : State) (out aux : Bytes) : (s.setResults out aux).m1bits = s.m1bits := rfl
@[simp] theorem setResults_lens (s : State) (out aux : Bytes) : (s.setResults out aux).lens = (s.lens.set .out (BitVec.ofNat 32 out.length)).set .aux (BitVec.ofNat 32 aux.length) := rfl
@[simp] theorem setResults_bufs (s : State) (out aux : Bytes) : (s.setResults out aux).bufs = (s.bufs.set .out (Memory.ofBytes out)).set .aux (Memory.ofBytes aux) := rfl
@[simp] theorem setResults_pub (s : State) (out aux : Bytes) : (s.setResults out aux).pub = s.pub := rfl
@[simp] theorem setResults_priv (s : State) (out aux : Bytes) : (s.setResults out aux).priv = s.priv := rfl
@[simp] theorem setResults_crt (s : State) (out aux : Bytes) : (s.setResults out aux).crt = s.crt := rfl
@[simp] theorem setResults_drawn (s : State) (out aux : Bytes) : (s.setResults out aux).drawn = s.drawn := rfl
@[simp] theorem setResults_inputs (s : State) (out aux : Bytes) : (s.setResults out aux).inputs = s.inputs := rfl
@[simp] theorem setResults_resp (s : State) (out aux : Bytes) : (s.setResults out aux).resp = s.resp := rfl

/-! ## draws -/

@[simp] theorem draws_cmd (s : State) (n : Nat) : (s.draws n).cmd = s.cmd := rfl
@[simp] theorem draws_phase (s : State) (n : Nat) : (s.draws n).phase = s.phase := rfl
@[simp] theorem draws_err (s : State) (n : Nat) : (s.draws n).err = s.err := rfl
@[simp] theorem draws_doneIe (s : State) (n : Nat) : (s.draws n).doneIe = s.doneIe := rfl
@[simp] theorem draws_findings (s : State) (n : Nat) : (s.draws n).findings = s.findings := rfl
@[simp] theorem draws_embits (s : State) (n : Nat) : (s.draws n).embits = s.embits := rfl
@[simp] theorem draws_m1bits (s : State) (n : Nat) : (s.draws n).m1bits = s.m1bits := rfl
@[simp] theorem draws_lens (s : State) (n : Nat) : (s.draws n).lens = s.lens := rfl
@[simp] theorem draws_bufs (s : State) (n : Nat) : (s.draws n).bufs = s.bufs := rfl
@[simp] theorem draws_pub (s : State) (n : Nat) : (s.draws n).pub = s.pub := rfl
@[simp] theorem draws_priv (s : State) (n : Nat) : (s.draws n).priv = s.priv := rfl
@[simp] theorem draws_crt (s : State) (n : Nat) : (s.draws n).crt = s.crt := rfl
@[simp] theorem draws_drawn (s : State) (n : Nat) : (s.draws n).drawn = s.drawn + n := rfl
@[simp] theorem draws_inputs (s : State) (n : Nat) : (s.draws n).inputs = s.inputs := rfl
@[simp] theorem draws_resp (s : State) (n : Nat) : (s.draws n).resp = s.resp := rfl

/-! ## accept -/

@[simp] theorem accept_cmd (w : Word) (s : State) : (accept w s).cmd = w := rfl
@[simp] theorem accept_phase (w : Word) (s : State) : (accept w s).phase = .busy := rfl
@[simp] theorem accept_err (w : Word) (s : State) : (accept w s).err = .ok := rfl
@[simp] theorem accept_doneIe (w : Word) (s : State) : (accept w s).doneIe = s.doneIe := rfl
@[simp] theorem accept_findings (w : Word) (s : State) : (accept w s).findings = s.findings := rfl
@[simp] theorem accept_embits (w : Word) (s : State) : (accept w s).embits = s.embits := rfl
@[simp] theorem accept_m1bits (w : Word) (s : State) : (accept w s).m1bits = s.m1bits := rfl
@[simp] theorem accept_lens (w : Word) (s : State) : (accept w s).lens = (s.lens.set .out 0).set .aux 0 := rfl
@[simp] theorem accept_bufs (w : Word) (s : State) : (accept w s).bufs = (s.bufs.set .out []).set .aux [] := rfl
@[simp] theorem accept_pub (w : Word) (s : State) : (accept w s).pub = s.pub := rfl
@[simp] theorem accept_priv (w : Word) (s : State) : (accept w s).priv = s.priv := rfl
@[simp] theorem accept_crt (w : Word) (s : State) : (accept w s).crt = s.crt := rfl
@[simp] theorem accept_drawn (w : Word) (s : State) : (accept w s).drawn = s.drawn := rfl
@[simp] theorem accept_inputs (w : Word) (s : State) : (accept w s).inputs = s.inputs := rfl
@[simp] theorem accept_resp (w : Word) (s : State) : (accept w s).resp = s.resp := rfl

/-! ## deliver -/

@[simp] theorem deliver_cmd (out aux : Bytes) (s : State) : (deliver out aux s).cmd = s.cmd := rfl
@[simp] theorem deliver_phase (out aux : Bytes) (s : State) : (deliver out aux s).phase = .done := rfl
@[simp] theorem deliver_err (out aux : Bytes) (s : State) : (deliver out aux s).err = .ok := rfl
@[simp] theorem deliver_doneIe (out aux : Bytes) (s : State) : (deliver out aux s).doneIe = s.doneIe := rfl
@[simp] theorem deliver_findings (out aux : Bytes) (s : State) : (deliver out aux s).findings = s.findings := rfl
@[simp] theorem deliver_embits (out aux : Bytes) (s : State) : (deliver out aux s).embits = s.embits := rfl
@[simp] theorem deliver_m1bits (out aux : Bytes) (s : State) : (deliver out aux s).m1bits = s.m1bits := rfl
@[simp] theorem deliver_lens (out aux : Bytes) (s : State) : (deliver out aux s).lens = (s.lens.set .out (BitVec.ofNat 32 out.length)).set .aux (BitVec.ofNat 32 aux.length) := rfl
@[simp] theorem deliver_bufs (out aux : Bytes) (s : State) : (deliver out aux s).bufs = (s.bufs.set .out (Memory.ofBytes out)).set .aux (Memory.ofBytes aux) := rfl
@[simp] theorem deliver_pub (out aux : Bytes) (s : State) : (deliver out aux s).pub = s.pub := rfl
@[simp] theorem deliver_priv (out aux : Bytes) (s : State) : (deliver out aux s).priv = s.priv := rfl
@[simp] theorem deliver_crt (out aux : Bytes) (s : State) : (deliver out aux s).crt = s.crt := rfl
@[simp] theorem deliver_drawn (out aux : Bytes) (s : State) : (deliver out aux s).drawn = s.drawn := rfl
@[simp] theorem deliver_inputs (out aux : Bytes) (s : State) : (deliver out aux s).inputs = s.inputs := rfl
@[simp] theorem deliver_resp (out aux : Bytes) (s : State) : (deliver out aux s).resp = s.resp := rfl

/-! ## raise -/

@[simp] theorem raise_cmd (e : Err) (s : State) : (raise e s).cmd = s.cmd := rfl
@[simp] theorem raise_phase (e : Err) (s : State) : (raise e s).phase = .done := rfl
@[simp] theorem raise_err (e : Err) (s : State) : (raise e s).err = e := rfl
@[simp] theorem raise_doneIe (e : Err) (s : State) : (raise e s).doneIe = s.doneIe := rfl
@[simp] theorem raise_findings (e : Err) (s : State) : (raise e s).findings = s.findings := rfl
@[simp] theorem raise_embits (e : Err) (s : State) : (raise e s).embits = s.embits := rfl
@[simp] theorem raise_m1bits (e : Err) (s : State) : (raise e s).m1bits = s.m1bits := rfl
@[simp] theorem raise_lens (e : Err) (s : State) : (raise e s).lens = (s.lens.set .out 0).set .aux 0 := rfl
@[simp] theorem raise_bufs (e : Err) (s : State) : (raise e s).bufs = (s.bufs.set .out []).set .aux [] := rfl
@[simp] theorem raise_pub (e : Err) (s : State) : (raise e s).pub = s.pub := rfl
@[simp] theorem raise_priv (e : Err) (s : State) : (raise e s).priv = s.priv := rfl
@[simp] theorem raise_crt (e : Err) (s : State) : (raise e s).crt = s.crt := rfl
@[simp] theorem raise_drawn (e : Err) (s : State) : (raise e s).drawn = s.drawn := rfl
@[simp] theorem raise_inputs (e : Err) (s : State) : (raise e s).inputs = s.inputs := rfl
@[simp] theorem raise_resp (e : Err) (s : State) : (raise e s).resp = s.resp := rfl

/-! ## acknowledge -/

@[simp] theorem acknowledge_cmd (s : State) : (acknowledge s).cmd = s.cmd := rfl
@[simp] theorem acknowledge_phase (s : State) : (acknowledge s).phase = .idle := rfl
@[simp] theorem acknowledge_err (s : State) : (acknowledge s).err = .ok := rfl
@[simp] theorem acknowledge_doneIe (s : State) : (acknowledge s).doneIe = s.doneIe := rfl
@[simp] theorem acknowledge_findings (s : State) : (acknowledge s).findings = s.findings := rfl
@[simp] theorem acknowledge_embits (s : State) : (acknowledge s).embits = s.embits := rfl
@[simp] theorem acknowledge_m1bits (s : State) : (acknowledge s).m1bits = s.m1bits := rfl
@[simp] theorem acknowledge_lens (s : State) : (acknowledge s).lens = s.lens := rfl
@[simp] theorem acknowledge_bufs (s : State) : (acknowledge s).bufs = s.bufs := rfl
@[simp] theorem acknowledge_pub (s : State) : (acknowledge s).pub = s.pub := rfl
@[simp] theorem acknowledge_priv (s : State) : (acknowledge s).priv = s.priv := rfl
@[simp] theorem acknowledge_crt (s : State) : (acknowledge s).crt = s.crt := rfl
@[simp] theorem acknowledge_drawn (s : State) : (acknowledge s).drawn = s.drawn := rfl
@[simp] theorem acknowledge_inputs (s : State) : (acknowledge s).inputs = s.inputs := rfl
@[simp] theorem acknowledge_resp (s : State) : (acknowledge s).resp = s.resp := rfl

/-! ## installPub -/

@[simp] theorem installPub_cmd (C : Config) (K : PubSlot) (s : State) : (installPub C K s).cmd = s.cmd := rfl
@[simp] theorem installPub_phase (C : Config) (K : PubSlot) (s : State) : (installPub C K s).phase = s.phase := rfl
@[simp] theorem installPub_err (C : Config) (K : PubSlot) (s : State) : (installPub C K s).err = s.err := rfl
@[simp] theorem installPub_doneIe (C : Config) (K : PubSlot) (s : State) : (installPub C K s).doneIe = s.doneIe := rfl
@[simp] theorem installPub_findings (C : Config) (K : PubSlot) (s : State) : (installPub C K s).findings = findPub C K.k K.e s.findings := rfl
@[simp] theorem installPub_embits (C : Config) (K : PubSlot) (s : State) : (installPub C K s).embits = s.embits := rfl
@[simp] theorem installPub_m1bits (C : Config) (K : PubSlot) (s : State) : (installPub C K s).m1bits = s.m1bits := rfl
@[simp] theorem installPub_lens (C : Config) (K : PubSlot) (s : State) : (installPub C K s).lens = s.lens := rfl
@[simp] theorem installPub_bufs (C : Config) (K : PubSlot) (s : State) : (installPub C K s).bufs = s.bufs := rfl
@[simp] theorem installPub_pub (C : Config) (K : PubSlot) (s : State) : (installPub C K s).pub = K := rfl
@[simp] theorem installPub_priv (C : Config) (K : PubSlot) (s : State) : (installPub C K s).priv = s.priv := rfl
@[simp] theorem installPub_crt (C : Config) (K : PubSlot) (s : State) : (installPub C K s).crt = s.crt := rfl
@[simp] theorem installPub_drawn (C : Config) (K : PubSlot) (s : State) : (installPub C K s).drawn = s.drawn := rfl
@[simp] theorem installPub_inputs (C : Config) (K : PubSlot) (s : State) : (installPub C K s).inputs = s.inputs := rfl
@[simp] theorem installPub_resp (C : Config) (K : PubSlot) (s : State) : (installPub C K s).resp = s.resp := rfl

/-! ## installPriv -/

@[simp] theorem installPriv_cmd (C : Config) (K : PrivSlot) (s : State) : (installPriv C K s).cmd = s.cmd := rfl
@[simp] theorem installPriv_phase (C : Config) (K : PrivSlot) (s : State) : (installPriv C K s).phase = s.phase := rfl
@[simp] theorem installPriv_err (C : Config) (K : PrivSlot) (s : State) : (installPriv C K s).err = s.err := rfl
@[simp] theorem installPriv_doneIe (C : Config) (K : PrivSlot) (s : State) : (installPriv C K s).doneIe = s.doneIe := rfl
@[simp] theorem installPriv_findings (C : Config) (K : PrivSlot) (s : State) : (installPriv C K s).findings = findPriv C K.k K.e s.findings := rfl
@[simp] theorem installPriv_embits (C : Config) (K : PrivSlot) (s : State) : (installPriv C K s).embits = s.embits := rfl
@[simp] theorem installPriv_m1bits (C : Config) (K : PrivSlot) (s : State) : (installPriv C K s).m1bits = s.m1bits := rfl
@[simp] theorem installPriv_lens (C : Config) (K : PrivSlot) (s : State) : (installPriv C K s).lens = s.lens := rfl
@[simp] theorem installPriv_bufs (C : Config) (K : PrivSlot) (s : State) : (installPriv C K s).bufs = s.bufs := rfl
@[simp] theorem installPriv_pub (C : Config) (K : PrivSlot) (s : State) : (installPriv C K s).pub = s.pub := rfl
@[simp] theorem installPriv_priv (C : Config) (K : PrivSlot) (s : State) : (installPriv C K s).priv = K := rfl
@[simp] theorem installPriv_crt (C : Config) (K : PrivSlot) (s : State) : (installPriv C K s).crt = s.crt := rfl
@[simp] theorem installPriv_drawn (C : Config) (K : PrivSlot) (s : State) : (installPriv C K s).drawn = s.drawn := rfl
@[simp] theorem installPriv_inputs (C : Config) (K : PrivSlot) (s : State) : (installPriv C K s).inputs = s.inputs := rfl
@[simp] theorem installPriv_resp (C : Config) (K : PrivSlot) (s : State) : (installPriv C K s).resp = s.resp := rfl

/-! ## installCrt -/

@[simp] theorem installCrt_cmd (C : Config) (K : CrtSlot) (s : State) : (installCrt C K s).cmd = s.cmd := rfl
@[simp] theorem installCrt_phase (C : Config) (K : CrtSlot) (s : State) : (installCrt C K s).phase = s.phase := rfl
@[simp] theorem installCrt_err (C : Config) (K : CrtSlot) (s : State) : (installCrt C K s).err = s.err := rfl
@[simp] theorem installCrt_doneIe (C : Config) (K : CrtSlot) (s : State) : (installCrt C K s).doneIe = s.doneIe := rfl
@[simp] theorem installCrt_findings (C : Config) (K : CrtSlot) (s : State) : (installCrt C K s).findings = findCrt C K.k s.findings := rfl
@[simp] theorem installCrt_embits (C : Config) (K : CrtSlot) (s : State) : (installCrt C K s).embits = s.embits := rfl
@[simp] theorem installCrt_m1bits (C : Config) (K : CrtSlot) (s : State) : (installCrt C K s).m1bits = s.m1bits := rfl
@[simp] theorem installCrt_lens (C : Config) (K : CrtSlot) (s : State) : (installCrt C K s).lens = s.lens := rfl
@[simp] theorem installCrt_bufs (C : Config) (K : CrtSlot) (s : State) : (installCrt C K s).bufs = s.bufs := rfl
@[simp] theorem installCrt_pub (C : Config) (K : CrtSlot) (s : State) : (installCrt C K s).pub = s.pub := rfl
@[simp] theorem installCrt_priv (C : Config) (K : CrtSlot) (s : State) : (installCrt C K s).priv = s.priv := rfl
@[simp] theorem installCrt_crt (C : Config) (K : CrtSlot) (s : State) : (installCrt C K s).crt = K := rfl
@[simp] theorem installCrt_drawn (C : Config) (K : CrtSlot) (s : State) : (installCrt C K s).drawn = s.drawn := rfl
@[simp] theorem installCrt_inputs (C : Config) (K : CrtSlot) (s : State) : (installCrt C K s).inputs = s.inputs := rfl
@[simp] theorem installCrt_resp (C : Config) (K : CrtSlot) (s : State) : (installCrt C K s).resp = s.resp := rfl

/-! ## clearAll -/

@[simp] theorem clearAll_cmd (s : State) : (clearAll s).cmd = s.cmd := rfl
@[simp] theorem clearAll_phase (s : State) : (clearAll s).phase = s.phase := rfl
@[simp] theorem clearAll_err (s : State) : (clearAll s).err = s.err := rfl
@[simp] theorem clearAll_doneIe (s : State) : (clearAll s).doneIe = s.doneIe := rfl
@[simp] theorem clearAll_findings (s : State) : (clearAll s).findings = Findings.none := rfl
@[simp] theorem clearAll_embits (s : State) : (clearAll s).embits = 0 := rfl
@[simp] theorem clearAll_m1bits (s : State) : (clearAll s).m1bits = 0 := rfl
@[simp] theorem clearAll_lens (s : State) : (clearAll s).lens = PerBuf.all 0 := rfl
@[simp] theorem clearAll_bufs (s : State) : (clearAll s).bufs = PerBuf.all [] := rfl
@[simp] theorem clearAll_pub (s : State) : (clearAll s).pub = PubSlot.empty := rfl
@[simp] theorem clearAll_priv (s : State) : (clearAll s).priv = PrivSlot.empty := rfl
@[simp] theorem clearAll_crt (s : State) : (clearAll s).crt = CrtSlot.empty := rfl
@[simp] theorem clearAll_drawn (s : State) : (clearAll s).drawn = s.drawn := rfl
@[simp] theorem clearAll_inputs (s : State) : (clearAll s).inputs = s.inputs := rfl
@[simp] theorem clearAll_resp (s : State) : (clearAll s).resp = s.resp := rfl

/-! ## Lengths, memories and octets after an update -/

theorem State.len_def (s : State) (b : BufId) : s.len b = s.lens.get b := rfl

theorem State.buf_def (s : State) (b : BufId) : s.buf b = s.bufs.get b := rfl

theorem State.octet_def (s : State) (b : BufId) (i : Nat) : s.octet b i = Memory.read (s.buf b) i := rfl

@[simp] theorem setResults_buf_other (s : State) (out aux : Bytes) {b : BufId} (h : b ≠ .out) (h' : b ≠ .aux) :
    (s.setResults out aux).buf b = s.buf b := by
  simp [State.buf_def, h, h']

@[simp] theorem setResults_len_other (s : State) (out aux : Bytes) {b : BufId} (h : b ≠ .out) (h' : b ≠ .aux) :
    (s.setResults out aux).len b = s.len b := by
  simp [State.len_def, h, h']

@[simp] theorem accept_buf_other (w : Word) (s : State) {b : BufId} (h : b ≠ .out) (h' : b ≠ .aux) :
    (accept w s).buf b = s.buf b := by
  simp [State.buf_def, h, h']

@[simp] theorem accept_len_other (w : Word) (s : State) {b : BufId} (h : b ≠ .out) (h' : b ≠ .aux) :
    (accept w s).len b = s.len b := by
  simp [State.len_def, h, h']

@[simp] theorem deliver_buf_other (out aux : Bytes) (s : State) {b : BufId} (h : b ≠ .out) (h' : b ≠ .aux) :
    (deliver out aux s).buf b = s.buf b := by
  simp [State.buf_def, h, h']

@[simp] theorem deliver_len_other (out aux : Bytes) (s : State) {b : BufId} (h : b ≠ .out) (h' : b ≠ .aux) :
    (deliver out aux s).len b = s.len b := by
  simp [State.len_def, h, h']

@[simp] theorem raise_buf_other (e : Err) (s : State) {b : BufId} (h : b ≠ .out) (h' : b ≠ .aux) :
    (raise e s).buf b = s.buf b := by
  simp [State.buf_def, h, h']

@[simp] theorem raise_len_other (e : Err) (s : State) {b : BufId} (h : b ≠ .out) (h' : b ≠ .aux) :
    (raise e s).len b = s.len b := by
  simp [State.len_def, h, h']

@[simp] theorem setResults_buf_out (s : State) (out aux : Bytes) : (s.setResults out aux).buf .out = Memory.ofBytes out := rfl
@[simp] theorem setResults_buf_aux (s : State) (out aux : Bytes) : (s.setResults out aux).buf .aux = Memory.ofBytes aux := rfl
@[simp] theorem setResults_len_out (s : State) (out aux : Bytes) : (s.setResults out aux).len .out = BitVec.ofNat 32 out.length := rfl
@[simp] theorem setResults_len_aux (s : State) (out aux : Bytes) : (s.setResults out aux).len .aux = BitVec.ofNat 32 aux.length := rfl

@[simp] theorem deliver_buf_out (out aux : Bytes) (s : State) : (deliver out aux s).buf .out = Memory.ofBytes out := rfl
@[simp] theorem deliver_buf_aux (out aux : Bytes) (s : State) : (deliver out aux s).buf .aux = Memory.ofBytes aux := rfl
@[simp] theorem deliver_len_out (out aux : Bytes) (s : State) : (deliver out aux s).len .out = BitVec.ofNat 32 out.length := rfl
@[simp] theorem deliver_len_aux (out aux : Bytes) (s : State) : (deliver out aux s).len .aux = BitVec.ofNat 32 aux.length := rfl

@[simp] theorem accept_buf_out (w : Word) (s : State) : (accept w s).buf .out = [] := rfl
@[simp] theorem accept_buf_aux (w : Word) (s : State) : (accept w s).buf .aux = [] := rfl
@[simp] theorem accept_len_out (w : Word) (s : State) : (accept w s).len .out = 0 := rfl
@[simp] theorem accept_len_aux (w : Word) (s : State) : (accept w s).len .aux = 0 := rfl

@[simp] theorem raise_buf_out (e : Err) (s : State) : (raise e s).buf .out = [] := rfl
@[simp] theorem raise_buf_aux (e : Err) (s : State) : (raise e s).buf .aux = [] := rfl
@[simp] theorem raise_len_out (e : Err) (s : State) : (raise e s).len .out = 0 := rfl
@[simp] theorem raise_len_aux (e : Err) (s : State) : (raise e s).len .aux = 0 := rfl

@[simp] theorem draws_buf (s : State) (n : Nat) (b : BufId) : (s.draws n).buf b = s.buf b := rfl
@[simp] theorem draws_len (s : State) (n : Nat) (b : BufId) : (s.draws n).len b = s.len b := rfl
@[simp] theorem draws_octet (s : State) (n : Nat) (b : BufId) (i : Nat) : (s.draws n).octet b i = s.octet b i := rfl

@[simp] theorem acknowledge_buf (s : State) (b : BufId) : (acknowledge s).buf b = s.buf b := rfl
@[simp] theorem acknowledge_len (s : State) (b : BufId) : (acknowledge s).len b = s.len b := rfl
@[simp] theorem acknowledge_octet (s : State) (b : BufId) (i : Nat) : (acknowledge s).octet b i = s.octet b i := rfl

@[simp] theorem installPub_buf (C : Config) (K : PubSlot) (s : State) (b : BufId) : (installPub C K s).buf b = s.buf b := rfl
@[simp] theorem installPub_len (C : Config) (K : PubSlot) (s : State) (b : BufId) : (installPub C K s).len b = s.len b := rfl
@[simp] theorem installPub_octet (C : Config) (K : PubSlot) (s : State) (b : BufId) (i : Nat) : (installPub C K s).octet b i = s.octet b i := rfl

@[simp] theorem installPriv_buf (C : Config) (K : PrivSlot) (s : State) (b : BufId) : (installPriv C K s).buf b = s.buf b := rfl
@[simp] theorem installPriv_len (C : Config) (K : PrivSlot) (s : State) (b : BufId) : (installPriv C K s).len b = s.len b := rfl
@[simp] theorem installPriv_octet (C : Config) (K : PrivSlot) (s : State) (b : BufId) (i : Nat) : (installPriv C K s).octet b i = s.octet b i := rfl

@[simp] theorem installCrt_buf (C : Config) (K : CrtSlot) (s : State) (b : BufId) : (installCrt C K s).buf b = s.buf b := rfl
@[simp] theorem installCrt_len (C : Config) (K : CrtSlot) (s : State) (b : BufId) : (installCrt C K s).len b = s.len b := rfl
@[simp] theorem installCrt_octet (C : Config) (K : CrtSlot) (s : State) (b : BufId) (i : Nat) : (installCrt C K s).octet b i = s.octet b i := rfl

@[simp] theorem setBuf_buf_self (s : State) (b : BufId) (m : Memory) : (s.setBuf b m).buf b = m := by
  simp [State.buf_def]

@[simp] theorem setBuf_buf_other (s : State) {b c : BufId} (m : Memory) (h : c ≠ b) : (s.setBuf b m).buf c = s.buf c := by
  simp [State.buf_def, h]

@[simp] theorem setBuf_len (s : State) (b c : BufId) (m : Memory) : (s.setBuf b m).len c = s.len c := rfl

@[simp] theorem setLen_len_self (s : State) (b : BufId) (w : Word) : (s.setLen b w).len b = w := by
  simp [State.len_def]

@[simp] theorem setLen_len_other (s : State) {b c : BufId} (w : Word) (h : c ≠ b) : (s.setLen b w).len c = s.len c := by
  simp [State.len_def, h]

@[simp] theorem setLen_buf (s : State) (b c : BufId) (w : Word) : (s.setLen b w).buf c = s.buf c := rfl

@[simp] theorem clearAll_buf (s : State) (b : BufId) : (clearAll s).buf b = [] := by
  simp [State.buf_def]

@[simp] theorem clearAll_len (s : State) (b : BufId) : (clearAll s).len b = 0 := by
  simp [State.len_def]

@[simp] theorem reset_buf (b : BufId) : State.reset.buf b = [] := by
  cases b <;> rfl

@[simp] theorem reset_len (b : BufId) : State.reset.len b = 0 := by
  cases b <;> rfl

/-- An operand is its length and its octets. -/
theorem State.operand_congr {s t : State} {b : BufId} (hl : s.len b = t.len b)
    (ho : ∀ i, i < (t.len b).toNat → s.octet b i = t.octet b i) : s.operand b = t.operand b := by
  simp only [State.operand, Memory.bytes, hl]
  exact List.map_congr_left fun i hi => ho i (List.mem_range.mp hi)

@[simp] theorem State.operand_length (s : State) (b : BufId) : (s.operand b).length = (s.len b).toNat := by
  simp [State.operand, Memory.bytes]

end Sys2Proof.Machine
end

