-- ==== Sys2Proof/Laws/Ops.lean ====
section
/-! SUPPORT. What the shared operations can do, said once: the common checks, the completion of a command, a key load, the
dispatch, and a step. Later proofs cite these and do not unfold the operations. -/

namespace Sys2Proof.Machine

/-! ## The common checks -/

/-- The common checks pass exactly when the command is ready. -/
theorem preCheck_eq_none_iff (C : Config) (i : Instr) (s : State) : preCheck C (useOf i) s = none ↔ Ready C i s := by
  have hash_iff (o : Option Sel) : (o.all fun h => (C.hashes h).isSome) = true ↔
      ∀ h, o = some h → (C.hashes h).isSome = true := by
    cases o <;> simp
  unfold preCheck
  constructor
  · intro h
    split at h
    · cases h
    split at h
    · cases h
    split at h
    · cases h
    split at h
    · cases h
    split at h
    · cases h
    next h1 h2 h3 h4 h5 =>
    refine ⟨by simpa using h1, (hash_iff _).mp (Bool.not_eq_false _ ▸ h2), by simpa using h3, by simpa using h4,
      fun he => ?_⟩
    by_contra hlt
    exact h5 ⟨he, by omega⟩
  · rintro ⟨h1, h2, h3, h4, h5⟩
    rw [if_neg (by simp [h1]), if_neg (by simp [(hash_iff _).mpr h2]), if_neg (by simp [h3]), if_neg (by simpa using h4),
      if_neg]
    rintro ⟨he, hlt⟩
    exact absurd (h5 he) (by omega)

/-- A command is ready when it passes steps 2 to 4 of R95 and step 5. -/
theorem ready_iff (C : Config) (i : Instr) (s : State) : Ready C i s ↔ Legal C i s ∧ Sized C i s :=
  ⟨fun h => ⟨⟨h.flags, h.hash, h.slot⟩, h.lens, h.embits⟩, fun h => ⟨h.1.1, h.1.2.1, h.1.2.2, h.2.1, h.2.2⟩⟩

/-- The common checks report E_ILLEGAL or E_PARAM and nothing else. -/
theorem preCheck_codes {C : Config} {u : Use} {s : State} {e : Err} (h : preCheck C u s = some e) :
    e = .illegal ∨ e = .param := by
  unfold preCheck at h
  repeat' split at h
  all_goals cases h
  all_goals simp

/-- What the common checks answer: E_ILLEGAL for a command that fails steps 2 to 4 of R95, E_PARAM for one that fails step 5
alone. -/
theorem preCheck_of_not_legal {C : Config} {i : Instr} {s : State} (h : ¬ Legal C i s) :
    preCheck C (useOf i) s = some .illegal := by
  unfold preCheck
  split
  · rfl
  split
  · rfl
  split
  · rfl
  next h1 h2 h3 =>
  refine absurd ⟨by simpa using h1, fun x hx => ?_, by simpa using h3⟩ h
  have h2' : ((useOf i).hash.all fun h => (C.hashes h).isSome) = true := by simpa using h2
  rw [hx] at h2'
  exact h2'

/-- See `preCheck_of_not_legal`. -/
theorem preCheck_of_not_sized {C : Config} {i : Instr} {s : State} (hl : Legal C i s) (h : ¬ Sized C i s) :
    preCheck C (useOf i) s = some .param := by
  unfold preCheck
  have hh : ((useOf i).hash.all fun h => (C.hashes h).isSome) = true := by
    cases ho : (useOf i).hash with
    | none => rfl
    | some x => exact hl.2.1 x ho
  rw [if_neg (by simp [hl.1]), if_neg (by simp [hh]), if_neg (by simp [hl.2.2])]
  split
  · rfl
  split
  · rfl
  next h4 h5 =>
  refine absurd ⟨by simpa using h4, fun he => ?_⟩ h
  by_contra hlt
  exact h5 ⟨he, by omega⟩

/-- A ready command answers with its own rule. -/
theorem guarded_of_ready {C : Config} {i : Instr} {s : State} (h : Ready C i s) (own : Result) :
    guarded C (useOf i) s own = own := by
  rw [guarded, (preCheck_eq_none_iff C i s).mpr h]

/-- A command that is not ready answers with the code of the first common check that fails. -/
theorem guarded_of_not_ready {C : Config} {i : Instr} {s : State} (h : ¬ Ready C i s) :
    ∃ e, preCheck C (useOf i) s = some e ∧ ∀ own, guarded C (useOf i) s own = .error e 0 := by
  cases hp : preCheck C (useOf i) s with
  | none => exact absurd ((preCheck_eq_none_iff C i s).mp hp) h
  | some e => exact ⟨e, rfl, fun own => by rw [guarded, hp]⟩

/-! ## Completion -/

@[simp] theorem draws_zero (s : State) : s.draws 0 = s := rfl

@[simp] theorem complete_error (e : Err) (u : Nat) (s : State) : complete (.error e u) s = raise e (s.draws u) := rfl

@[simp] theorem complete_done (out aux : Bytes) (u : Nat) (s : State) :
    complete (.done out aux u) s = deliver out aux (s.draws u) := rfl

/-- A completion raises an error or delivers two strings. -/
theorem complete_cases (r : Result) (s : State) :
    (∃ e u, r = .error e u ∧ complete r s = raise e (s.draws u)) ∨
      ∃ out aux u, r = .done out aux u ∧ complete r s = deliver out aux (s.draws u) := by
  cases r with
  | error e u => exact .inl ⟨e, u, rfl, rfl⟩
  | done out aux u => exact .inr ⟨out, aux, u, rfl, rfl⟩

@[simp] theorem inDomain_of_lt {r n used : Nat} {rest : Result} (h : r < n) : inDomain r n used rest = rest := by
  simp [inDomain, Nat.not_le.mpr h]

@[simp] theorem inDomain_of_le {r n used : Nat} {rest : Result} (h : n ≤ r) : inDomain r n used rest = .error .domain used := by
  simp [inDomain, h]

/-! ## Key loads -/

/-- A key load ends with an error that changes no slot, or installs the key it constructs. -/
theorem loadKey_cases {α : Type} (C : Config) (u : Use) (key : Option α) (install : α → State → State) (s : State) :
    (∃ e, (preCheck C u s = some e ∨ (preCheck C u s = none ∧ key = none ∧ e = .param)) ∧
      loadKey C u key install s = raise e s) ∨
    ∃ K, preCheck C u s = none ∧ key = some K ∧ loadKey C u key install s = deliver [] [] (install K s) := by
  cases hp : preCheck C u s with
  | some e => exact .inl ⟨e, .inl rfl, by simp [loadKey, hp]⟩
  | none =>
    cases key with
    | none => exact .inl ⟨.param, .inr ⟨rfl, rfl, rfl⟩, by simp [loadKey, hp]⟩
    | some K => exact .inr ⟨K, rfl, rfl, by simp [loadKey, hp]⟩

theorem newPub_some {C : Config} {s : State} {K : PubSlot} (h : newPub C s = some K) :
    s.intOperand .kn ≠ 0 ∧ s.intOperand .ke ≠ 0 ∧ modulusFits C (bitlen (s.intOperand .kn)) = true ∧
      K = ⟨true, s.intOperand .kn, s.intOperand .ke, bitlen (s.intOperand .kn), ceil8 (bitlen (s.intOperand .kn))⟩ := by
  unfold newPub at h
  grind

theorem newPriv_some {C : Config} {s : State} {K : PrivSlot} (h : newPriv C s = some K) :
    s.intOperand .kn ≠ 0 ∧ s.intOperand .ke ≠ 0 ∧ modulusFits C (bitlen (s.intOperand .kn)) = true ∧
      K = ⟨true, s.intOperand .kn, s.intOperand .ke, s.intOperand .kd, bitlen (s.intOperand .kn),
        ceil8 (bitlen (s.intOperand .kn))⟩ := by
  unfold newPriv at h
  grind

theorem newCrt_some {C : Config} {s : State} {K : CrtSlot} (h : newCrt C s = some K) :
    s.intOperand .kp ≠ 0 ∧ s.intOperand .kq ≠ 0 ∧
      modulusFits C (bitlen (s.intOperand .kp * s.intOperand .kq)) = true ∧
      K = ⟨true, s.intOperand .kp, s.intOperand .kq, s.intOperand .kdp, s.intOperand .kdq, s.intOperand .kqinv,
        s.intOperand .kp * s.intOperand .kq, bitlen (s.intOperand .kp * s.intOperand .kq),
        ceil8 (bitlen (s.intOperand .kp * s.intOperand .kq))⟩ := by
  unfold newCrt at h
  grind

theorem modulusFits_iff (C : Config) (k : Nat) :
    modulusFits C k = true ↔ (∀ m, C.maxK = some m → k ≤ m) ∧ ceil8 k ≤ C.maxBuf := by
  unfold modulusFits
  cases C.maxK <;> simp

/-! ## Dispatch -/

/-- `exec` is the completion in the configuration of this machine. -/
theorem exec_eq_runAt (i : Instr) (s : State) : exec i s = .next (runAt cfg i s) := by
  cases i <;> rfl

/-- Every command but the four that write key slots makes its common checks (R96) and then completes with one result. -/
theorem runAt_eq_complete (C : Config) (i : Instr) (s : State) (h : isKeyCommand i = false) :
    ∃ own, runAt C i s = complete (guarded C (useOf i) s own) s := by
  cases i <;> first | exact absurd h.symm Bool.false_ne_true | exact ⟨_, rfl⟩ | exact ⟨.done [] [] 0, rfl⟩

/-- A ready command that writes no slot completes with the result of its own rule. -/
theorem runAt_cases (C : Config) (i : Instr) (s : State) (h : isKeyCommand i = false) :
    (∃ e u, runAt C i s = raise e (s.draws u)) ∨ ∃ out aux u, runAt C i s = deliver out aux (s.draws u) := by
  obtain ⟨own, hr⟩ := runAt_eq_complete C i s h
  rw [hr]
  rcases complete_cases (guarded C (useOf i) s own) s with ⟨e, u, -, h'⟩ | ⟨o, a, u, -, h'⟩
  · exact .inl ⟨e, u, h'⟩
  · exact .inr ⟨o, a, u, h'⟩

/-- Every command ends DONE. -/
@[simp] theorem runAt_phase (C : Config) (i : Instr) (s : State) : (runAt C i s).phase = .done := by
  cases hk : isKeyCommand i with
  | false => rcases runAt_cases C i s hk with ⟨e, u, h⟩ | ⟨o, a, u, h⟩ <;> simp [h]
  | true =>
    have load {α : Type} (u : Use) (key : Option α) (f : α → State → State) : (loadKey C u key f s).phase = .done := by
      rcases loadKey_cases C u key f s with ⟨e, -, h⟩ | ⟨K, -, -, h⟩ <;> simp [h]
    cases i <;> first | exact load _ _ _ | rfl | exact absurd hk Bool.false_ne_true

/-! ## Steps -/

theorem step_eq_stepAt (s : State) : step s = stepAt cfg s := by
  unfold step stepAt
  congr 1
  funext i t
  exact exec_eq_runAt i t

/-- What a step can do: the engine idles, completes a command, or ends an illegal word; a reset; a host read; a host write. -/
theorem stepAt_cases {C : Config} {s t : State} (h : stepAt C s = .next t) :
    (∃ r, (s.inputs = [] ∧ r = [] ∨ s.inputs = .engine :: r) ∧
      ((s.phase ≠ .busy ∧ t = { s with inputs := r }) ∨
       (∃ i, s.phase = .busy ∧ decode s.cmd = .ok i ∧ t = runAt C i { s with inputs := r }) ∨
       (∃ x, s.phase = .busy ∧ decode s.cmd = .error x ∧ t = raise .illegal { s with inputs := r }))) ∨
    (∃ r, s.inputs = .reset :: r ∧ t = hardReset { s with inputs := r }) ∨
    (∃ r a n, s.inputs = .read a n :: r ∧ t = { s with inputs := r, resp := some (busRead C s a n) }) ∨
    (∃ r a n v, s.inputs = .write a n v :: r ∧
      t = { busWrite C s a n v with inputs := r, resp := some (busWriteResponse C a n) }) := by
  have engine (r : List HostEvent) (s0 : State) (h : engineMove (fun i u => .next (runAt C i u)) s0 = .next t) :
      (s0.phase ≠ .busy ∧ t = s0) ∨ (∃ i, s0.phase = .busy ∧ decode s0.cmd = .ok i ∧ t = runAt C i s0) ∨
      (∃ x, s0.phase = .busy ∧ decode s0.cmd = .error x ∧ t = raise .illegal s0) := by
    unfold engineMove at h
    split at h
    · next hb =>
      unfold engineTurn at h
      cases hd : decode s0.cmd with
      | ok i => rw [hd] at h; injection h with h; exact .inr (.inl ⟨i, hb, rfl, h.symm⟩)
      | error x => rw [hd] at h; injection h with h; exact .inr (.inr ⟨x, hb, rfl, h.symm⟩)
    · next hb => injection h with h; exact .inl ⟨hb, h.symm⟩
  unfold stepAt stepWith at h
  split at h
  · next hi =>
    refine .inl ⟨[], .inl ⟨hi, rfl⟩, ?_⟩
    have hs : { s with inputs := [] } = s := by rw [← hi]
    rw [hs]
    exact engine [] s h
  · next r hi => exact .inl ⟨r, .inr hi, engine r _ h⟩
  · next r hi => injection h with h; exact .inr (.inl ⟨r, hi, h.symm⟩)
  · next a n r hi => injection h with h; exact .inr (.inr (.inl ⟨r, a, n, hi, h.symm⟩))
  · next a n v r hi => injection h with h; exact .inr (.inr (.inr ⟨r, a, n, v, hi, h.symm⟩))

/-! ## Ready commands and the invariant -/

/-- A key load that the common checks turn away. -/
theorem loadKey_of_preCheck {α : Type} {C : Config} {u : Use} {s : State} {e : Err} (h : preCheck C u s = some e)
    (k : Option α) (f : α → State → State) : loadKey C u k f s = raise e s := by
  simp [loadKey, h]

/-- A command that the common checks turn away. -/
theorem runAt_of_preCheck {C : Config} {i : Instr} {s : State} {e : Err} (h : preCheck C (useOf i) s = some e) :
    runAt C i s = raise e s := by
  cases hk : isKeyCommand i with
  | false =>
    obtain ⟨own, ho⟩ := runAt_eq_complete C i s hk
    rw [ho, guarded, h]; rfl
  | true =>
    cases i <;> first | exact absurd hk Bool.false_ne_true | exact loadKey_of_preCheck h _ _ |
      (exfalso; revert h; simp [useOf, preCheck, State.slotValid])

/-- A ready command ends with its own result. -/
theorem runAt_of_ready {C : Config} {i : Instr} {s : State} (hr : Ready C i s) (own : Result)
    (h : runAt C i s = complete (guarded C (useOf i) s own) s) :
    runAt C i s = complete own s := by rwa [guarded_of_ready hr] at h

/-- A ready command ends with its own result, in `exec`. -/
theorem exec_of_ready {i : Instr} {s : State} (hr : Ready cfg i s) (own : Result)
    (h : runAt cfg i s = complete (guarded cfg (useOf i) s own) s) :
    exec i s = .next (complete own s) := by rw [exec_eq_runAt, runAt_of_ready hr own h]

/-- An operand of at most `m` octets, as an integer. -/
theorem intOperand_lt {s : State} {b : BufId} {m : Nat} (h : (s.len b).toNat ≤ m) : s.intOperand b < 2 ^ (8 * m) := by
  have hX := os2ip_lt (s.operand b)
  rw [show (256 : Nat) = 2 ^ 8 from rfl, ← pow_mul] at hX
  refine lt_of_lt_of_le hX (Nat.pow_le_pow_right (by decide) (Nat.mul_le_mul_left 8 ?_))
  simpa [State.operand, Memory.bytes] using h

/-- A ready key load installs the key it constructs, or ends with E_PARAM. -/
theorem loadKey_of_ready {α : Type} {C : Config} {i : Instr} {s : State} (hr : Ready C i s) (key : Option α)
    (install : α → State → State) :
    loadKey C (useOf i) key install s = key.elim (raise .param s) fun K => deliver [] [] (install K s) := by
  cases key <;> simp [loadKey, (preCheck_eq_none_iff C i s).mpr hr]

/-- A valid public slot under the invariant. -/
theorem pub_of_inv {C : Config} {s : State} (hI : Inv C s) (hv : s.pub.valid = true) :
    1 ≤ s.pub.n ∧ 1 ≤ s.pub.e ∧ s.pub.k = bitlen s.pub.n ∧ s.pub.klen = ceil8 s.pub.k ∧ s.pub.klen ≤ C.maxBuf := by
  have := hI.pub
  simp only [PubSlot.Ok, hv, if_true] at this
  exact ⟨this.1, this.2.1, this.2.2.1, this.2.2.2.1, this.2.2.2.2.1⟩

/-- A valid private slot under the invariant, and the range of its powers. -/
theorem privMod_of_inv {C : Config} {s : State} {crt : Bool} (hI : Inv C s) (hv : s.slotValid (.priv crt) = true) :
    1 ≤ (s.privMod crt).n ∧ (s.privMod crt).k = bitlen (s.privMod crt).n ∧
      (s.privMod crt).klen = ceil8 (s.privMod crt).k ∧ (s.privMod crt).klen ≤ C.maxBuf ∧
      ∀ c, privPower s crt c < (s.privMod crt).n := by
  cases crt with
  | false =>
    have := hI.priv
    have hv' : s.priv.valid = true := hv
    simp only [PrivSlot.Ok, hv', if_true] at this
    obtain ⟨a, b, c, d, e, f⟩ := this
    exact ⟨a, c, d, e, fun c => Nat.mod_lt _ a⟩
  | true =>
    have := hI.crt
    have hv' : s.crt.valid = true := hv
    simp only [CrtSlot.Ok, hv', if_true] at this
    obtain ⟨a, b, c, d, e, f, g⟩ := this
    refine ⟨?_, d, e, f, ?_⟩
    · show 1 ≤ s.crt.n
      rw [c]; exact Nat.mul_pos a b
    intro x
    show privPower s true x < s.crt.n
    rw [c]
    simp only [privPower, if_true]
    set m1 := (x % s.crt.p) ^ s.crt.dP % s.crt.p
    have h2 : (x % s.crt.q) ^ s.crt.dQ % s.crt.q < s.crt.q := Nat.mod_lt _ b
    set m2 := (x % s.crt.q) ^ s.crt.dQ % s.crt.q
    have hl : ((s.crt.qInv : Int) * ((m1 : Int) - (m2 : Int)) % (s.crt.p : Int)).toNat < s.crt.p := by
      have := Int.emod_nonneg ((s.crt.qInv : Int) * ((m1 : Int) - (m2 : Int))) (b := (s.crt.p : Int))
        (by exact_mod_cast (by omega))
      have := Int.emod_lt_of_pos ((s.crt.qInv : Int) * ((m1 : Int) - (m2 : Int))) (b := (s.crt.p : Int))
        (by exact_mod_cast a)
      omega
    generalize ((s.crt.qInv : Int) * ((m1 : Int) - (m2 : Int)) % (s.crt.p : Int)).toNat = hh at hl
    calc m2 + s.crt.q * hh < s.crt.q + s.crt.q * hh := by omega
      _ = s.crt.q * (hh + 1) := by ring
      _ ≤ s.crt.q * s.crt.p := Nat.mul_le_mul_left _ hl
      _ = s.crt.p * s.crt.q := Nat.mul_comm ..

end Sys2Proof.Machine
end

