-- ==== Sys2Proof/Laws/Bus.lean ====
section
/-! SUPPORT. The bus: what an address is (R60, R61, R63), what a read and a write of a register is, and runs of the core. -/

namespace Sys2Proof.Machine

/-- The first buffer stands at 0x100 or above. -/
theorem bufStride_ge (C : Config) : 0x100 ≤ C.bufStride := le_trans (le_max_right _ _) C.stride_ge

/-- A buffer number is that of one buffer, 0 to 13. -/
theorem ofNum_eq_some {n : Nat} {b : BufId} (h : BufId.ofNum n = some b) : n = b.num ∧ n ≤ 13 := by
  unfold BufId.ofNum at h
  split at h <;> cases h <;> exact ⟨rfl, by omega⟩

/-- A 4-octet access at a register of the map is of that register. -/
theorem target_reg (C : Config) (a : Nat) (r : RegId) (h : regAt a = some r) (h4 : a % 4 = 0) (hl : a < 0x100) :
    target C a 4 = .reg r := by
  have := bufStride_ge C
  unfold target
  rw [if_pos ⟨rfl, h4, by omega⟩, h]

/-- A 4-octet access at an address of the register window that names no register is reserved. -/
theorem target_reserved (C : Config) (a : Nat) (h0 : 0x60 ≤ a) (h4 : a % 4 = 0) (hl : a < C.bufStride) :
    target C a 4 = .reserved := by
  unfold target
  rw [if_pos ⟨rfl, h4, hl⟩]
  have : regAt a = none := by
    unfold regAt
    split <;> first | rfl | omega
  rw [this]

/-- A 1-octet access inside a buffer is of that octet. -/
theorem target_octet (C : Config) (b : BufId) (i : Nat) (h : i < C.maxBuf) :
    target C ((b.num + 1) * C.bufStride + i) 1 = .octet b i := by
  have h0 := bufStride_ge C
  have h1 : C.maxBuf ≤ C.bufStride := le_trans (le_max_left _ _) C.stride_ge
  have hd : ((b.num + 1) * C.bufStride + i) / C.bufStride = b.num + 1 := by
    rw [Nat.add_comm, Nat.add_mul_div_right _ _ (by omega), Nat.div_eq_of_lt (by omega)]; omega
  have hm : ((b.num + 1) * C.bufStride + i) % C.bufStride = i := by
    rw [Nat.add_comm, Nat.add_mul_mod_self_right, Nat.mod_eq_of_lt (by omega)]
  have hle : C.bufStride ≤ (b.num + 1) * C.bufStride + i := by
    have : 1 * C.bufStride ≤ (b.num + 1) * C.bufStride := Nat.mul_le_mul_right _ (by omega)
    omega
  unfold target
  rw [if_neg (by omega), if_pos ⟨rfl, hle⟩, hd, Nat.add_sub_cancel, BufId.num_ofNum]
  simp only [hm, if_pos h]

/-- Every other access is of nothing. -/
theorem target_nothing (C : Config) (addr n : Nat) (h1 : ¬ (n = 4 ∧ addr % 4 = 0 ∧ addr < C.bufStride))
    (h2 : ¬ (n = 1 ∧ ∃ id i, id ≤ 13 ∧ i < C.maxBuf ∧ addr = (id + 1) * C.bufStride + i)) : target C addr n = .nothing := by
  have h0 := bufStride_ge C
  unfold target
  rw [if_neg h1]
  split
  · next h =>
    split
    · next b hb =>
      split
      · next hl =>
        exfalso; apply h2
        obtain ⟨e, l⟩ := ofNum_eq_some hb
        refine ⟨h.1, addr / C.bufStride - 1, addr % C.bufStride, l, hl, ?_⟩
        have hq : 1 ≤ addr / C.bufStride := (Nat.one_le_div_iff (by omega)).mpr h.2
        rw [Nat.sub_add_cancel hq, Nat.mul_comm]
        exact (Nat.div_add_mod _ _).symm
      · rfl
    · rfl
  · rfl

/-- A word is the word of its value. -/
theorem ofNat_self (w : Word) : BitVec.ofNat 32 w.toNat = w := by
  apply BitVec.eq_of_toNat_eq; simp

/-- Reading a register of the map. -/
theorem busRead_reg (C : Config) (s : State) (a : Nat) (r : RegId) (h : regAt a = some r) (h4 : a % 4 = 0)
    (hl : a < 0x100) : busRead C s a 4 = .word (readReg s r) := by
  unfold busRead; rw [target_reg C a r h h4 hl]

/-- Writing a register of the map outside BUSY. -/
theorem busWrite_reg (C : Config) (s : State) (hb : s.phase ≠ .busy) (v : Word) (a : Nat) (r : RegId)
    (h : regAt a = some r) (h4 : a % 4 = 0) (hl : a < 0x100) :
    busWrite C s a 4 v.toNat = regWrite s r v := by
  unfold busWrite; rw [target_reg C a r h h4 hl]
  show writeReg s r (BitVec.ofNat 32 v.toNat) = _
  rw [writeReg, if_neg hb, ofNat_self]

/-- R326: a write in BUSY changes nothing. -/
theorem busWrite_busy (C : Config) (s : State) (hb : s.phase = .busy) (a n v : Nat) : busWrite C s a n v = s := by
  unfold busWrite
  split
  · rw [writeReg, if_pos hb]
  · rfl
  · rw [writeOctet, if_pos (.inl hb)]
  · rfl

/-- A run of the core goes on from its first step's state. -/
theorem core_run_succ (k : Nat) (s t : State) (h : step s = .next t) :
    Host.Core.run Sys2Proof.core (k + 1) s = Host.Core.run Sys2Proof.core k t := by
  simp only [Host.Core.run, show Sys2Proof.core.step s = .next t from h]

end Sys2Proof.Machine
end

