-- ==== Sys2Proof/Laws/Decode.lean ====
section
/-! SUPPORT. What a word that decodes has passed (R95 steps 1 to 3), said once. -/

namespace Sys2Proof

/-- A word decodes to a command exactly when its opcode has a row and it passes the row's checks; the command is the row's. -/
theorem decode_eq_ok_iff (w : Word) (i : Instr) :
    decode w = .ok i ↔ ∃ row, opRow (fieldsOf w).opc.toNat = some row ∧ (fieldsOf w).reserved = 0 ∧
      row.flagsUsed (fieldsOf w) = true ∧ saltFlagsLegal (fieldsOf w).ss (fieldsOf w).sld = true ∧
      (row.hash = true ∨ (fieldsOf w).hsel = 0) ∧ i = row.build (fieldsOf w) := by
  unfold decode
  cases hr : opRow (fieldsOf w).opc.toNat with
  | none => simp [hr]
  | some row =>
    have hrow : (∃ r, some row = some r ∧ (fieldsOf w).reserved = 0 ∧ r.flagsUsed (fieldsOf w) = true ∧
        saltFlagsLegal (fieldsOf w).ss (fieldsOf w).sld = true ∧ (r.hash = true ∨ (fieldsOf w).hsel = 0) ∧
        i = r.build (fieldsOf w)) ↔ ((fieldsOf w).reserved = 0 ∧ row.flagsUsed (fieldsOf w) = true ∧
        saltFlagsLegal (fieldsOf w).ss (fieldsOf w).sld = true ∧ (row.hash = true ∨ (fieldsOf w).hsel = 0) ∧
        i = row.build (fieldsOf w)) :=
      ⟨fun ⟨r, h, h'⟩ => by injection h with h; subst h; exact h', fun h => ⟨row, rfl, h⟩⟩
    rw [hrow]
    simp only [hr]
    split
    · next h => exact ⟨nofun, fun hc => absurd hc.1 h⟩
    split
    · next h => simp [h]
    split
    · next h => simp [h]
    split
    · next h => exact ⟨nofun, fun hc => (hc.2.2.2.1.elim (fun hh => by simp [h.1] at hh) h.2).elim⟩
    next h1 h2 h3 h4 =>
    simp only [ne_eq, not_not] at h1
    rw [not_and_or, Bool.not_eq_false, not_not] at h4
    simp only [Bool.not_eq_false] at h2 h3
    simp only [h1, h2, h3, h4, true_and, Except.ok.injEq]
    exact eq_comm

end Sys2Proof
end

