-- ==== Sys2Proof/Laws/Encodings.lean ====
section
/-! SUPPORT. The lengths of the encodings and of their parts, and what bounds their integer value. -/

namespace Sys2Proof.Machine

theorem hLen_pos {C : Config} {sel : Sel} (h : (C.hashes sel).isSome = true) : 1 ≤ hLen C sel := by
  obtain ⟨row, hr⟩ := Option.isSome_iff_exists.mp h
  simpa [hLen, hr] using row.hLen_pos

theorem length_hash {C : Config} {sel : Sel} (h : (C.hashes sel).isSome = true) (X : Bytes) :
    (C.hash sel X).length = hLen C sel := by
  obtain ⟨row, hr⟩ := Option.isSome_iff_exists.mp h
  simpa [hLen, hr] using C.hash_length sel row X hr

theorem length_digestInfo {C : Config} {sel : Sel} (h : (C.hashes sel).isSome = true) (X : Bytes) :
    (C.digestInfo sel (C.hash sel X)).length = C.tLen sel := by
  obtain ⟨row, hr⟩ := Option.isSome_iff_exists.mp h
  exact C.digestInfo_length sel row _ hr (C.hash_length sel row X hr)

/-- The mask has the length asked for (R165). -/
theorem length_mgf1 {C : Config} {sel : Sel} (h : (C.hashes sel).isSome = true) (Z : Bytes) (l : Nat) :
    (mgf1 C sel Z l).length = l := by
  have hp := hLen_pos h
  have hall : ∀ b, ((List.range b).flatMap fun i => C.hash sel (Z ++ i2os i 4)).length = b * hLen C sel := by
    intro b
    induction b with
    | zero => simp
    | succ b ih => simp [List.range_succ, ih, length_hash h, Nat.succ_mul]
  have hge : l ≤ (l + (hLen C sel - 1)) / hLen C sel * hLen C sel := by
    have := Nat.div_add_mod (l + (hLen C sel - 1)) (hLen C sel)
    have := Nat.mod_lt (l + (hLen C sel - 1)) hp
    rw [Nat.mul_comm]
    omega
  simp [mgf1, hall, hge]

theorem length_emeV15Encode (M PS : Bytes) : (emeV15Encode M PS).length = PS.length + M.length + 3 := by
  simp [emeV15Encode]
  omega

theorem length_oaepEncode {C : Config} {sel : Sel} (h : (C.hashes sel).isSome = true) {M L seed : Bytes} {klen : Nat}
    (hk : 2 * hLen C sel + 2 ≤ klen) (hs : seed.length = hLen C sel) :
    (oaepEncode C sel M L klen seed).length = klen := by
  simp only [oaepEncode, List.length_append, length_xorBytes, length_mgf1 h, length_hash h, length_copies,
    List.length_cons, List.length_nil, hs]
  omega

theorem length_emsaV15Encode {C : Config} {sel : Sel} (h : (C.hashes sel).isSome = true) {M : Bytes} {emLen : Nat}
    (he : C.tLen sel + 11 ≤ emLen) : (emsaV15Encode C sel M emLen).length = emLen := by
  simp only [emsaV15Encode, List.length_append, length_copies, length_digestInfo h, List.length_cons, List.length_nil]
  omega

theorem length_pssEncode {C : Config} {sel : Sel} (h : (C.hashes sel).isSome = true) {M salt : Bytes} {emBits : Nat}
    (he : hLen C sel + salt.length + 2 ≤ ceil8 emBits) : (pssEncode C sel M emBits salt).length = ceil8 emBits := by
  simp only [pssEncode, List.length_append, length_clearTop, length_xorBytes, length_mgf1 h, length_hash h, length_copies,
    List.length_cons, List.length_nil]
  omega

theorem length_isoPssEm {C : Config} {sel : Sel} (h : (C.hashes sel).isSome = true) {M1 M2 salt T : Bytes} {k : Nat}
    (he : M1.length + salt.length + 1 + hLen C sel + T.length ≤ ceil8 (k - 1)) :
    (isoPssEm C sel M1 M2 salt k T).length = ceil8 (k - 1) := by
  simp only [isoPssEm, isoHash, List.length_append, length_clearTop, length_xorBytes, length_mgf1 h, length_hash h,
    length_copies, List.length_cons, List.length_nil]
  omega

/-- A string whose first octet is 0x00 is below the modulus whose octet length it has (R169, R174, R185, R187). -/
theorem os2ip_zero_cons_lt {X : Bytes} {n : Nat} (hn : 1 ≤ n) (hl : X.length + 1 = ceil8 (bitlen n)) :
    os2ip (0 :: X) < n := by
  have hb := bitlen_spec hn
  rw [os2ip_zero_cons]
  refine lt_of_lt_of_le (os2ip_lt X) (le_trans ?_ hb.2.1)
  rw [show (256 : Nat) = 2 ^ 8 from rfl, ← pow_mul]
  exact Nat.pow_le_pow_right (by omega) (by unfold ceil8 at hl; omega)

end Sys2Proof.Machine
end

