-- ==== Sys2Proof/Laws/Memory.lean ====
section
/-! SUPPORT. The laws of a buffer's memory: every operation keeps the canonical form, and reading after writing. -/

namespace Sys2Proof.Machine

@[simp] theorem Memory.read_nil (a : Nat) : Memory.read [] a = 0 := rfl

theorem Memory.read_cons (k : Nat) (v : Byte) (m : Memory) (a : Nat) :
    Memory.read ((k, v) :: m) a = if k = a then v else Memory.read m a := rfl

/-- The canonical form of a longer memory, cell by cell. -/
theorem Memory.wf_cons (c : Host.Cell) (m : Memory) :
    Memory.wf (c :: m) ↔ (∀ d ∈ m, c.1 < d.1) ∧ c.2 ≠ 0 ∧ Memory.wf m := by
  simp only [Memory.wf, List.pairwise_cons, List.forall_mem_cons]
  tauto

/-- An offset below every listed one reads as 0x00. -/
theorem Memory.read_of_lt {m : Memory} {a : Nat} (h : ∀ c ∈ m, a < c.1) : Memory.read m a = 0 := by
  induction m with
  | nil => rfl
  | cons c m ih =>
    obtain ⟨k, v⟩ := c
    have hk : a < k := h _ (List.mem_cons_self ..)
    rw [Memory.read_cons, if_neg (by omega), ih fun d hd => h d (List.mem_cons_of_mem _ hd)]

/-- A write lists no offset but the old ones and its own. -/
theorem Memory.mem_write {m : Memory} {a : Nat} {v : Byte} {c : Host.Cell} (hc : c ∈ Memory.write m a v) :
    c ∈ m ∨ (c = (a, v) ∧ v ≠ 0) := by
  induction m with
  | nil =>
    simp only [Memory.write] at hc
    split at hc
    · cases hc
    · next hv => exact .inr ⟨List.mem_singleton.mp hc, hv⟩
  | cons d m ih =>
    obtain ⟨k, w⟩ := d
    simp only [Memory.write] at hc
    split at hc
    · rcases List.mem_cons.mp hc with rfl | hc
      · exact .inl (List.mem_cons_self ..)
      · exact (ih hc).imp_left (List.mem_cons_of_mem _)
    · split at hc <;> split at hc
      · exact .inl (List.mem_cons_of_mem _ hc)
      · next hv =>
        rcases List.mem_cons.mp hc with rfl | hc
        · exact .inr ⟨rfl, hv⟩
        · exact .inl (List.mem_cons_of_mem _ hc)
      · exact .inl hc
      · next hv =>
        rcases List.mem_cons.mp hc with rfl | hc
        · exact .inr ⟨rfl, hv⟩
        · exact .inl hc

/-- A write keeps the canonical form. -/
theorem Memory.write_wf {m : Memory} (a : Nat) (v : Byte) (h : m.wf) : (Memory.write m a v).wf := by
  induction m with
  | nil =>
    simp only [Memory.write]
    split <;> simp_all [Memory.wf]
  | cons d m ih =>
    obtain ⟨k, w⟩ := d
    obtain ⟨hlt, hw, hm⟩ := (Memory.wf_cons _ _).mp h
    simp only [Memory.write]
    split
    · next hka =>
      refine (Memory.wf_cons _ _).mpr ⟨fun c hc => ?_, hw, ih hm⟩
      rcases Memory.mem_write hc with hc | ⟨rfl, _⟩
      · exact hlt c hc
      · exact hka
    · split
      · next hka => subst hka; split
                    · exact hm
                    · next hv => exact (Memory.wf_cons _ _).mpr ⟨hlt, hv, hm⟩
      · split
        · exact h
        · next hv =>
          refine (Memory.wf_cons _ _).mpr ⟨fun c hc => ?_, hv, h⟩
          rcases List.mem_cons.mp hc with rfl | hc
          · show a < k; omega
          · have := hlt c hc; show a < c.1; simp only at this; omega

/-- A write inside the buffer stays inside it. -/
theorem Memory.write_below {m : Memory} {n a : Nat} (v : Byte) (h : m.below n) (ha : a < n) :
    (Memory.write m a v).below n := by
  intro c hc
  rcases Memory.mem_write hc with hc | ⟨rfl, _⟩
  · exact h c hc
  · exact ha

/-- Reading after writing. -/
theorem Memory.read_write {m : Memory} (a : Nat) (v : Byte) (b : Nat) (h : m.wf) :
    Memory.read (Memory.write m a v) b = if a = b then v else Memory.read m b := by
  induction m with
  | nil =>
    simp only [Memory.write]
    split <;> simp_all [Memory.read_cons]
  | cons d m ih =>
    obtain ⟨k, w⟩ := d
    obtain ⟨hlt, hw, hm⟩ := (Memory.wf_cons _ _).mp h
    have habove : k = a → a = b → Memory.read m b = 0 := by
      rintro rfl rfl
      exact Memory.read_of_lt hlt
    have hbefore : a < k → a = b → Memory.read m b = 0 := by
      rintro hak rfl
      exact Memory.read_of_lt fun c hc => lt_trans hak (hlt c hc)
    simp only [Memory.write]
    split
    · next hka =>
      rw [Memory.read_cons, Memory.read_cons, ih hm]
      split
      · next hkb => rw [if_neg (by omega)]
      · rfl
    · split
      · next hka =>
        subst hka
        split
        · next hv => rw [Memory.read_cons]; split
                     · next hkb => rw [hv, habove rfl hkb]
                     · rfl
        · rw [Memory.read_cons, Memory.read_cons]; split <;> rfl
      · split
        · next hv =>
          split
          · next hab => rw [Memory.read_cons, if_neg (by omega), hv, hbefore (by omega) hab]
          · rfl
        · rw [Memory.read_cons]

/-- The cells of a string from an offset on. -/
theorem Memory.mem_ofBytesFrom {i : Nat} {X : Bytes} {c : Host.Cell} (hc : c ∈ Memory.ofBytesFrom i X) :
    i ≤ c.1 ∧ c.1 < i + X.length ∧ c.2 ≠ 0 := by
  induction X generalizing i with
  | nil => cases hc
  | cons b X ih =>
    simp only [Memory.ofBytesFrom] at hc
    split at hc
    · obtain ⟨h1, h2, h3⟩ := ih hc
      exact ⟨by omega, by rw [List.length_cons]; omega, h3⟩
    · next hb =>
      rcases List.mem_cons.mp hc with rfl | hc
      · exact ⟨le_rfl, by simp, hb⟩
      · obtain ⟨h1, h2, h3⟩ := ih hc
        exact ⟨by omega, by rw [List.length_cons]; omega, h3⟩

theorem Memory.ofBytesFrom_wf (i : Nat) (X : Bytes) : (Memory.ofBytesFrom i X).wf := by
  induction X generalizing i with
  | nil => simp [Memory.ofBytesFrom, Memory.wf]
  | cons b X ih =>
    simp only [Memory.ofBytesFrom]
    split
    · exact ih _
    · next hb => exact (Memory.wf_cons _ _).mpr ⟨fun c hc => (Memory.mem_ofBytesFrom hc).1, hb, ih _⟩

/-- The memory of a string is in canonical form. -/
theorem Memory.ofBytes_wf (X : Bytes) : (Memory.ofBytes X).wf := Memory.ofBytesFrom_wf 0 X

/-- The memory of a string lists no octet past it. -/
theorem Memory.ofBytes_below (X : Bytes) : (Memory.ofBytes X).below X.length := by
  intro c hc
  simpa using (Memory.mem_ofBytesFrom hc).2.1

theorem Memory.read_ofBytesFrom (i : Nat) (X : Bytes) (a : Nat) :
    Memory.read (Memory.ofBytesFrom i X) (i + a) = X.getD a 0 := by
  induction X generalizing i a with
  | nil => rfl
  | cons b X ih =>
    cases a with
    | zero =>
      simp only [Memory.ofBytesFrom, List.getD_cons_zero]
      split
      · next hb => rw [hb]; exact Memory.read_of_lt fun c hc => by have := (Memory.mem_ofBytesFrom hc).1; omega
      · rw [Memory.read_cons, if_pos (by omega)]
    | succ a =>
      have := ih (i + 1) a
      rw [show i + 1 + a = i + (a + 1) by omega] at this
      simp only [Memory.ofBytesFrom, List.getD_cons_succ]
      split
      · exact this
      · rw [Memory.read_cons, if_neg (by omega)]; exact this

/-- The memory of a string reads as the string, then as 0x00. -/
@[simp] theorem Memory.read_ofBytes (X : Bytes) (a : Nat) : Memory.read (Memory.ofBytes X) a = X.getD a 0 := by
  have := Memory.read_ofBytesFrom 0 X a
  rwa [Nat.zero_add] at this

/-- Reading a string back. -/
theorem Memory.bytes_ofBytes (X : Bytes) : Memory.bytes (Memory.ofBytes X) X.length = X := by
  refine List.ext_getElem (by simp [Memory.bytes]) fun i h1 h2 => ?_
  simp [Memory.bytes, h2]

/-- Two canonical memories with the same octets are the same list. -/
theorem Memory.ext_read {m m' : Memory} (h : m.wf) (h' : m'.wf) (hr : ∀ a, Memory.read m a = Memory.read m' a) : m = m' := by
  induction m generalizing m' with
  | nil =>
    cases m' with
    | nil => rfl
    | cons d m' =>
      obtain ⟨k, w⟩ := d
      have := hr k
      rw [Memory.read_cons, if_pos rfl] at this
      exact absurd this.symm ((Memory.wf_cons _ _).mp h').2.1
  | cons c m ih =>
    obtain ⟨k, v⟩ := c
    obtain ⟨hlt, hv, hm⟩ := (Memory.wf_cons _ _).mp h
    cases m' with
    | nil =>
      have := hr k
      rw [Memory.read_cons, if_pos rfl] at this
      exact absurd this hv
    | cons d m' =>
      obtain ⟨k', v'⟩ := d
      obtain ⟨hlt', hv', hm'⟩ := (Memory.wf_cons _ _).mp h'
      have hk := hr k
      have hk' := hr k'
      simp only [Memory.read_cons, if_pos] at hk hk'
      have hkk : k = k' := by
        rcases lt_trichotomy k k' with h1 | h1 | h1
        · rw [if_neg (by omega), Memory.read_of_lt fun c hc => lt_trans h1 (hlt' c hc)] at hk
          exact absurd hk hv
        · exact h1
        · rw [if_neg (by omega), Memory.read_of_lt fun c hc => lt_trans h1 (hlt c hc)] at hk'
          exact absurd hk'.symm hv'
      subst hkk
      have hvv : v = v' := by simpa using hk
      subst hvv
      congr 1
      refine ih hm hm' fun a => ?_
      by_cases hak : k = a
      · subst hak
        rw [Memory.read_of_lt hlt, Memory.read_of_lt hlt']
      · have := hr a
        rwa [Memory.read_cons, Memory.read_cons, if_neg hak, if_neg hak] at this

end Sys2Proof.Machine
end

