-- ==== Sys2Proof/Laws/Numbers.lean ====
section
/-! SUPPORT. The arithmetic of RSA, apart from the machine: powers modulo a prime, modulo two primes, of a complement, and
the formula of R122. -/

namespace Sys2Proof

/-- Fermat: modulo a prime `p`, exponents of at least 1 count modulo `p − 1`. -/
theorem pow_mod_prime {p : Nat} (hp : p.Prime) (x : Nat) {a b : Nat} (ha : 1 ≤ a) (hb : 1 ≤ b)
    (h : a % (p - 1) = b % (p - 1)) : x ^ a % p = x ^ b % p := by
  wlog hab : a ≤ b generalizing a b
  · exact (this hb ha h.symm (by omega)).symm
  obtain ⟨k, hk⟩ : ∃ k, b = a + (p - 1) * k := by
    have h2 : (p - 1) ∣ b - a := (Nat.modEq_iff_dvd' hab).mp h
    obtain ⟨k, hk⟩ := h2
    exact ⟨k, by omega⟩
  by_cases hx : p ∣ x
  · have e (c) (hc : 1 ≤ c) : x ^ c % p = 0 := Nat.mod_eq_zero_of_dvd (dvd_pow hx (by omega))
    rw [e a ha, e b hb]
  · have hc : Nat.Coprime x p := (hp.coprime_iff_not_dvd.mpr hx).symm
    have h1 : x ^ (p - 1) ≡ 1 [MOD p] := by
      have := Nat.ModEq.pow_totient hc
      rwa [Nat.totient_prime hp] at this
    rw [hk, pow_add, pow_mul]
    have h2 : (x ^ (p - 1)) ^ k ≡ 1 [MOD p] := by simpa using h1.pow k
    have h3 := h2.mul_left (x ^ a)
    rw [mul_one] at h3
    exact h3.symm

/-- Two residues modulo `p·q` that agree modulo `p` and modulo `q` are equal. -/
theorem eq_of_mod_primes {p q a b : Nat} (hp : p.Prime) (hq : q.Prime) (hpq : p ≠ q) (ha : a < p * q) (hb : b < p * q)
    (h1 : a % p = b % p) (h2 : a % q = b % q) : a = b := by
  have hc : Nat.Coprime p q := (Nat.coprime_primes hp hq).mpr hpq
  have h3 : a ≡ b [MOD p * q] := (Nat.modEq_and_modEq_iff_modEq_mul hc).mp ⟨h1, h2⟩
  have h4 : a % (p*q) = b % (p*q) := h3
  rwa [Nat.mod_eq_of_lt ha, Nat.mod_eq_of_lt hb] at h4

/-- The recombination of R122 gives the plain power. -/
theorem crt_formula {p q dP dQ d qInv c : Nat} (hp : p.Prime) (hq : q.Prime) (hpq : p ≠ q) (hd : 1 ≤ d) (hdP : 1 ≤ dP)
    (hdQ : 1 ≤ dQ) (h1 : dP % (p - 1) = d % (p - 1)) (h2 : dQ % (q - 1) = d % (q - 1)) (h3 : qInv * q % p = 1) :
    (c % q) ^ dQ % q + q * ((qInv : Int) * ((((c % p) ^ dP % p : Nat) : Int) - (((c % q) ^ dQ % q : Nat) : Int)) %
        (p : Int)).toNat =
      c ^ d % (p * q) := by
  have pp := hp.pos
  have qp := hq.pos
  set m1 := (c % p) ^ dP % p with hm1
  set m2 := (c % q) ^ dQ % q with hm2
  set hI := (qInv : Int) * ((m1 : Int) - (m2 : Int)) % (p : Int) with hhI
  have hI0 : 0 ≤ hI := Int.emod_nonneg _ (by exact_mod_cast pp.ne')
  have hIp : hI < p := Int.emod_lt_of_pos _ (by exact_mod_cast pp)
  have hlt : hI.toNat < p := by omega
  have e1 : m1 = c ^ d % p := by rw [hm1, ← Nat.pow_mod, pow_mod_prime hp c hdP hd h1]
  have e2 : m2 = c ^ d % q := by rw [hm2, ← Nat.pow_mod, pow_mod_prime hq c hdQ hd h2]
  have hm2q : m2 < q := Nat.mod_lt _ qp
  apply eq_of_mod_primes hp hq hpq
  · calc m2 + q * hI.toNat < q + q * hI.toNat := by omega
      _ = q * (hI.toNat + 1) := by ring
      _ ≤ q * p := Nat.mul_le_mul_left q hlt
      _ = p * q := Nat.mul_comm ..
  · exact Nat.mod_lt _ (Nat.mul_pos pp qp)
  · rw [Nat.mod_mul_right_mod, ← e1]
    have hm1p : m1 < p := Nat.mod_lt _ pp
    have : ((m2 + q * hI.toNat : Nat) : Int) % p = (m1 : Int) := by
      push_cast
      rw [Int.toNat_of_nonneg hI0, hhI, Int.add_emod, Int.mul_emod, Int.emod_emod, ← Int.mul_emod, ← Int.add_emod]
      have h3' : ((qInv : Int) * q) % p = 1 := by exact_mod_cast h3
      have : (m2 : Int) + q * (qInv * (m1 - m2)) = m2 + (qInv * q) * (m1 - m2) := by ring
      rw [this, Int.add_emod, Int.mul_emod, h3', one_mul, Int.emod_emod, ← Int.add_emod]
      rw [show (m2 : Int) + (m1 - m2) = m1 by ring]
      exact Int.emod_eq_of_lt (by omega) (by exact_mod_cast hm1p)
    exact_mod_cast this
  · rw [Nat.mod_mul_left_mod, ← e2, Nat.add_mul_mod_self_left, Nat.mod_eq_of_lt hm2q]

/-- Exponents with `E ≡ 1` modulo `p − 1` and `q − 1` invert modulo `p·q`. -/
theorem pow_mod_primes_self {p q E m : Nat} (hp : p.Prime) (hq : q.Prime) (hpq : p ≠ q) (hE : 1 ≤ E)
    (h1 : E % (p-1) = 1 % (p-1)) (h2 : E % (q-1) = 1 % (q-1)) (hm : m < p * q) :
    m ^ E % (p * q) = m := by
  apply eq_of_mod_primes hp hq hpq (Nat.mod_lt _ (Nat.mul_pos hp.pos hq.pos)) hm
  · rw [Nat.mod_mul_right_mod, pow_mod_prime hp m hE le_rfl h1, pow_one]
  · rw [Nat.mod_mul_left_mod, pow_mod_prime hq m hE le_rfl h2, pow_one]

/-- An odd power of a complement is the complement of the power, where that is not 0. -/
theorem sub_pow_mod {n S e : Nat} (hS : S < n) (he : e % 2 = 1) (hm : S ^ e % n ≠ 0) : (n - S) ^ e % n = n - S ^ e % n := by
  have hn : 0 < n := by omega
  have hlt := Nat.mod_lt (S ^ e) hn
  have h1 : (((n - S) ^ e % n : Nat) : Int) = ((n - S ^ e % n : Nat) : Int) := by
    rw [Nat.cast_sub hlt.le]
    push_cast
    rw [Nat.cast_sub hS.le]
    have h2 : ((n : Int) - S) ^ e ≡ (n : Int) - ((S : Int) ^ e % n) [ZMOD n] := by
      have h3 : ((n : Int) - S) ≡ - S [ZMOD n] := by
        have : ((n : Int) - S) = -S + n := by ring
        rw [this]; simp [Int.ModEq]
      have h4 := h3.pow e
      rw [(Nat.odd_iff.mpr he).neg_pow] at h4
      refine h4.trans ?_
      have h5 : -(S : Int) ^ e ≡ -((S:Int) ^ e % n) [ZMOD n] := (Int.mod_modEq _ _).symm.neg
      refine h5.trans ?_
      have : (n : Int) - ((S : Int) ^ e % n) = -((S:Int) ^ e % n) + n := by ring
      rw [this]; simp [Int.ModEq]
    have h6 : ((n : Int) - (S : Int) ^ e % n) % n = (n : Int) - (S : Int) ^ e % n := by
      have h7 : ((S ^ e % n : Nat) : Int) = (S : Int) ^ e % n := by push_cast; rfl
      rw [← h7]
      apply Int.emod_eq_of_lt <;> omega
    rw [← h6]
    exact h2
  exact_mod_cast h1

end Sys2Proof
end

