-- ==== Sys2Proof/Laws/PerInstr.lean ====
section
/-! SUPPORT. Per-instruction families of LAWS.json. RowPattern: the word of a command has the fixed bits of its row in
opcode_table.json, so it is a word of that row and of no other. -/

namespace Sys2Proof.Laws

/-- The encoded word masked by the row's mask is the row's match. -/
def RowPattern.Statement (i : Instr) : Prop := encode i &&& i.pattern.1 = i.pattern.2

theorem RowPattern.nop : RowPattern.Statement .nop := by
  unfold RowPattern.Statement; decide

theorem RowPattern.keyLoadPub : RowPattern.Statement .keyLoadPub := by
  unfold RowPattern.Statement; decide

theorem RowPattern.keyLoadPriv : RowPattern.Statement .keyLoadPriv := by
  unfold RowPattern.Statement; decide

theorem RowPattern.keyLoadCrt : RowPattern.Statement .keyLoadCrt := by
  unfold RowPattern.Statement; decide

theorem RowPattern.keyClear : RowPattern.Statement .keyClear := by
  unfold RowPattern.Statement; decide

theorem RowPattern.rsaep : RowPattern.Statement .rsaep := by
  unfold RowPattern.Statement; decide

theorem RowPattern.rsadp (a : Bool) : RowPattern.Statement (.rsadp a) := by
  revert a; unfold RowPattern.Statement; decide

theorem RowPattern.rsasp1 (a : Bool) : RowPattern.Statement (.rsasp1 a) := by
  revert a; unfold RowPattern.Statement; decide

theorem RowPattern.rsavp1 : RowPattern.Statement .rsavp1 := by
  unfold RowPattern.Statement; decide

theorem RowPattern.minsel : RowPattern.Statement .minsel := by
  unfold RowPattern.Statement; decide

theorem RowPattern.mgf1 (h : Sel) : RowPattern.Statement (.mgf1 h) := by
  revert h; unfold RowPattern.Statement; decide

theorem RowPattern.emeV15Encode : RowPattern.Statement .emeV15Encode := by
  unfold RowPattern.Statement; decide

theorem RowPattern.emeV15Decode : RowPattern.Statement .emeV15Decode := by
  unfold RowPattern.Statement; decide

theorem RowPattern.oaepEncode (h : Sel) : RowPattern.Statement (.oaepEncode h) := by
  revert h; unfold RowPattern.Statement; decide

theorem RowPattern.oaepDecode (h : Sel) : RowPattern.Statement (.oaepDecode h) := by
  revert h; unfold RowPattern.Statement; decide

theorem RowPattern.emsaV15Encode (h : Sel) : RowPattern.Statement (.emsaV15Encode h) := by
  revert h; unfold RowPattern.Statement; decide

theorem RowPattern.pssEncode (h : Sel) (a : Bool) (b : Bool) : RowPattern.Statement (.pssEncode h a b) := by
  revert h a b; unfold RowPattern.Statement; decide

theorem RowPattern.pssCheck (h : Sel) (a : Bool) : RowPattern.Statement (.pssCheck h a) := by
  revert h a; unfold RowPattern.Statement; decide

theorem RowPattern.esV15Encrypt : RowPattern.Statement .esV15Encrypt := by
  unfold RowPattern.Statement; decide

theorem RowPattern.esV15Decrypt (a : Bool) : RowPattern.Statement (.esV15Decrypt a) := by
  revert a; unfold RowPattern.Statement; decide

theorem RowPattern.esOaepEncrypt (h : Sel) : RowPattern.Statement (.esOaepEncrypt h) := by
  revert h; unfold RowPattern.Statement; decide

theorem RowPattern.esOaepDecrypt (h : Sel) (a : Bool) : RowPattern.Statement (.esOaepDecrypt h a) := by
  revert h a; unfold RowPattern.Statement; decide

theorem RowPattern.ssaV15Sign (h : Sel) (a : Bool) : RowPattern.Statement (.ssaV15Sign h a) := by
  revert h a; unfold RowPattern.Statement; decide

theorem RowPattern.ssaV15Verify (h : Sel) : RowPattern.Statement (.ssaV15Verify h) := by
  revert h; unfold RowPattern.Statement; decide

theorem RowPattern.ssaPssSign (h : Sel) (a : Bool) (b : Bool) (c : Bool) : RowPattern.Statement (.ssaPssSign h a b c) := by
  revert h a b c; unfold RowPattern.Statement; decide

theorem RowPattern.ssaPssVerify (h : Sel) (a : Bool) : RowPattern.Statement (.ssaPssVerify h a) := by
  revert h a; unfold RowPattern.Statement; decide

theorem RowPattern.ds1Sign (h : Sel) (a : Bool) (b : Bool) (c : Bool) : RowPattern.Statement (.ds1Sign h a b c) := by
  revert h a b c; unfold RowPattern.Statement; decide

theorem RowPattern.ds1Verify (h : Sel) : RowPattern.Statement (.ds1Verify h) := by
  revert h; unfold RowPattern.Statement; decide

theorem RowPattern.ds2Sign (h : Sel) (a : Bool) (b : Bool) (c : Bool) (d : Bool) (e : Bool) : RowPattern.Statement (.ds2Sign h a b c d e) := by
  revert h a b c d e; unfold RowPattern.Statement; decide

theorem RowPattern.ds2Verify (h : Sel) (a : Bool) : RowPattern.Statement (.ds2Verify h a) := by
  revert h a; unfold RowPattern.Statement; decide

theorem RowPattern.ds3Sign (h : Sel) (a : Bool) (b : Bool) (c : Bool) : RowPattern.Statement (.ds3Sign h a b c) := by
  revert h a b c; unfold RowPattern.Statement; decide

theorem RowPattern.ds3Verify (h : Sel) : RowPattern.Statement (.ds3Verify h) := by
  revert h; unfold RowPattern.Statement; decide

end Sys2Proof.Laws
end

