-- ==== Sys2Proof/Laws/Schemes.lean ====
section
/-! SUPPORT. What the decoders of the schemes accept: each accepts exactly what its encoder makes. -/

namespace Sys2Proof.Machine

/-! ## Masks and separators -/

/-- Masking twice with one mask gives the string back, but for the bits cleared. -/
theorem clearTop_xorBytes_clearTop (z : Nat) (X K : Bytes) (h : X.length ≤ K.length) :
    clearTop z (xorBytes (clearTop z (xorBytes X K)) K) = clearTop z X := by
  cases X with
  | nil => cases K <;> rfl
  | cons x X =>
    cases K with
    | nil => simp at h
    | cons k K =>
      have h' : X.length ≤ K.length := by simpa using h
      have := xorBytes_xorBytes X K h'
      simp only [xorBytes, List.zipWith_cons_cons, clearTop] at this ⊢
      rw [this]
      congr 1
      generalize (0xFF#8 >>> z) = f
      ext i hi
      simp
      cases x[i] <;> cases k[i] <;> cases f[i] <;> rfl

/-- The top bits are zero exactly when clearing them changes nothing. -/
theorem topIsZero_iff (z : Nat) (X : Bytes) : topIsZero z X = true ↔ clearTop z X = X := by
  cases X with
  | nil => simp [topIsZero, clearTop]
  | cons b X =>
    simp only [topIsZero, List.headD_cons, clearTop, beq_iff_eq, List.cons.injEq, and_true]
    generalize (0xFF#8 >>> z) = f
    constructor
    · intro h
      have : b = (b &&& f) ||| (b &&& ~~~f) := by
        ext i hi; simp; cases b[i] <;> cases f[i] <;> rfl
      rw [h] at this
      simpa using this.symm
    · intro h
      rw [← h]
      ext i hi; simp

/-- At most seven bits of the first octet stand above `emBits`. -/
theorem topZeros_le (e : Nat) : topZeros e ≤ 7 := by unfold topZeros ceil8; omega

/-- Zeros and a one octet have no bit to clear. -/
theorem clearTop_zeros_one (z j : Nat) (hz : z ≤ 7) (R : Bytes) :
    clearTop z (List.replicate j 0 ++ 1 :: R) = List.replicate j 0 ++ 1 :: R := by
  cases j with
  | zero => simp [clearTop]; interval_cases z <;> decide
  | succ j => simp [List.replicate_succ, clearTop]

/-- Skipping zeros stops at the first octet that is not zero. -/
theorem dropWhile_zeros (j : Nat) (b : Byte) (M : Bytes) (hb : b ≠ 0) :
    (List.replicate j (0:Byte) ++ b :: M).dropWhile (· == 0) = b :: M := by
  induction j with
  | zero => have : (b == 0) = false := by simpa using hb
            simp only [List.replicate_zero, List.nil_append, List.dropWhile_cons, this]; rfl
  | succ j ih => simpa [List.replicate_succ, List.dropWhile_cons] using ih

/-- What skipping zeros leaves, and what it skipped. -/
theorem dropWhile_zeros_inv (X : Bytes) (b : Byte) (M : Bytes) (h : X.dropWhile (· == 0) = b :: M) :
    b ≠ 0 ∧ ∃ j, X = List.replicate j (0:Byte) ++ b :: M := by
  induction X with
  | nil => simp at h
  | cons x X ih =>
    by_cases hx : x = 0
    · subst hx
      simp only [List.dropWhile_cons, beq_self_eq_true, if_true] at h
      obtain ⟨h1, j, rfl⟩ := ih h
      exact ⟨h1, j+1, by simp [List.replicate_succ]⟩
    · have : (x == 0) = false := by simpa using hx
      simp only [List.dropWhile_cons, this, Bool.false_eq_true, if_false] at h
      injection h with h1 h2
      subst h1 h2
      exact ⟨hx, 0, rfl⟩

/-! ## PKCS#1 -/

/-- The EME-PKCS1-v1_5 decoder accepts exactly the EM form, and gives its message. -/
theorem emeV15Decode_iff (EM M : Bytes) : emeV15Decode EM = some M ↔ EmeForm EM M := by
  unfold emeV15Decode EmeForm
  simp only []
  constructor
  · intro h
    split at h
    · next hc =>
      obtain ⟨h1, h2, h3, h4⟩ := hc
      injection h with h
      refine ⟨(EM.drop 2).takeWhile (· != 0), h4, ?_, ?_⟩
      · intro b hb
        have := List.mem_takeWhile_imp hb
        simpa using this
      · have e1 : EM = [0, 2] ++ EM.drop 2 := by conv_lhs => rw [← List.take_append_drop 2 EM, h2]
        have e2 : EM.drop 2 = (EM.drop 2).takeWhile (· != 0) ++ (EM.drop 2).dropWhile (· != 0) :=
          (List.takeWhile_append_dropWhile).symm
        set P := (EM.drop 2).takeWhile (· != 0)
        have e3 : (EM.drop 2).dropWhile (· != 0) = (EM.drop 2).drop P.length := by
          conv_rhs => rw [e2]
          simp
        have e4 : (EM.drop 2).drop P.length = 0 :: (EM.drop 2).drop (P.length + 1) := by
          rw [List.drop_eq_getElem_cons h3]
          congr 1
          have hne : (EM.drop 2).dropWhile (· != 0) ≠ [] := by
            rw [e3]; intro hn; have := congrArg List.length hn; simp at this h3; omega
          have := List.head_dropWhile_not (p := fun (x : Byte) => x != 0) (w := hne)
          have hh : ((EM.drop 2).dropWhile (· != 0)).head hne = (EM.drop 2)[P.length] := by
            simp only [e3, List.head_drop]
          rw [hh] at this
          simpa using this
        conv_lhs => rw [e1, e2, e3, e4, h]
        simp
    · cases h
  · rintro ⟨PS, h1, h2, rfl⟩
    have e : (PS ++ 0 :: M).takeWhile (· != (0:Byte)) = PS := by
      rw [List.takeWhile_append_of_pos]
      · simp
      · intro b hb; simpa using h2 b hb
    simp only [List.append_assoc, List.cons_append, List.nil_append, List.drop_succ_cons, List.drop_zero, e]
    rw [if_pos]
    · simp
    · simp; omega

/-- The OAEP decoder gives `M` exactly for the encodings of `M` under some seed. -/
theorem oaepDecode_iff {C : Config} {sel : Sel} (hs : (C.hashes sel).isSome = true) (EM L M : Bytes)
    (hk : 2 * hLen C sel + 2 ≤ EM.length) :
    oaepDecode C sel EM L = some M ↔ ∃ seed : Bytes, seed.length = hLen C sel ∧ M.length + 2 * hLen C sel + 2 ≤ EM.length ∧
      EM = oaepEncode C sel M L EM.length seed := by
  constructor
  · intro h
    unfold oaepDecode at h
    simp only [] at h
    set hl := hLen C sel
    set ms := (EM.drop 1).take hl with hms
    set mdb := EM.drop (1 + hl) with hmdb
    set seed := xorBytes ms (mgf1 C sel mdb hl) with hseed
    set DB := xorBytes mdb (mgf1 C sel seed (EM.length - hl - 1)) with hDB
    have lms : ms.length = hl := by simp [hms]; omega
    have lmdb : mdb.length = EM.length - hl - 1 := by simp [hmdb]; omega
    have lseed : seed.length = hl := by simp [hseed, lms, length_mgf1 hs]
    have lDB : DB.length = EM.length - hl - 1 := by simp [hDB, lmdb, length_mgf1 hs]
    split at h
    · cases h
    next sep M' hdw =>
    split at h
    · next hc =>
      injection h with h; subst h
      obtain ⟨h0, h1, rfl⟩ := hc
      obtain ⟨-, j, hj⟩ := dropWhile_zeros_inv _ _ _ hdw
      have hlDB := congrArg List.length hj
      simp only [List.length_drop, List.length_append, List.length_replicate, List.length_cons, lDB] at hlDB
      refine ⟨seed, lseed, by omega, ?_⟩
      have hDB' : DB = C.hash sel L ++ copies (EM.length - M'.length - 2 * hl - 2) 0x00 ++ [0x01] ++ M' := by
        conv_lhs => rw [← List.take_append_drop hl DB, h1, hj]
        have : j = EM.length - M'.length - 2 * hl - 2 := by omega
        rw [this]; simp [copies]
      have hmdb' : xorBytes DB (mgf1 C sel seed (EM.length - hl - 1)) = mdb := by
        rw [hDB, xorBytes_xorBytes]; rw [length_mgf1 hs, lmdb]
      have hms' : xorBytes seed (mgf1 C sel mdb hl) = ms := by
        rw [hseed, xorBytes_xorBytes]; rw [length_mgf1 hs, lms]
      unfold oaepEncode
      simp only []
      rw [← hDB', hmdb', hms']
      have hne : EM ≠ [] := by intro h; simp [h] at hk
      obtain ⟨x, EM', rfl⟩ := List.exists_cons_of_ne_nil hne
      simp at h0
      subst h0
      simp [hms, hmdb, Nat.add_comm 1]
    · cases h
  · rintro ⟨seed, hsd, hM, hE⟩
    set hl := hLen C sel
    unfold oaepEncode at hE
    simp only [] at hE
    set DB := C.hash sel L ++ copies (EM.length - M.length - 2 * hl - 2) 0x00 ++ [0x01] ++ M with hDB
    have lDB : DB.length = EM.length - hl - 1 := by
      simp only [hDB, List.length_append, length_copies, length_hash hs, List.length_cons, List.length_nil]; omega
    set mdb := xorBytes DB (mgf1 C sel seed (EM.length - hl - 1)) with hmdb
    set ms := xorBytes seed (mgf1 C sel mdb hl) with hms
    have lms : ms.length = hl := by simp [hms, hsd, length_mgf1 hs, hl]
    have e1 : (EM.drop 1).take hl = ms := by rw [hE]; simp [lms]
    have e2 : EM.drop (1 + hl) = mdb := by rw [hE]; rw [← lms]; simp [Nat.add_comm 1]
    have e3 : xorBytes ms (mgf1 C sel mdb hl) = seed := by
      rw [hms, xorBytes_xorBytes]; rw [length_mgf1 hs, hsd]
    have e4 : xorBytes mdb (mgf1 C sel seed (EM.length - hl - 1)) = DB := by
      rw [hmdb, xorBytes_xorBytes]; rw [length_mgf1 hs, lDB]
    have e5 : DB.drop hl = List.replicate (EM.length - M.length - 2 * hl - 2) 0 ++ 1 :: M := by
      rw [hDB, List.append_assoc, List.append_assoc, List.drop_append_of_le_length (by rw [length_hash hs])]
      rw [List.drop_of_length_le (by rw [length_hash hs])]; simp [copies]
    have e6 : DB.take hl = C.hash sel L := by
      rw [hDB, List.append_assoc, List.append_assoc, List.take_append_of_le_length (by rw [length_hash hs])]
      rw [List.take_of_length_le (by rw [length_hash hs])]
    have e7 : EM.headD 0xFF = 0 := by rw [hE]; rfl
    unfold oaepDecode
    simp only []
    show (match List.dropWhile (· == 0x00) (List.drop hl (xorBytes (EM.drop (1+hl))
      (mgf1 C sel (xorBytes (List.take hl (EM.drop 1)) (mgf1 C sel (EM.drop (1+hl)) hl)) (EM.length - hl - 1)))) with
      | [] => none
      | sep :: M => _) = _
    rw [e1, e2, e3, e4, e5, dropWhile_zeros _ _ _ (by decide)]
    exact if_pos ⟨e7, e6, rfl⟩

/-- The PSS check accepts exactly the encodings of `M` under some salt of the length that fit. -/
theorem pssCheck_iff {C : Config} {sel : Sel} (hs : (C.hashes sel).isSome = true) (M EM : Bytes) (emBits sLen : Nat)
    (hl' : EM.length = ceil8 emBits) :
    pssCheck C sel M EM emBits sLen = true ↔ hLen C sel + sLen + 2 ≤ ceil8 emBits ∧
      ∃ salt : Bytes, salt.length = sLen ∧ EM = pssEncode C sel M emBits salt := by
  have hpos := hLen_pos hs
  have hz := topZeros_le emBits
  constructor
  · intro h
    unfold pssCheck at h
    simp only [Bool.and_eq_true, decide_eq_true_eq, beq_iff_eq] at h
    set hl := hLen C sel
    set emLen := ceil8 emBits
    set z := topZeros emBits
    set dbLen := emLen - hl - 1 with hdbl
    set mdb := EM.take dbLen with hmdb
    set H := (EM.drop dbLen).take hl with hH
    set DB := clearTop z (xorBytes mdb (mgf1 C sel H dbLen)) with hDB
    set ps := emLen - hl - sLen - 2 with hps
    set salt := DB.drop (ps + 1) with hsalt
    obtain ⟨⟨⟨⟨h1, h2⟩, h3⟩, h4⟩, h5⟩ := h
    have lmdb : mdb.length = dbLen := by simp [hmdb]; omega
    have lH : H.length = hl := by simp [hH]; omega
    have lDB : DB.length = dbLen := by simp [hDB, lmdb, length_mgf1 hs]
    refine ⟨h1, salt, ?_, ?_⟩
    · simp [hsalt, lDB]; omega
    have hDBe : DB = copies ps 0 ++ [1] ++ salt := by rw [← h4, hsalt, List.take_append_drop]
    have lsalt : salt.length = sLen := by simp [hsalt, lDB]; omega
    unfold pssEncode
    simp only []
    rw [h5, lsalt]
    have : emLen - sLen - hl - 2 = ps := by omega
    rw [this, ← hDBe]
    have e1 : clearTop z (xorBytes DB (mgf1 C sel H (emLen - hl - 1))) = mdb := by
      rw [hDB]
      rw [clearTop_xorBytes_clearTop _ _ _ (by rw [lmdb, length_mgf1 hs]), ← topIsZero_iff]; exact h3
    rw [e1]
    have : EM = mdb ++ (H ++ EM.drop (emLen - 1)) := by
      conv_lhs => rw [← List.take_append_drop dbLen EM, ← List.take_append_drop hl (EM.drop dbLen), List.drop_drop]
      have : dbLen + hl = emLen - 1 := by omega
      rw [this]
    rw [List.append_assoc]
    conv_lhs => rw [this]
    congr 2
    have hlast : EM.drop (emLen - 1) = [EM.getD (emLen - 1) 0] := by
      rw [List.drop_eq_getElem_cons (by omega), List.drop_of_length_le (by omega), List.getD_eq_getElem _ _ (by omega)]
    rw [hlast, h2]
  · rintro ⟨h1, salt, hsl, hE⟩
    unfold pssEncode at hE
    simp only [] at hE
    unfold pssCheck
    simp only [Bool.and_eq_true, decide_eq_true_eq, beq_iff_eq]
    set hl := hLen C sel
    set emLen := ceil8 emBits
    set z := topZeros emBits
    set H := C.hash sel (copies 8 0x00 ++ C.hash sel M ++ salt) with hH
    set DB := copies (emLen - salt.length - hl - 2) 0x00 ++ [0x01] ++ salt with hDB
    set mdb := clearTop z (xorBytes DB (mgf1 C sel H (emLen - hl - 1))) with hmdb
    have lDB : DB.length = emLen - hl - 1 := by
      have : DB.length = (emLen - salt.length - hl - 2) + 1 + salt.length := by simp [hDB]; omega
      rw [this, hsl]; omega
    have lmdb : mdb.length = emLen - hl - 1 := by simp [hmdb, lDB, length_mgf1 hs]
    have lH : H.length = hl := length_hash hs _
    have e1 : EM.take (emLen - hl - 1) = mdb := by
      rw [hE, List.append_assoc, List.take_append_of_le_length (by omega), List.take_of_length_le (by omega)]
    have e2 : (EM.drop (emLen - hl - 1)).take hl = H := by
      rw [hE, List.append_assoc, List.drop_append_of_le_length (by omega), List.drop_of_length_le (by omega),
        List.nil_append, List.take_append_of_le_length (by omega), List.take_of_length_le (by omega)]
    rw [e1, e2]
    have e3 : clearTop z (xorBytes mdb (mgf1 C sel H (emLen - hl - 1))) = DB := by
      rw [hmdb, clearTop_xorBytes_clearTop _ _ _ (by rw [lDB, length_mgf1 hs]), hDB]
      simpa [copies] using clearTop_zeros_one z _ hz salt
    rw [e3]
    have e4 : DB.take (emLen - hl - sLen - 2 + 1) = copies (emLen - hl - sLen - 2) 0x00 ++ [0x01] := by
      have : emLen - salt.length - hl - 2 = emLen - hl - sLen - 2 := by omega
      rw [hDB, this, List.take_append_of_le_length (by simp), List.take_of_length_le (by simp)]
    have e5 : DB.drop (emLen - hl - sLen - 2 + 1) = salt := by
      have : emLen - salt.length - hl - 2 = emLen - hl - sLen - 2 := by omega
      rw [hDB, this, List.drop_append_of_le_length (by simp), List.drop_of_length_le (by simp)]; rfl
    rw [e5]
    refine ⟨⟨⟨⟨h1, ?_⟩, ?_⟩, e4⟩, rfl⟩
    · have : EM.length - 1 = (mdb ++ H).length := by rw [hl', List.length_append, lmdb, lH]; omega
      rw [← hl', this]; rw [hE]; simp [List.getD_eq_getElem?_getD]
    · rw [topIsZero_iff, hmdb]
      cases hx : xorBytes DB (mgf1 C sel H (emLen - hl - 1)) with
      | nil => rfl
      | cons x X => simp [clearTop, BitVec.and_assoc]

/-! ## ISO/IEC 9796-2 -/

/-- The trailer of the machine is the trailer of the tables. -/
theorem trailer_eq_some_iff (C : Config) (h : Sel) (it : Bool) (T : Bytes) :
    trailer C h it = some T ↔ TrailerIs C h it T := by
  unfold trailer TrailerIs
  cases it
  · simp only [Bool.false_eq_true, if_false, false_and, true_and, false_or, Option.map_eq_some_iff]
    constructor
    · rintro ⟨i, h1, h2⟩; exact ⟨i, h1, h2.symm⟩
    · rintro ⟨i, h1, h2⟩; exact ⟨i, h1, h2.symm⟩
  · simp [eq_comm]

/-- Trailers of one length are equal. -/
theorem trailer_unique {C : Config} {h : Sel} {it it' : Bool} {T T' : Bytes} (h1 : TrailerIs C h it T)
    (h2 : TrailerIs C h it' T') (hl : T.length = T'.length) : it = it' ∧ T = T' := by
  rcases h1 with ⟨rfl, rfl⟩ | ⟨rfl, i, hi, rfl⟩ <;> rcases h2 with ⟨rfl, rfl⟩ | ⟨rfl, i', hi', rfl⟩
  · exact ⟨rfl, rfl⟩
  · simp at hl
  · simp at hl
  · rw [hi] at hi'; injection hi' with hi'; subst hi'; exact ⟨rfl, rfl⟩

/-- A string that ends in a trailer has that trailer. -/
theorem trailerOctets_append {C : Config} {sel : Sel} {it : Bool} {T : Bytes} (X : Bytes) (h : TrailerIs C sel it T) :
    trailerOctets C sel (X ++ T) = some T.length := by
  rcases h with ⟨-, rfl⟩ | ⟨-, i, hi, rfl⟩
  · simp [trailerOctets]
  · have : (X ++ [i, 0xCC]).getD ((X ++ [i, 0xCC]).length - 2) 0 = i := by
      simp [List.getD_eq_getElem?_getD]
    have h2 : (X ++ [i, (0xCC:Byte)]).getLastD 0 = (0xCC:Byte) := by simp
    have h3 : 2 ≤ (X ++ [i, (0xCC:Byte)]).length := by simp
    simp only [trailerOctets]
    rw [h2, if_neg (by decide), if_pos rfl, hi]
    simp only []
    rw [if_pos ⟨h3, this⟩]; rfl

/-- What a recognised trailer is. -/
theorem trailerOctets_eq_some {C : Config} {sel : Sel} {t : Nat} {X : Bytes} (h : trailerOctets C sel X = some t) :
    ∃ it T, TrailerIs C sel it T ∧ T.length = t ∧ (t = 1 ↔ it = true) ∧
    (X = [] ∨ t ≤ X.length ∧ X.drop (X.length - t) = T) := by
  unfold trailerOctets at h
  simp only [] at h
  rcases List.eq_nil_or_concat X with rfl | ⟨Y, y, rfl⟩
  · simp at h
  · simp only [List.concat_eq_append] at h ⊢
    have hl : (Y ++ [y]).getLastD 0 = y := by simp
    rw [hl] at h
    split at h
    · next hy =>
      injection h with h; subst h hy
      exact ⟨true, [0xBC], .inl ⟨rfl, rfl⟩, rfl, by simp, .inr (by simp)⟩
    · split at h
      · next hy =>
        split at h
        · cases h
        · next i hi =>
          split at h
          · next hc =>
            injection h with h; subst h hy
            refine ⟨false, [i, 0xCC], .inr ⟨rfl, i, hi, rfl⟩, rfl, by simp, .inr ⟨hc.1, ?_⟩⟩
            obtain ⟨h1, h2⟩ := hc
            rcases List.eq_nil_or_concat Y with rfl | ⟨Z, z, rfl⟩
            · simp at h1
            · simp [List.getD_eq_getElem?_getD] at h2 ⊢
              exact h2
          · cases h
      · cases h

/-- The recovery of ds2 and ds3 gives `M1` exactly for the encoded messages of `M1` with `M2` under some trailer and salt.
  -/
theorem isoPssOpen_iff {C : Config} {sel : Sel} (hs : (C.hashes sel).isSome = true) (J : Nat) (M1 M2 : Bytes)
    (sLen k : Nat) :
    isoPssOpen C sel J M2 sLen k = some M1 ↔ ∃ (it : Bool) (T salt : Bytes), TrailerIs C sel it T ∧
        salt.length = sLen ∧ M1.length + sLen + 1 + hLen C sel + T.length ≤ ceil8 (k - 1) ∧
        J = os2ip (isoPssEm C sel M1 M2 salt k T) := by
  have hpos := hLen_pos hs
  have hz := topZeros_le (k - 1)
  constructor
  · intro h
    unfold isoPssOpen at h
    simp only [] at h
    set hl := hLen C sel
    set emLen := ceil8 (k - 1)
    set z := topZeros (k - 1)
    split at h
    · cases h
    next hJ =>
    split at h
    · cases h
    next t ht =>
    split at h
    · cases h
    next hfit =>
    split at h
    · cases h
    next htop =>
    split at h
    · cases h
    next b R hdw =>
    split at h
    · cases h
    next hb =>
    split at h
    · cases h
    next hH =>
    injection h with h
    set EM := i2os J emLen with hEM
    have lEM : EM.length = emLen := by simp [hEM]
    set dbLen := emLen - hl - t with hdbl
    set mdb := EM.take dbLen with hmdb
    set H := (EM.drop dbLen).take hl with hHd
    set DB := clearTop z (xorBytes mdb (mgf1 C sel H dbLen)) with hDB
    have lmdb : mdb.length = dbLen := by simp [hmdb, lEM]; omega
    have lDB : DB.length = dbLen := by simp [hDB, lmdb, length_mgf1 hs]
    obtain ⟨it, T, hT, lT, -, hX⟩ := trailerOctets_eq_some ht
    rcases hX with hX | ⟨hX1, hX2⟩
    · rw [hX] at lEM; simp at lEM; omega
    obtain ⟨-, j, hj⟩ := dropWhile_zeros_inv _ _ _ hdw
    rw [not_or, not_not, Nat.not_lt] at hb
    obtain ⟨rfl, hR⟩ := hb
    have hlDB := congrArg List.length hj
    simp only [List.length_append, List.length_replicate, List.length_cons, lDB] at hlDB
    set salt := R.drop (R.length - sLen) with hsalt
    have lsalt : salt.length = sLen := by simp [hsalt]; omega
    rw [not_not] at hH
    have hM1l : M1.length = R.length - sLen := by rw [← h]; simp
    refine ⟨it, T, salt, hT, lsalt, by omega, ?_⟩
    have hRe : R = M1 ++ salt := by rw [← h, hsalt, List.take_append_drop]
    have hDBe : copies (dbLen - M1.length - salt.length - 1) 0x00 ++ [0x01] ++ M1 ++ salt = DB := by
      rw [hj, hRe]
      have : dbLen - M1.length - salt.length - 1 = j := by omega
      rw [this]; simp [copies]
    unfold isoPssEm
    simp only []
    have hH' : isoHash C sel M1 M2 salt = H := by rw [← h]; exact hH
    have hd' : emLen - hl - T.length = dbLen := by omega
    show J = os2ip (clearTop z (xorBytes (copies (emLen - hl - T.length - M1.length - salt.length - 1) 0x00 ++ [0x01] ++
      M1 ++ salt) (mgf1 C sel (isoHash C sel M1 M2 salt) (emLen - hl - T.length))) ++ isoHash C sel M1 M2 salt ++ T)
    rw [hH', hd', hDBe]
    have e1 : clearTop z (xorBytes DB (mgf1 C sel H dbLen)) = mdb := by
      rw [hDB, clearTop_xorBytes_clearTop _ _ _ (by rw [lmdb, length_mgf1 hs]), ← topIsZero_iff]
      simpa using htop
    rw [e1]
    have : mdb ++ H ++ T = EM := by
      conv_rhs => rw [← List.take_append_drop dbLen EM, ← List.take_append_drop hl (EM.drop dbLen), List.drop_drop]
      have : dbLen + hl = EM.length - t := by omega
      rw [this, hX2, List.append_assoc]
    rw [this, hEM, os2ip_i2os_of_lt (by omega)]
  · rintro ⟨it, T, salt, hT, lsalt, hfit, hJ⟩
    have lE := length_isoPssEm hs (M1 := M1) (M2 := M2) (salt := salt) (T := T) (k := k) (by omega)
    have hi : i2os J (ceil8 (k - 1)) = isoPssEm C sel M1 M2 salt k T := by
      rw [hJ]; conv_lhs => rw [← lE]; exact i2os_os2ip _
    have hlt : ¬ 256 ^ ceil8 (k - 1) ≤ J := by rw [hJ, ← lE]; exact Nat.not_le.mpr (os2ip_lt _)
    unfold isoPssOpen
    simp only []
    rw [if_neg hlt, hi]
    unfold isoPssEm at *
    simp only [] at *
    set hl := hLen C sel
    set emLen := ceil8 (k - 1)
    set z := topZeros (k - 1)
    set H := isoHash C sel M1 M2 salt with hH
    set dbLen := emLen - hl - T.length with hdbl
    set DB := copies (dbLen - M1.length - salt.length - 1) 0x00 ++ [0x01] ++ M1 ++ salt with hDB
    set mdb := clearTop z (xorBytes DB (mgf1 C sel H dbLen)) with hmdb
    have lDB : DB.length = dbLen := by
      have : DB.length = (dbLen - M1.length - salt.length - 1) + 1 + M1.length + salt.length := by simp [hDB]; omega
      rw [this]; omega
    have lmdb : mdb.length = dbLen := by simp [hmdb, lDB, length_mgf1 hs]
    have lH : H.length = hl := length_hash hs _
    rw [trailerOctets_append _ hT]
    simp only []
    rw [if_neg (by omega)]
    have e1 : (mdb ++ H ++ T).take dbLen = mdb := by
      rw [List.append_assoc, List.take_append_of_le_length (by omega), List.take_of_length_le (by omega)]
    have e2 : ((mdb ++ H ++ T).drop dbLen).take hl = H := by
      rw [List.append_assoc, List.drop_append_of_le_length (by omega), List.drop_of_length_le (by omega), List.nil_append,
        List.take_append_of_le_length (by omega), List.take_of_length_le (by omega)]
    have e3 : topIsZero z mdb = true := by
      rw [topIsZero_iff, hmdb]
      cases hx : xorBytes DB (mgf1 C sel H dbLen) with
      | nil => rfl
      | cons x X => simp [clearTop, BitVec.and_assoc]
    have e4 : clearTop z (xorBytes mdb (mgf1 C sel H dbLen)) = DB := by
      rw [hmdb, clearTop_xorBytes_clearTop _ _ _ (by rw [lDB, length_mgf1 hs]), hDB]
      simpa [copies] using clearTop_zeros_one z _ hz (M1 ++ salt)
    have e5 : DB.dropWhile (· == 0x00) = 1 :: (M1 ++ salt) := by
      rw [hDB]
      simp [copies]
    rw [e1, e2, e3, e4, e5]
    simp only []
    have e6 : (M1 ++ salt).length - sLen = M1.length := by simp; omega
    rw [if_neg (by simp), if_neg (by simp; omega), e6]
    simp [hH]

/-! ## Bit strings of ds1 -/

/-- The value of a bit string in two parts. -/
theorem bitsVal_append (X Y : List Bool) : bitsVal (X ++ Y) = bitsVal X * 2 ^ Y.length + bitsVal Y := by
  have fold (acc : Nat) (Y : List Bool) :
      Y.foldl (fun acc b => acc * 2 + b.toNat) acc = acc * 2 ^ Y.length + bitsVal Y := by
    induction Y generalizing acc with
    | nil => simp [bitsVal]
    | cons b Y ih =>
      have h0 := ih (0 * 2 + b.toNat)
      rw [bitsVal, List.foldl_cons, List.foldl_cons, ih, h0, List.length_cons, pow_succ]
      ring
  rw [bitsVal, List.foldl_append, fold]; rfl

/-- The value of a bit string is below its power of two. -/
theorem bitsVal_lt (X : List Bool) : bitsVal X < 2 ^ X.length := by
  induction X with
  | nil => simp [bitsVal]
  | cons b X ih =>
    have := bitsVal_append [b] X
    simp only [List.singleton_append] at this
    rw [this, List.length_cons, pow_succ]
    have hb : bitsVal [b] ≤ 1 := by cases b <;> decide
    nlinarith [Nat.mul_le_mul_right (2 ^ X.length) hb]

/-- `bitsOf` gives as many bits as asked. -/
theorem length_bitsOf (x k : Nat) : (bitsOf x k).length = k := by
  induction k with
  | zero => rfl
  | succ k ih => simp [bitsOf, ih]

/-- `bitsOf` does not see the bits above. -/
theorem bitsOf_add_mul (a x k : Nat) : ∀ m, k ≤ m → bitsOf (a * 2 ^ m + x) k = bitsOf x k := by
  induction k with
  | zero => intros; rfl
  | succ k ih =>
    intro m hm
    rw [bitsOf, bitsOf, ih m (by omega)]
    congr 1
    rw [Nat.mul_comm, Nat.testBit_eq_decide_div_mod_eq, Nat.testBit_eq_decide_div_mod_eq]
    congr 1
    obtain ⟨j, rfl⟩ : ∃ j, m = k + 1 + j := ⟨m - (k+1), by omega⟩
    have : 2 ^ (k + 1 + j) * a + x = 2 ^ k * (2 * (2 ^ j * a)) + x := by rw [pow_add, pow_succ]; ring
    rw [this, Nat.mul_add_div (by positivity)]
    congr 1
    omega

/-- Bits to value and back. -/
theorem bitsOf_bitsVal (X : List Bool) : bitsOf (bitsVal X) X.length = X := by
  induction X with
  | nil => rfl
  | cons b X ih =>
    have h := bitsVal_append [b] X
    simp only [List.singleton_append] at h
    rw [List.length_cons, bitsOf, h, bitsOf_add_mul _ _ _ _ le_rfl, ih]
    congr 1
    rw [Nat.testBit_eq_decide_div_mod_eq, Nat.mul_comm, Nat.mul_add_div (by positivity), Nat.div_eq_of_lt (bitsVal_lt X)]
    cases b <;> rfl

/-- Value to bits and back. -/
theorem bitsVal_bitsOf (x k : Nat) (h : x < 2 ^ k) : bitsVal (bitsOf x k) = x := by
  induction k generalizing x with
  | zero => have : x = 0 := by simpa using h
            subst this; rfl
  | succ k ih =>
    have h1 := bitsVal_append [x.testBit k] (bitsOf x k)
    simp only [List.singleton_append] at h1
    rw [bitsOf, h1, length_bitsOf]
    have hx : x = 2 ^ k * (x / 2 ^ k) + x % 2 ^ k := (Nat.div_add_mod ..).symm
    have e : bitsOf x k = bitsOf (x % 2 ^ k) k := by
      conv_lhs => rw [hx, Nat.mul_comm]
      exact bitsOf_add_mul _ _ _ _ le_rfl
    have hd : x / 2 ^ k < 2 := by
      rw [Nat.div_lt_iff_lt_mul (by positivity)]; rw [pow_succ] at h; omega
    rw [e, ih _ (Nat.mod_lt _ (by positivity))]
    conv_rhs => rw [hx]
    congr 1
    rw [Nat.mul_comm]
    congr 1
    rw [Nat.testBit_eq_decide_div_mod_eq]
    generalize x / 2 ^ k = y at hd
    interval_cases y <;> rfl

/-- The bits of a pad region and an octet string beside it. -/
theorem bitsOf_append (P : List Bool) (body : Bytes) :
    bitsOf (bitsVal P * 2 ^ (8 * body.length) + os2ip body) (P.length + 8 * body.length) =
    P ++ bitsOf (os2ip body) (8 * body.length) := by
  have hb : os2ip body < 2 ^ (8 * body.length) := by
    rw [pow_mul]; exact os2ip_lt body
  have h1 : bitsVal (P ++ bitsOf (os2ip body) (8 * body.length)) = bitsVal P * 2 ^ (8 * body.length) + os2ip body := by
    rw [bitsVal_append, length_bitsOf, bitsVal_bitsOf _ _ hb]
  have h2 := bitsOf_bitsVal (P ++ bitsOf (os2ip body) (8 * body.length))
  rw [h1, List.length_append, length_bitsOf] at h2
  exact h2

/-- The two parts of a ds1 message make the message. -/
theorem ds1Dsi_append (C : Config) (h : Sel) (M : Bytes) (k : Nat) (T : Bytes) :
   (ds1Dsi C h M k T).2.1 ++ (ds1Dsi C h M k T).2.2 = M := by simp [ds1Dsi]

/-- The parser of ds1 undoes the DSI, whose value is below `2^(k−1)` and ends in the nibble `C`. -/
theorem ds1Parse_ds1Dsi {C : Config} {h : Sel} (hs : (C.hashes h).isSome = true) {it : Bool} {T M : Bytes} {k : Nat}
    (hT : TrailerIs C h it T) (hk : 8 * hLen C h + 8 * T.length + 4 ≤ k) :
    ds1Parse C h (ds1Dsi C h M k T).1 k = some ((ds1Dsi C h M k T).2.1, T.length) ∧ (ds1Dsi C h M k T).1 < 2 ^ (k - 1) ∧
      (ds1Dsi C h M k T).1 % 16 = 12 := by
  have lT : 1 ≤ T.length := by rcases hT with ⟨-, rfl⟩ | ⟨-, i, -, rfl⟩ <;> simp
  simp only [ds1Dsi]
  have hcap : (ds1Cap C h k T.length).toNat = k - 8 * hLen C h - 8 * T.length - 4 := by unfold ds1Cap; omega
  rw [hcap]
  set cOct := (k - 8 * hLen C h - 8 * T.length - 4) / 8 with hc
  set M1 := M.take (min M.length cOct) with hM1
  set M2 := M.drop (min M.length cOct)
  have lM1 : M1.length ≤ cOct := by simp [hM1]
  set body := M1 ++ C.hash h M ++ T with hbody
  have lbody : body.length = M1.length + hLen C h + T.length := by simp [hbody, length_hash hs]; omega
  have hr : 4 ≤ k - 8 * body.length := by omega
  set P := C.ds1Pad (k - 8 * body.length) (decide (0 < M2.length)) with hP
  have lP : P.length = k - 8 * body.length := C.ds1Pad_length _ _ hr
  have hkk : P.length + 8 * body.length = k := by omega
  have hbits := bitsOf_append P body
  rw [hkk] at hbits
  have hb : os2ip body < 2 ^ (8 * body.length) := by rw [pow_mul]; exact os2ip_lt body
  refine ⟨?_, ?_, ?_⟩
  · unfold ds1Parse
    rw [hbits, C.ds1Unpad_pad _ _ _ hr (by rw [length_bitsOf]; omega)]
    simp only [length_bitsOf]
    rw [if_neg (by omega)]
    have e1 : bitsToBytes (bitsOf (os2ip body) (8 * body.length)) = body := by
      unfold bitsToBytes
      rw [length_bitsOf, bitsVal_bitsOf _ _ hb, Nat.mul_div_cancel_left _ (by decide), i2os_os2ip]
    rw [e1, if_neg (by omega), hbody, trailerOctets_append _ hT]
    simp only []
    rw [if_neg (by rw [← hbody]; omega)]
    congr 2
    rw [← hbody, lbody, hbody, List.append_assoc, show M1.length + hLen C h + T.length - hLen C h - T.length =
      M1.length by omega]
    simp
  · have htop := C.ds1Pad_top (k - 8 * body.length) (decide (0 < M2.length)) hr
    rw [← hP] at htop
    cases hPc : P with
    | nil => rw [hPc] at htop; cases htop
    | cons b P' =>
      rw [hPc] at htop lP
      simp only [List.head?_cons, Option.some.injEq] at htop
      subst htop
      have hv : bitsVal (false :: P') = bitsVal P' := by
        simp [bitsVal]
      rw [hv]
      have hlt := bitsVal_lt P'
      simp only [List.length_cons] at lP
      calc bitsVal P' * 2 ^ (8 * body.length) + os2ip body
          < bitsVal P' * 2 ^ (8 * body.length) + 2 ^ (8 * body.length) := by omega
        _ = (bitsVal P' + 1) * 2 ^ (8 * body.length) := by ring
        _ ≤ 2 ^ P'.length * 2 ^ (8 * body.length) := Nat.mul_le_mul_right _ hlt
        _ = 2 ^ (k - 1) := by rw [← pow_add]; congr 1; omega
  · have h16 : 2 ^ (8 * body.length) % 16 = 0 := by
      obtain ⟨j, hj⟩ : ∃ j, 8 * body.length = 4 + j := ⟨8 * body.length - 4, by omega⟩
      rw [hj, pow_add]; omega
    have h12 : os2ip body % 16 = 12 := by
      rcases hT with ⟨-, rfl⟩ | ⟨-, i, -, rfl⟩
      · rw [hbody, os2ip_append]
        have : os2ip [(0xBC : Byte)] = 188 := by decide
        rw [this]; simp; omega
      · rw [hbody, os2ip_append, os2ip_cons]
        have : os2ip [(0xCC : Byte)] = 204 := by decide
        rw [this]; simp; omega
    rw [Nat.add_mod, Nat.mul_mod, h16, h12]; simp

end Sys2Proof.Machine
end

