-- ==== Sys2Proof/Tests/Slice0.lean ====
section
/-! SUPPORT. The author's tests. Expected values are those of 95_test_vectors.md (its vector is named at each test) or worked out
by hand from the rule named. The second half gives, for every statement of Obligations.lean with hypotheses, a state and
operands that meet them. -/

namespace Sys2Proof.Tests
open Sys2Proof Sys2Proof.Machine

set_option Elab.async false

/-! ## States to test on -/

/-- A string in a buffer, and its length in the length register. -/
def load (b : BufId) (X : Bytes) (s : State) : State :=
  (s.setBuf b (Memory.ofBytes X)).setLen b (BitVec.ofNat 32 X.length)

/-- A command accepted (PHASE BUSY), with one key in all three slots. -/
def withKey (n e d p q dP dQ qInv : Nat) : State :=
  { State.reset with
    phase := .busy
    pub := ⟨true, n, e, bitlen n, ceil8 (bitlen n)⟩
    priv := ⟨true, n, e, d, bitlen n, ceil8 (bitlen n)⟩
    crt := ⟨true, p, q, dP, dQ, qInv, p * q, bitlen (p * q), ceil8 (bitlen (p * q))⟩ }

/-- A command accepted, with no key. -/
def noKey : State := { State.reset with phase := .busy }

/-- EMBITS replaced. -/
def emb (n : Word) (s : State) : State := { s with embits := n }

/-- M1BITS replaced. -/
def m1b (n : Word) (s : State) : State := { s with m1bits := n }

/-- ERR, and the results. -/
def results (s : State) : Err × Bytes × Bytes := (s.err, s.operand .out, s.operand .aux)

/-- Key T55 of 95_test_vectors.md: `n = 55 = 11·5`, `e = 7`, `d = 23`. -/
def key55 : State := withKey 55 7 23 11 5 3 3 9

/-- Key A of 95_test_vectors.md section 2: `k = 512`. -/
def keyA : State :=
  withKey
    0x83ee09e4be67cce089b724a993cc3da8772d1f49c26188cf8b956211853aec3ebf53d2ad3b35b279791c7c73fc9a0461a84db76f382818eae141c956ce3f334b
    65537
    0x356b24c661f2559a75289ac7aef87bdec2a29a909b0c3301165b9e21c9f859bf599269abcfb0591e9873717908f2a58c3b99e0678b5fce67e67c33995f05b841
    0xba2ed757e1381e126c220d3f504e8c60b43ce7faea955e0e0a635aa2c6dfeea7
    0xb56703d7132d93a4155efa9f9e5e018bc92c3f4592e2ab5a48aac7b68ce62ebd
    0x01c22d8083fd0eb3a7d7ce7e3998f454797f55c595efa13acab85383d4130b63
    0x75fbbf6aa665914e3a3c2123a9fc1863537fbcd3427abcda26c334cbcd8e74bd
    0x1a038ced8d6be7279c846b263a8cf55d5d4e50fcbba96d6b1dae50c15ce446f1

/-- Key D: `k = 203`. -/
def keyD : State :=
  withKey
    0x0566cf0d279d8e67e4c783f4a35aa6f14fdd8914110e047612ef
    65537
    0x18e062b132c16c170e8bce2bdcc94ecbbdc8b5eb77782a9581
    0x2d5ffad68a6a886d9bc95d0dc1
    0x1e79a5416542a7649c379cacaf
    0x013b236102ac553b3408c87f81
    0x1d4acd96030fc3380893c7ab8f
    0x234edc8fb370ddcd4ad0f0c8d8

/-! ## SHA-1, for the spec's vectors -/

/-- 32-bit rotation to the left. -/
def rotl (x n : Nat) : Nat := ((x <<< n) % 2 ^ 32) ||| (x >>> (32 - n))

/-- The words of a padded message. -/
def words : Bytes → List Nat
  | a :: b :: c :: d :: r => (((a.toNat * 256 + b.toNat) * 256 + c.toNat) * 256 + d.toNat) :: words r
  | _ => []

/-- `n` rounds from round `t` on; `w` holds the next sixteen words of the schedule. -/
def sha1Rounds : Nat → Nat → List Nat → Nat → Nat → Nat → Nat → Nat → List Nat
  | 0, _, _, a, b, c, d, e => [a, b, c, d, e]
  | n + 1, t, w, a, b, c, d, e =>
    let x := w.headD 0
    let w' := w.tail ++ [rotl (w.getD 13 0 ^^^ w.getD 8 0 ^^^ w.getD 2 0 ^^^ x) 1]
    let f :=
      if t < 20 then ((b &&& c) ||| ((2 ^ 32 - 1 - b) &&& d)) + 0x5A827999
      else if t < 40 then (b ^^^ c ^^^ d) + 0x6ED9EBA1
      else if t < 60 then ((b &&& c) ||| (b &&& d) ||| (c &&& d)) + 0x8F1BBCDC
      else (b ^^^ c ^^^ d) + 0xCA62C1D6
    sha1Rounds n (t + 1) w' ((rotl a 5 + f + e + x) % 2 ^ 32) a (rotl b 30) c d

/-- The compression of one block after another. -/
def sha1Blocks : Nat → List Nat → List Nat → List Nat
  | 0, _, h => h
  | n + 1, w, h =>
    sha1Blocks n (w.drop 16) (List.zipWith (fun x y => (x + y) % 2 ^ 32) h
      (sha1Rounds 80 0 (w.take 16) (h.getD 0 0) (h.getD 1 0) (h.getD 2 0) (h.getD 3 0) (h.getD 4 0)))

/-- SHA-1. -/
def sha1 (X : Bytes) : Bytes :=
  let P := X ++ [0x80] ++ List.replicate ((119 - X.length % 64) % 64) 0 ++ i2os (8 * X.length) 8
  let h := sha1Blocks (P.length / 64) (words P) [0x67452301, 0xEFCDAB89, 0x98BADCFE, 0x10325476, 0xC3D2E1F0]
  i2os (h.foldl (fun acc x => acc * 2 ^ 32 + x) 0) 20

/-- SHA-1 under selector 1; under selector 2 a digest of zeros, which no vector here uses. -/
def testHash (sel : Sel) (X : Bytes) : Bytes := if sel = 1 then sha1 X else if sel = 2 then List.replicate 32 0 else []

theorem testHash_length (sel : Sel) (row : HashRow) (X : Bytes) (h : stdHashes sel = some row) :
    (testHash sel X).length = row.hLen := by
  unfold stdHashes at h
  split at h
  · next h1 => cases h; simp [testHash, h1, sha1, sha1Row]
  · split at h
    · next h1 h2 => cases h; simp [testHash, h2, sha256Row]
    · cases h

/-- CFG-EX with the draws that its vectors name: `PS[i] = i + 1` (V-E1) and the seed `00 01 02 ...` (V-O1). -/
def cfgEx : Config := cfgWith testHash testHash_length (BitVec.ofNat 8) (Fin.ofNat 255)

/-- "abc". -/
def abc : Bytes := [0x61, 0x62, 0x63]

/-- The salt `a0 a1 ... b3` of V-P1, V-P2, V-I3. -/
def saltA : Bytes := (i2os 0xa0a1a2a3a4a5a6a7a8a9aaabacadaeafb0b1b2b3 20)

/-! ## Well-formedness and decoding -/

/-- R93: the ill-formed terms are refused. -/
theorem test_ill_formed : (Instr.pssEncode 1 true true).wf = false ∧ (Instr.ssaPssSign 1 false true true).wf = false ∧
    (Instr.ds2Sign 1 false false false true true).wf = false := by decide

/-- R91, group 0x0_, the words bit by bit: reserved, SLD, SS, CRT, UM, IT, HSEL, OPC (R90). -/
theorem test_decode_0x : decode 0b000000000000000_0_0_0_0_0_0000_00000000#32 = .ok .nop ∧
    decode 0b000000000000000_0_0_0_0_0_0000_00000001#32 = .ok .keyLoadPub ∧
    decode 0b000000000000000_0_0_0_0_0_0000_00000010#32 = .ok .keyLoadPriv ∧
    decode 0b000000000000000_0_0_0_0_0_0000_00000011#32 = .ok .keyLoadCrt ∧
    decode 0b000000000000000_0_0_0_0_0_0000_00000100#32 = .ok .keyClear := by decide

/-- R91, group 0x1_. -/
theorem test_decode_1x : decode 0b000000000000000_0_0_0_0_0_0000_00010000#32 = .ok .rsaep ∧
    decode 0b000000000000000_0_0_1_0_0_0000_00010001#32 = .ok (.rsadp true) ∧
    decode 0b000000000000000_0_0_0_0_0_0000_00010010#32 = .ok (.rsasp1 false) ∧
    decode 0b000000000000000_0_0_0_0_0_0000_00010011#32 = .ok .rsavp1 ∧
    decode 0b000000000000000_0_0_0_0_0_0000_00010100#32 = .ok .minsel := by decide

/-- R91, group 0x2_. -/
theorem test_decode_2x : decode 0b000000000000000_0_0_0_0_0_0001_00100000#32 = .ok (.mgf1 1) ∧
    decode 0b000000000000000_0_0_0_0_0_0000_00100001#32 = .ok .emeV15Encode ∧
    decode 0b000000000000000_0_0_0_0_0_0000_00100010#32 = .ok .emeV15Decode ∧
    decode 0b000000000000000_0_0_0_0_0_0010_00100011#32 = .ok (.oaepEncode 2) ∧
    decode 0b000000000000000_0_0_0_0_0_0001_00100100#32 = .ok (.oaepDecode 1) ∧
    decode 0b000000000000000_0_0_0_0_0_0010_00100101#32 = .ok (.emsaV15Encode 2) ∧
    decode 0b000000000000000_0_1_0_0_0_0001_00100110#32 = .ok (.pssEncode 1 true false) ∧
    decode 0b000000000000000_1_0_0_0_0_0001_00100111#32 = .ok (.pssCheck 1 true) := by decide

/-- R91, group 0x3_. -/
theorem test_decode_3x : decode 0b000000000000000_0_0_0_0_0_0000_00110000#32 = .ok .esV15Encrypt ∧
    decode 0b000000000000000_0_0_1_0_0_0000_00110001#32 = .ok (.esV15Decrypt true) ∧
    decode 0b000000000000000_0_0_0_0_0_0010_00110010#32 = .ok (.esOaepEncrypt 2) ∧
    decode 0b000000000000000_0_0_1_0_0_0001_00110011#32 = .ok (.esOaepDecrypt 1 true) ∧
    decode 0b000000000000000_0_0_0_0_0_0001_00110100#32 = .ok (.ssaV15Sign 1 false) ∧
    decode 0b000000000000000_0_0_0_0_0_0010_00110101#32 = .ok (.ssaV15Verify 2) ∧
    decode 0b000000000000000_1_0_1_0_0_0001_00110110#32 = .ok (.ssaPssSign 1 true false true) ∧
    decode 0b000000000000000_1_0_0_0_0_0010_00110111#32 = .ok (.ssaPssVerify 2 true) := by decide

/-- R91, group 0x4_. -/
theorem test_decode_4x : decode 0b000000000000000_0_0_0_0_1_0001_01000000#32 = .ok (.ds1Sign 1 true false false) ∧
    decode 0b000000000000000_0_0_0_0_0_0001_01000001#32 = .ok (.ds1Verify 1) ∧
    decode 0b000000000000000_0_1_1_1_0_0010_01000010#32 = .ok (.ds2Sign 2 false true true true false) ∧
    decode 0b000000000000000_1_0_0_0_0_0001_01000011#32 = .ok (.ds2Verify 1 true) ∧
    decode 0b000000000000000_0_0_0_1_0_0001_01000100#32 = .ok (.ds3Sign 1 false true false) ∧
    decode 0b000000000000000_0_0_0_0_0_0010_01000101#32 = .ok (.ds3Verify 2) := by decide

/-- STATUS after a word has been placed and the engine has run. -/
def statusAfter (s : State) (w : Nat) : Option Word :=
  match step (s.withFetchWord 32 w) with
  | .next t => some (statusWord t)
  | .fault _ => none
  | .refused _ => none

/-- V-X1: every illegal word of the table gives STATUS = 0x752. -/
theorem test_illegal_words : ∀ w ∈ [0x100, 0x1000, 0x110, 0x4010, 0x2011, 0x20010, 0x80000010, 0x5, 0xF, 0x15, 0x28, 0x38, 0x46,
    0xFF, 0x20, 0x320, 0xF20, 0x18126, 0x8127, 0x10144, 0x8144, 0x1141, 0x34, 0x130],
    statusAfter (load .inp [2] key55) w = some 0x752 := by decide +kernel

/-- V-X1: the legal words, E_OK (0x702) and E_CAPACITY (0x722), and RSAEP with an empty slot (0x52). -/
theorem test_legal_words : (∀ w ∈ [0x0, 0x10, 0x11, 0x4011, 0x120], statusAfter (load .inp [2] key55) w = some 0x702) ∧
    (∀ w ∈ [0x8126, 0x3140, 0x134, 0x30], statusAfter (load .inp [2] key55) w = some 0x722) ∧
    statusAfter (load .inp [2] key55) 0x4 = some 0x2 ∧ statusAfter noKey 0x10 = some 0x52 := by decide +kernel

/-! ## Commands -/

/-- What `exec` leaves, in this machine. -/
def ran (i : Instr) (s : State) : Option (Err × Bytes × Bytes) :=
  match exec i s with
  | .next t => some (results t)
  | .fault _ => none
  | .refused _ => none

/-- S1, V-A1: `2^7 mod 55 = 18`; `m = n` is out of range. -/
theorem test_rsaep : ran .rsaep (load .inp [2] key55) = some (.ok, [18], []) ∧
    ran .rsaep (load .inp [55] key55) = some (.domain, [], []) := by decide +kernel

/-- S1, V-A1, V-A2: `18^23 mod 55 = 2` on both key forms. -/
theorem test_rsadp : ∀ crt, ran (.rsadp crt) (load .inp [18] key55) = some (.ok, [2], []) := by decide +kernel

/-- V-A1: RSASP1 of 2 is 8. -/
theorem test_rsasp1 : ∀ crt, ran (.rsasp1 crt) (load .inp [2] key55) = some (.ok, [8], []) := by decide +kernel

/-- V-A1: RSAVP1 with leading zero octets. -/
theorem test_rsavp1 : ran .rsavp1 (load .inp [0, 0, 2] key55) = some (.ok, [18], []) := by decide +kernel

/-- V-A3: `min(40, 15) = 15` and `min(28, 27) = 27`. -/
theorem test_minsel : ran .minsel (load .inp [40] key55) = some (.ok, [15], []) ∧
    ran .minsel (load .inp [28] key55) = some (.ok, [27], []) := by decide +kernel

/-- R270: NOP. -/
theorem test_nop : ran .nop (load .inp [2] key55) = some (.ok, [], []) := by decide +kernel

/-- V-K1: `n = 55`, `e = 1` gives K_PUB = 6 and FINDINGS = 3. -/
theorem test_key_load_pub :
    let t := runAt cfg .keyLoadPub (load .kn [55] (load .ke [1] noKey))
    results t = (.ok, [], []) ∧ t.pub = ⟨true, 55, 1, 6, 1⟩ ∧ findingsWord t.findings = 3 := by decide +kernel

/-- V-K1: `d = 0` is accepted, `n = 0` is not. -/
theorem test_key_load_priv :
    let t := runAt cfg .keyLoadPriv (load .kn [55] (load .ke [7] noKey))
    t.priv = ⟨true, 55, 7, 0, 6, 1⟩ ∧ findingsWord t.findings = 0x100 ∧
      results (runAt cfg .keyLoadPriv (load .kn [0] (load .ke [7] noKey))) = (.param, [], []) := by decide +kernel

/-- V-K1: the CRT form of T55. -/
theorem test_key_load_crt :
    let t := runAt cfg .keyLoadCrt (load .kp [11] (load .kq [5] (load .kdp [3] (load .kdq [3] (load .kqinv [9] noKey)))))
    t.crt = ⟨true, 11, 5, 3, 3, 9, 55, 6, 1⟩ ∧ findingsWord t.findings = 0x10000 := by decide +kernel

/-- V-K1, R274: KEY_CLEAR empties slots, buffers and lengths, and leaves IEN. -/
theorem test_key_clear :
    let t := runAt cfg .keyClear { load .kd [23] (load .inp [2] key55) with doneIe := true, embits := 7 }
    statusWord t = 0x10002 ∧ t.pub = PubSlot.empty ∧ t.bufs = PerBuf.all [] ∧ t.lens = PerBuf.all 0 ∧ t.embits = 0 := by
  decide +kernel

/-- V-E1 with its padding string: the encoding. -/
theorem test_eme_v15_encode :
    results (runAt cfgEx .emeV15Encode (emb 512 (load .msg [0x41, 0x42, 0x43] noKey))) =
      (.ok, (i2os 0x00020102030405060708090a0b0c0d0e0f101112131415161718191a1b1c1d1e1f202122232425262728292a2b2c2d2e2f303132333435363738393a00414243 64), []) := by
  decide +kernel

/-- V-E2, R153: eight padding octets are accepted, seven are not. -/
theorem test_eme_v15_decode :
    ran .emeV15Decode (load .inp ([0, 2, 1, 2, 3, 4, 5, 6, 7, 8, 0, 0x55]) noKey) = some (.ok, [0x55], []) ∧
    ran .emeV15Decode (load .inp ([0, 2, 1, 2, 3, 4, 5, 6, 7, 0, 0x55]) noKey) = some (.fail, [], []) := by decide +kernel

/-- V-E1: the ciphertext under key A. -/
theorem test_es_v15_encrypt : results (runAt cfgEx .esV15Encrypt (load .msg [0x41, 0x42, 0x43] keyA)) =
    (.ok, (i2os 0x0eeda79b8c9fab97e11b58f1594e3748a0625e60980eebd8d8bacc07970ab78c2d8f749904ff76e0b156ed17236ed3a1e1f16223262f251f24ba7fb60bede0ef 64), []) := by
  decide +kernel

/-- V-E1, V-E2: the message comes back; a padding run of seven octets fails. -/
theorem test_es_v15_decrypt :
    (∀ crt, ran (.esV15Decrypt crt) (load .inp (i2os 0x0eeda79b8c9fab97e11b58f1594e3748a0625e60980eebd8d8bacc07970ab78c2d8f749904ff76e0b156ed17236ed3a1e1f16223262f251f24ba7fb60bede0ef 64) keyA) = some (.ok, [0x41, 0x42, 0x43], [])) ∧
    ran (.esV15Decrypt true) (load .inp (i2os 0x044d61ed9ef1f4f2fd1e09277fe1230989708f52b93abddbb5fe1869a76993fbab8328daa6a214f8982ef3ce52ae5b95df3eef6362a0b6d1ef76ee3c8b7579cf 64) keyA) = some (.fail, [], []) := by
  decide +kernel

/-- V-M1, first row; a mask length that is no whole number of octets. -/
theorem test_mgf1 :
    results (runAt cfgEx (.mgf1 1) (emb 192 (load .inp [0] noKey))) = (.ok, (i2os 0xa10909c2cdcaf5adb7e6b092a4faba558b62bd96ae7fca60 24), []) ∧
    ran (.mgf1 1) (emb 12 (load .inp [0] noKey)) = some (.param, [], []) := by
  decide +kernel

/-- V-O1: the encoding. -/
theorem test_oaep_encode :
    results (runAt cfgEx (.oaepEncode 1) (emb 512 (load .msg [0x41, 0x42, 0x43] noKey))) =
      (.ok, (i2os 0x0030d63a6a56692724cf5aa3c780ae892eacfb2341d8bcf0367fb055802993d44ae1a0fb809edd2e3899f37263a574171d607880917aefcf642294b08ad96552 64), []) := by
  decide +kernel

/-- V-O1: the decoding, and the failure with the first octet changed. -/
theorem test_oaep_decode :
    results (runAt cfgEx (.oaepDecode 1) (load .inp (i2os 0x0030d63a6a56692724cf5aa3c780ae892eacfb2341d8bcf0367fb055802993d44ae1a0fb809edd2e3899f37263a574171d607880917aefcf642294b08ad96552 64) noKey)) =
      (.ok, [0x41, 0x42, 0x43], []) ∧
    results (runAt cfgEx (.oaepDecode 1) (load .inp (i2os 0x0130d63a6a56692724cf5aa3c780ae892eacfb2341d8bcf0367fb055802993d44ae1a0fb809edd2e3899f37263a574171d607880917aefcf642294b08ad96552 64) noKey)) =
      (.fail, [], []) := by
  decide +kernel

/-- V-O2: "hello OAEP" under key A. -/
theorem test_es_oaep_encrypt : results (runAt cfgEx (.esOaepEncrypt 1) (load .msg (i2os 0x68656c6c6f204f414550 10) keyA)) =
    (.ok, (i2os 0x50c0a3757d80abd96e7bd3d4f0ee74898459eeaf3c74fe013689b7e6393a2c4a43e6cd125b49bfebc9f7c0283832d3581bc863a6ef7e95487f1875733a33d956 64), []) := by
  decide +kernel

/-- V-O2, V-O3. -/
theorem test_es_oaep_decrypt :
    results (runAt cfgEx (.esOaepDecrypt 1 true) (load .inp (i2os 0x50c0a3757d80abd96e7bd3d4f0ee74898459eeaf3c74fe013689b7e6393a2c4a43e6cd125b49bfebc9f7c0283832d3581bc863a6ef7e95487f1875733a33d956 64) keyA)) =
      (.ok, (i2os 0x68656c6c6f204f414550 10), []) ∧
    ran (.esOaepDecrypt 2 false) (load .inp [1] keyA) = some (.capacity, [], []) := by
  decide +kernel

/-- V-S1, selector 1, `EMBITS = 368`. -/
theorem test_emsa_v15_encode :
    results (runAt cfgEx (.emsaV15Encode 1) (emb 368 (load .msg (i2os 0x4d6163204d75737465726d616e6e 14) noKey))) =
      (.ok, (i2os 0x0001ffffffffffffffff003021300906052b0e03021a0500041472d85e5ae03f9eed9852401c382d0890dfc6ba73 46), []) := by
  decide +kernel

/-- R185, R187, R188 with key A, and the failure of V-S2 with another message. -/
theorem test_ssa_v15 :
    let t := runAt cfgEx (.ssaV15Sign 1 true) (load .msg abc keyA)
    t.err = .ok ∧ (t.operand .out).length = 64 ∧
    results (runAt cfgEx (.ssaV15Verify 1) (load .msg abc (load .inp (t.operand .out) keyA))) = (.ok, [], []) ∧
    results (runAt cfgEx (.ssaV15Verify 1) (load .msg [0x61] (load .inp (t.operand .out) keyA))) = (.fail, [], []) := by
  decide +kernel

/-- V-P1, `EMBITS = 511`. -/
theorem test_pss_encode :
    results (runAt cfgEx (.pssEncode 1 true false) (emb 511 (load .msg abc (load .salt saltA noKey)))) =
      (.ok, (i2os 0x5df88dafa7cc7b3a36117334be512391a1566257cee9bb4c326238fe25aba9e2c9ada5f400097651815b480257f65e22bdd46fa3122a3b9a810ae154380799bc 64), []) := by
  decide +kernel

/-- V-P1: the check accepts it, and refuses it with SALT_LEN = 19. -/
theorem test_pss_check :
    let s := (emb 511 (load .msg abc (load .inp (i2os 0x5df88dafa7cc7b3a36117334be512391a1566257cee9bb4c326238fe25aba9e2c9ada5f400097651815b480257f65e22bdd46fa3122a3b9a810ae154380799bc 64) noKey)))
    results (runAt cfgEx (.pssCheck 1 true) s) = (.ok, [], []) ∧
    results (runAt cfgEx (.pssCheck 1 false) (s.setLen .salt 19)) = (.fail, [], []) := by
  decide +kernel

/-- V-P2, key A. -/
theorem test_ssa_pss_sign : results (runAt cfgEx (.ssaPssSign 1 true true false) (load .msg abc (load .salt saltA keyA))) =
    (.ok, (i2os 0x28f1ceb6dad3b62250cd748fb8b5da5a08e1b5d73b5eccee06282ff076d5f99265fc72db9925ea596bd3480eb3d1d0a22f6af2fac663d11d73c9e21dc81fa630 64), []) := by
  decide +kernel

/-- V-P2, key A; and selector 2 does not fit (E_FAIL, R208). -/
theorem test_ssa_pss_verify :
    let s := load .msg abc (load .inp (i2os 0x28f1ceb6dad3b62250cd748fb8b5da5a08e1b5d73b5eccee06282ff076d5f99265fc72db9925ea596bd3480eb3d1d0a22f6af2fac663d11d73c9e21dc81fa630 64) keyA)
    results (runAt cfgEx (.ssaPssVerify 1 true) s) = (.ok, [], []) ∧
    results (runAt cfgEx (.ssaPssVerify 2 true) s) = (.fail, [], []) := by
  decide +kernel

/-- V-I0: the pad region at 4 to 9 bits. -/
theorem test_ds1_pad : (List.range 6).map (fun i => bitsVal (ds1PadStd (i + 4) false)) =
      [0b0101, 0b01001, 0b010001, 0b0101010, 0b01001010, 0b010001010] ∧
    bitsVal (ds1PadStd 17 true) = 0b01100101110111010 := by decide +kernel

/-- V-I2, implicit trailer: M1 = "abc" is recoverable, M2 = "defgh". -/
theorem test_ds1_sign : results (runAt cfgEx (.ds1Sign 1 true false true) (load .msg (i2os 0x6162636465666768 8) keyD)) =
    (.ok, (i2os 0x0140a7fab93d6e9d744e70ddf91692f00ef08143704104182ce6 26), (i2os 0x6465666768 5)) := by
  decide +kernel

/-- V-I2: the signature opens, and fails with the last octet of M2 dropped. -/
theorem test_ds1_verify :
    results (runAt cfgEx (.ds1Verify 1) (load .msg (i2os 0x6465666768 5) (load .inp
      (i2os 0x0140a7fab93d6e9d744e70ddf91692f00ef08143704104182ce6 26) keyD))) = (.ok, abc, []) ∧
    results (runAt cfgEx (.ds1Verify 1) (load .msg (i2os 0x64656667 4) (load .inp
      (i2os 0x0140a7fab93d6e9d744e70ddf91692f00ef08143704104182ce6 26) keyD))) = (.fail, [], []) := by
  decide +kernel

/-- V-I3, key A. -/
theorem test_ds2_sign :
    results (runAt cfgEx (.ds2Sign 1 true true false true false)
      (load .msg (i2os 0x4142434445464748494a4b4c4d4e4f505152535455565758595a5b5c5d5e 30) (load .salt saltA keyA))) =
    (.ok, (i2os 0x38184daf79f67406a1d978cd6fd65cc3db9f33f193585952bf6fbbfcc469154e0ddb659a6b1b7ecf5f8a6bd91536329336f7750626b42f010bd842375ca35edc 64),
      (i2os 0x5758595a5b5c5d5e 8)) := by
  decide +kernel

/-- V-I3: recovery, and the failure with SALT_LEN = 21. -/
theorem test_ds2_verify :
    let s := load .msg (i2os 0x5758595a5b5c5d5e 8) (load .inp
      (i2os 0x38184daf79f67406a1d978cd6fd65cc3db9f33f193585952bf6fbbfcc469154e0ddb659a6b1b7ecf5f8a6bd91536329336f7750626b42f010bd842375ca35edc 64) keyA)
    results (runAt cfgEx (.ds2Verify 1 true) s) = (.ok, (i2os 0x4142434445464748494a4b4c4d4e4f50515253545556 22), []) ∧
    results (runAt cfgEx (.ds2Verify 1 false) (s.setLen .salt 21)) = (.fail, [], []) := by
  decide +kernel

/-- V-I4, V-I6, key A. -/
theorem test_ds3_sign :
    let s := load .msg (i2os 0x647333206d65737361676521 12) (load .salt (i2os 0x1011121314151617 8) keyA)
    results (runAt cfgEx (.ds3Sign 1 false true true) (m1b 64 s)) =
      (.ok, (i2os 0x085fffcbae0ebb7b885862cc3e7377f2ea619594a5bdb9608dfae91e2a9837ef506be2574f58a83c3e1dd6caaee7ab73786f4974eb0504eaa30b80b0a8da8693 64), (i2os 0x61676521 4)) ∧
    ran (.ds3Sign 1 false true true) (m1b 265 s) = some (.capacity, [], []) := by
  decide +kernel

/-- V-I4: recovery. -/
theorem test_ds3_verify :
    results (runAt cfgEx (.ds3Verify 1) ((load .msg (i2os 0x61676521 4) (load .inp
      (i2os 0x085fffcbae0ebb7b885862cc3e7377f2ea619594a5bdb9608dfae91e2a9837ef506be2574f58a83c3e1dd6caaee7ab73786f4974eb0504eaa30b80b0a8da8693 64) keyA)).setLen .salt 8)) =
      (.ok, (i2os 0x647333206d657373 8), []) := by
  decide +kernel

/-- V-X2: the order of the causes; empty slot and length; length and capacity. -/
theorem test_error_priority_checks :
    ran .rsaep (noKey.setLen .inp 0x401) = some (.illegal, [], []) ∧ ran .rsaep (keyA.setLen .inp 0x401) = some (.param, [], []) ∧
    ran .esV15Encrypt (keyA.setLen .msg 0x400) = some (.capacity, [], []) ∧
    ran (.ds2Sign 1 false true true false false) (keyA.setLen .salt 0x401) = some (.param, [], []) := by decide +kernel

/-- V-X2: the order of the causes inside a command's own rule. -/
theorem test_error_priority_rules :
    ran (.ssaV15Verify 2) (load .inp (List.replicate 64 0xFF) key55) = some (.capacity, [], []) ∧
    ran (.ssaV15Verify 2) (load .inp (List.replicate 64 0xFF) keyA) = some (.domain, [], []) ∧
    ran (.ds3Sign 1 false true true) (m1b 265 keyA) = some (.param, [], []) := by decide +kernel

/-! ## The bus -/

/-- Program P1 of section 5, statement by statement: `ldint KN, 55`, `run RSADP, crt`, `get OUT`, `ack`, `rb KD+0`; then an
empty string and the integer 0 (R100). -/
theorem test_script_events :
    (Stmt.ldint .kn 55).events cfg = [.write 0x7000 1 0x37, .write 0x40 4 1] ∧
    (Stmt.run 0x11 0 false false true false false 1).events cfg = [.write 0x00 4 0x4011, .read 0x04 4] ∧
    (Stmt.get .out 1).events cfg = [.read 0x38 4, .read 0x5000 1] ∧ Stmt.ack.events cfg = [.write 0x08 4 1] ∧
    (Stmt.rb .kd 0).events cfg = [.read 0x9000 1] ∧ (Stmt.ld .label []).events cfg = [.write 0x2C 4 0] ∧
    (Stmt.ldint .kq 0).events cfg = [.write 0xB000 1 0, .write 0x50 4 1] := by decide

/-- V-B1: reads. -/
theorem test_bus_reads :
    (∀ a ∈ [0x04, 0x08, 0x60, 0xFFC], busRead cfg State.reset a 4 = .word 0) ∧
    (∀ p ∈ [(0x05, 4), (0x06, 4), (0x04, 1), (0x04, 2), (0x1000, 4), (0x1400, 1), (0x1FFF, 1), (0xF000, 1), (0xF000, 4)],
      busRead cfg State.reset p.1 p.2 = .busError) ∧
    busRead cfg State.reset 0xE3FF 1 = .octet 0 := by decide +kernel

/-- V-B1: writes. -/
theorem test_bus_writes :
    busRead cfg (busWrite cfg State.reset 0x0C 4 0xFFFFFFFF) 0x0C 4 = .word 1 ∧
    busRead cfg (busWrite cfg State.reset 0x28 4 0xFFFFFFFF) 0x28 4 = .word 0xFFFFFFFF ∧
    busWrite cfg State.reset 0x38 4 5 = State.reset ∧
    busRead cfg (busWrite cfg State.reset 0x13FF 1 0x7E) 0x13FF 1 = .octet 0x7E ∧
    busWrite cfg State.reset 0x5000 1 0xAB = State.reset ∧
    (busWrite cfg State.reset 0x9000 1 0x17).octet .kd 0 = 0x17 ∧
    busRead cfg (busWrite cfg State.reset 0x9000 1 0x17) 0x9000 1 = .octet 0 := by decide +kernel

/-- R326: a write while BUSY is dropped; R23: an acknowledge needs DONE and bit 0. -/
theorem test_bus_phases :
    busWrite cfg noKey 0x1000 1 0xAB = noKey ∧
    busWrite cfg { noKey with phase := .done } 0x08 4 2 = { noKey with phase := .done } ∧
    busWrite cfg { noKey with phase := .done, err := .fail } 0x08 4 1 = { noKey with phase := .idle } := by decide +kernel

/-- Reset memory has the canonical form. -/
theorem test_reset_wf : ∀ b, (State.reset.buf b).wf := by
  intro b
  cases b <;> decide

/-! ## Witnesses: lemmas about the states above -/

theorem ready {C : Config} {i : Instr} {s : State} (h : preCheck C (useOf i) s = none) : Ready C i s :=
  (preCheck_eq_none_iff C i s).mp h

theorem notReady {C : Config} {i : Instr} {s : State} {e : Err} (h : preCheck C (useOf i) s = some e) : ¬ Ready C i s :=
  fun hr => by rw [(preCheck_eq_none_iff C i s).mpr hr] at h; cases h

theorem getLen_load (b c : BufId) (X : Bytes) (s : State) :
    (load b X s).len c = if c = b then BitVec.ofNat 32 X.length else s.len c := by
  cases b <;> cases c <;> rfl

theorem getBuf_load (b c : BufId) (X : Bytes) (s : State) :
    (load b X s).buf c = if c = b then Memory.ofBytes X else s.buf c := by
  cases b <;> cases c <;> rfl

theorem operand_load (b : BufId) (X : Bytes) (s : State) (h : X.length < 2 ^ 32) : (load b X s).operand b = X := by
  rw [State.operand, getLen_load, getBuf_load, if_pos rfl, if_pos rfl, BitVec.toNat_ofNat, Nat.mod_eq_of_lt h,
    Memory.bytes_ofBytes]

theorem operand_load_ne {b c : BufId} (X : Bytes) (s : State) (h : c ≠ b) : (load b X s).operand c = s.operand c := by
  rw [State.operand, getLen_load, getBuf_load, if_neg h, if_neg h, State.operand]

theorem inv_load {C : Config} {s : State} (b : BufId) (X : Bytes) (h : Inv C s) (ho : b ≠ .out) (ha : b ≠ .aux)
    (hX : X.length ≤ C.maxBuf) : Inv C (load b X s) := by
  have hout : (load b X s).buf .out = s.buf .out ∧ (load b X s).len .out = s.len .out := by
    rw [getLen_load, getBuf_load, if_neg ho.symm, if_neg ho.symm]; exact ⟨rfl, rfl⟩
  have haux : (load b X s).buf .aux = s.buf .aux ∧ (load b X s).len .aux = s.len .aux := by
    rw [getLen_load, getBuf_load, if_neg ha.symm, if_neg ha.symm]; exact ⟨rfl, rfl⟩
  refine ⟨fun c => ?_, ?_, ?_, h.errOnlyDone, ?_, h.pub, h.priv, h.crt, h.findings⟩
  · rw [getBuf_load]
    split
    · exact ⟨Memory.ofBytes_wf X, fun c hc => lt_of_lt_of_le (Memory.ofBytes_below X c hc) hX⟩
    · exact h.bufs c
  · rw [hout.2, haux.2]; exact h.outLen
  · simp only [State.octet, hout.1, haux.1, hout.2, haux.2]; exact h.tails
  · rw [hout.1, hout.2, haux.1, haux.2]; exact h.emptyOnError

/-- CFG-EX's bounds, which is all that the invariant asks of the configuration. -/
def Bounds (C : Config) : Prop := C.maxBuf = 0x400 ∧ C.maxK = some 8192

theorem bounds_cfg : Bounds cfg := ⟨rfl, rfl⟩

theorem inv_withKey {C : Config} {n e d p q dP dQ qInv : Nat} (hC : Bounds C) (hn : 1 ≤ n) (he : 1 ≤ e) (hp : 1 ≤ p) (hq : 1 ≤ q)
    (hk : bitlen n ≤ 8192) (hk' : bitlen (p * q) ≤ 8192) : Inv C (withKey n e d p q dP dQ qInv) := by
  have fits {k : Nat} (h : k ≤ 8192) : ceil8 k ≤ C.maxBuf := by rw [hC.1]; unfold ceil8; omega
  have bound {k : Nat} (h : k ≤ 8192) (m : Nat) (hm : C.maxK = some m) : k ≤ m := by rw [hC.2] at hm; cases hm; exact h
  refine ⟨fun b => ?_, ⟨Nat.zero_le _, Nat.zero_le _⟩, fun i => ⟨fun _ => rfl, fun _ => rfl⟩, fun _ => rfl,
    fun _ => ⟨rfl, rfl, rfl, rfl⟩, ?_, ?_, ?_, by simp [withKey, State.reset, Findings.none]⟩
  · have : (withKey n e d p q dP dQ qInv).buf b = [] := by cases b <;> rfl
    rw [this]; exact ⟨by decide, fun c hc => by cases hc⟩
  · exact ⟨hn, he, rfl, rfl, fits hk, bound hk⟩
  · exact ⟨hn, he, rfl, rfl, fits hk, bound hk⟩
  · exact ⟨hp, hq, rfl, rfl, rfl, fits hk', bound hk'⟩

theorem inv_key55 : Inv cfg key55 :=
  inv_withKey bounds_cfg (by decide) (by decide) (by decide) (by decide) (by decide +kernel) (by decide +kernel)

/-- A key whose exponents are 1, so that every power is its base. -/
def keyOne (n : Nat) : State := withKey n 1 1 n 1 1 1 0

theorem inv_keyOne {n : Nat} (h : 1 ≤ n) (hk : bitlen n ≤ 8192) : Inv cfg (keyOne n) :=
  inv_withKey bounds_cfg h (by decide) h (by decide) hk (by rwa [Nat.mul_one])

/-- The Mersenne primes `2^521 − 1` and `2^127 − 1`. -/
@[irreducible] def pM : Nat := 2 ^ 521 - 1

/-- See `pM`. -/
@[irreducible] def qM : Nat := 2 ^ 127 - 1

/-- The inverse of 65537 modulo `(pM − 1)·(qM − 1)`, up to a common factor of the two. -/
@[irreducible] def dM : Nat := 193900767558032071937636487021452117448910287312278971207800283425644781136078887330150457137153435273259066364624685827854923748501752122182388647400968388233585136878839649485385373845435689473

/-- A consistent key of 648 bits. -/
def keyM : State :=
  withKey (pM * qM) 65537 dM pM qM (dM % (pM - 1)) (dM % (qM - 1))
    979727562531154041852501774401922679891091383007346955882726701263684218572985384707124954864153847911443797168198245026370937080086027995137152098478736529

theorem mersenne_521 : mersenne 521 = pM := by
  unfold mersenne pM
  rfl

theorem prime_mersenne_521 : (mersenne 521).Prime := lucas_lehmer_sufficiency 521 (by norm_num) (by norm_num)

theorem prime_pM : pM.Prime := mersenne_521 ▸ prime_mersenne_521

theorem mersenne_127 : mersenne 127 = qM := by
  unfold mersenne qM
  rfl

theorem prime_mersenne_127 : (mersenne 127).Prime := lucas_lehmer_sufficiency 127 (by norm_num) (by norm_num)

theorem prime_qM : qM.Prime := mersenne_127 ▸ prime_mersenne_127

theorem inv_keyM {C : Config} (hC : Bounds C) : Inv C keyM :=
  inv_withKey hC (by decide +kernel) (by decide) (by decide +kernel) (by decide +kernel) (by decide +kernel) (by decide +kernel)

theorem keyPair_keyM (crt : Bool) : KeyPair keyM crt := by
  refine ⟨pM, qM, dM, prime_pM, prime_qM, by decide +kernel, by decide +kernel, by decide +kernel, by decide +kernel,
    by decide +kernel, ?_⟩
  cases crt
  · exact ⟨by decide +kernel, by decide +kernel⟩
  · exact ⟨by decide +kernel, by decide +kernel, by decide +kernel, by decide +kernel, by decide +kernel, by decide +kernel,
      by decide +kernel, by decide +kernel⟩

theorem keyPair_load {s : State} {crt : Bool} (b : BufId) (X : Bytes) (h : KeyPair s crt) : KeyPair (load b X s) crt := h

theorem maxBuf_lt : cfg.maxBuf < 2 ^ 32 := by decide

/-! ## Witnesses: reset, encoding, steps -/

theorem witness_ResetBringsEveryValue : (let s := { key55 with inputs := [.reset] }
    s.inputs = .reset :: [] ∧ step s = .next State.reset ∧ s.phase = .busy) := ⟨rfl, rfl, rfl⟩

theorem witness_StepKeepsInvariant : cfg.maxBuf < 2 ^ 32 ∧ Inv cfg (load .inp [2] key55) ∧
    (∃ t, stepAt cfg (load .inp [2] key55) = .next t) ∧ ∃ t, step (load .inp [2] key55) = .next t :=
  ⟨maxBuf_lt, inv_load _ _ inv_key55 (by decide) (by decide) (by decide), ⟨_, rfl⟩, ⟨_, rfl⟩⟩

theorem witness_DecodeOfEncode : (Instr.ds2Sign 15 true true true true false).wf = true := by decide

theorem witness_EncodeOfDecode : decode 0x0000FF42#32 = .ok (.ds2Sign 15 true true true true false) := by decide

theorem witness_DecodeMatchesOpcodeTable :
    (let w := 0x0000FF42#32
     let i := Instr.ds2Sign 15 true true true true false
     decode w = .ok i ∧ w &&& i.pattern.1 = i.pattern.2 ∧ (w.getLsbD 15 && w.getLsbD 16) = false) := by decide

theorem witness_ReservedOpcodesAreIllegal :
    (∀ w ∈ [0x05, 0x0F, 0x15, 0x1F, 0x28, 0x2F, 0x38, 0x3F, 0x46, 0xFF, 0xFFFFFF46],
      let opc := (BitVec.ofNat 32 w).toNat % 256
      (0x05 ≤ opc ∧ opc ≤ 0x0F) ∨ (0x15 ≤ opc ∧ opc ≤ 0x1F) ∨ (0x28 ≤ opc ∧ opc ≤ 0x2F) ∨ (0x38 ≤ opc ∧ opc ≤ 0x3F) ∨
        (0x46 ≤ opc ∧ opc ≤ 0xFF)) ∧
    ∀ w : Word, (let s := { State.reset with inputs := [.write 0x00 4 w.toNat] }
      s.phase ≠ .busy ∧ s.inputs = [.write 0x00 4 w.toNat]) :=
  ⟨by decide +kernel, fun _ => ⟨nofun, rfl⟩⟩

theorem witness_EveryWordHasAnOutcome : noKey.phase = .busy ∧ noKey.inputs = [] := ⟨rfl, rfl⟩

theorem witness_StepRunsTheDecodedCommand :
    (let s := { key55 with cmd := 0x10 }
     s.phase = .busy ∧ s.inputs = [] ∧ decode s.cmd = .ok .rsaep ∧
       { s with inputs := [.engine] }.inputs = .engine :: [] ∧ { s with inputs := [.read 4 4] }.inputs = .read 4 4 :: [] ∧
       { s with inputs := [.write 0x20 4 7] }.inputs = .write 0x20 4 7 :: [] ∧
       { s with inputs := [.reset, .engine] }.inputs = .reset :: [.engine]) ∧
    State.reset.phase ≠ .busy ∧ State.reset.inputs = [] := ⟨⟨rfl, rfl, rfl, rfl, rfl, rfl, rfl⟩, by decide, rfl⟩

/-! ## Witnesses: the bus -/

theorem witness_OtherAccessesAreBusErrors : ∀ p ∈ [(0, 2), (1, 4), (0x0FFF, 4), (0x1000, 4), (0x0FFF, 1), (0x1400, 1), (0xF000, 1)],
    ¬ (p.2 = 4 ∧ p.1 % 4 = 0 ∧ p.1 < cfg.bufStride) ∧
    ¬ (p.2 = 1 ∧ ∃ id i, id ≤ 13 ∧ i < cfg.maxBuf ∧ p.1 = (id + 1) * cfg.bufStride + i) := by
  intro p hp
  simp only [List.mem_cons, List.not_mem_nil, or_false] at hp
  have h1 : cfg.bufStride = 0x1000 := rfl
  have h2 : cfg.maxBuf = 0x400 := rfl
  rw [h1, h2]
  rcases hp with rfl | rfl | rfl | rfl | rfl | rfl | rfl <;>
    exact ⟨by decide, fun ⟨h, id, i, h3, h4, h5⟩ => by simp only at h h5; omega⟩

theorem witness_RegisterMapReads : State.reset.phase ≠ .busy ∧
    ∀ addr ∈ [0x60, 0xFFC], 0x60 ≤ addr ∧ addr % 4 = 0 ∧ addr < cfg.bufStride := by decide

theorem witness_RegisterWritesReadBack : State.reset.phase ≠ .busy ∧ BufId.msg ≠ .out ∧ BufId.msg ≠ .aux ∧ BufId.kqinv ≠ .msg := by
  decide

theorem witness_BufferOctetAccess : State.reset.phase ≠ .busy ∧ (∀ i ∈ [0, 1023], i < cfg.maxBuf) ∧
    BufId.msg ∈ [BufId.msg, .label, .salt, .inp, .out, .aux, .kn, .ke] ∧ BufId.kqinv ≠ .out ∧ BufId.kqinv ≠ .aux ∧
    (State.reset.buf .kqinv).wf ∧ (BufId.aux = .out ∨ BufId.aux = .aux) := by decide

theorem witness_SecretBuffersReadZero : BufId.kqinv ∈ [BufId.kd, .kp, .kq, .kdp, .kdq, .kqinv] ∧ 1023 < cfg.maxBuf ∧
    State.reset.phase ≠ .busy ∧ (State.reset.buf .kqinv).wf := by decide

theorem witness_CmdAndAckWrites :
    State.reset.phase ≠ .busy ∧ noKey.phase = .busy ∧ { noKey with phase := .done }.phase = .done ∧
    (1#32).getLsbD 0 = true ∧ (0xFFFFFFFE#32).getLsbD 0 = false := by decide

theorem witness_InterruptIsALevel : { noKey with phase := .done, doneIe := true }.phase = .done ∧ (1#32).getLsbD 0 = true ∧
    State.reset.phase ≠ .busy := by decide

theorem witness_BusyDropsWritesAndHidesReads : key55.phase = .busy ∧ Inv cfg key55 ∧
    (∀ addr ∈ [0x08, 0x10, 0xFFC], addr ≠ 0x00 ∧ addr ≠ 0x04 ∧ addr ≠ 0x0C ∧ addr % 4 = 0 ∧ addr < cfg.bufStride) ∧
    1023 < cfg.maxBuf ∧ busRead cfg State.reset 0x1000 4 = .busError :=
  ⟨rfl, inv_key55, by decide +kernel, by decide, by decide +kernel⟩

/-! ## Witnesses: the life of a command -/

theorem witness_SuccessHoldsItsResults : (List.replicate 1024 0xFF#8).length < 2 ^ 32 ∧ ([] : Bytes).length < 2 ^ 32 := by
  decide +kernel

theorem witness_ErrorChangesNothingElse : (runAt cfg .rsaep (load .inp [55] key55)).err ≠ .ok ∧
    (runAt cfg .keyLoadPub noKey).err ≠ .ok := by decide +kernel

theorem witness_CommandFrame : isKeyCommand .rsaep = false ∧ isIsoSign .rsaep = false ∧ ∃ t, exec .rsaep key55 = .next t :=
  ⟨rfl, rfl, _, rfl⟩

theorem witness_KeyLoadFrame : (∃ t, exec .keyLoadPub key55 = .next t) ∧ (∃ t, exec .keyLoadPriv key55 = .next t) ∧
    ∃ t, exec .keyLoadCrt key55 = .next t := ⟨⟨_, rfl⟩, ⟨_, rfl⟩, ⟨_, rfl⟩⟩

theorem witness_CommandSeesOperandsAtAccept :
    (let es : List HostEvent := [.write 0x4000 1 3, .write 0 4 0, .read 4 4]
     let s := { load .inp [2] key55 with cmd := 0x10, inputs := es ++ HostEvent.engine :: [] }
     s.phase = .busy ∧ s.inputs = es ++ HostEvent.engine :: [] ∧ decode s.cmd = .ok .rsaep ∧
       ∀ e ∈ es, (∃ a n, e = .read a n) ∨ ∃ a n v, e = .write a n v) := by
  refine ⟨rfl, rfl, rfl, fun e he => ?_⟩
  simp only [List.mem_cons, List.not_mem_nil, or_false] at he
  rcases he with rfl | rfl | rfl <;> simp

theorem witness_ResultsStayUntilNextAccept :
    (let s := { key55 with phase := .done, inputs := [.write 0x08 4 1] }
     s.phase ≠ .busy ∧ (∃ t, stepAt cfg s = .next t) ∧ (∀ rest, s.inputs ≠ .reset :: rest) ∧
       ∀ v rest, s.inputs ≠ .write 0x00 4 v :: rest) := by
  refine ⟨by decide, ⟨_, rfl⟩, ?_, ?_⟩ <;> simp

theorem witness_ErrorCodesPerCommand : Inv cfg (load .inp [2] key55) :=
  inv_load _ _ inv_key55 (by decide) (by decide) (by decide)

theorem witness_CommonChecksComeFirst :
    (let s := { noKey with cmd := 0xFF }
     s.phase = .busy ∧ s.inputs = [] ∧ ∃ x, decode s.cmd = .error x) ∧
    ¬ Legal cfg .rsaep noKey ∧
    (let s := key55.setLen .inp 0x401
     Legal cfg .rsaep s ∧ ¬ Sized cfg .rsaep s) := by
  refine ⟨⟨rfl, rfl, _, rfl⟩, fun h => ?_, ⟨rfl, ?_, rfl⟩, fun h => ?_⟩
  · exact absurd h.2.2 (by decide)
  · intro h hh
    exact absurd hh (by simp [useOf])
  · exact absurd (h.1 .inp (by decide)) (by decide)

theorem witness_OnlyMarkedCommandsDraw : mayDraw (.pssEncode 1 true false) = false := rfl

/-- Two states that differ in FINDINGS, in an octet past IN_LEN, in a slot not used and in M1BITS. -/
theorem witness_ResultsDependOnOperandsOnly :
    (let s := load .inp [2] key55
     let t := { (s.setOctet .inp 1 7) with findings := ⟨true, true, true, true, true⟩, priv := PrivSlot.empty, m1bits := 8 }
     SameOperands .rsaep s t ∧ s ≠ t) := by
  refine ⟨⟨rfl, fun _ => rfl, fun h => (nomatch h), fun h => (nomatch h), fun _ _ => rfl, ?_, fun h => (nomatch h),
    fun ⟨_, _, _, _, h⟩ => (nomatch h), fun h => (nomatch h)⟩, by decide +kernel⟩
  intro b hb _ j hj
  have hb' : b = .inp := by simpa [useOf] using hb
  subst hb'
  have hj0 : j = 0 := by
    have : ((load .inp [2] key55).len .inp).toNat = 1 := by decide
    omega
  subst hj0
  decide +kernel

/-! ## Witnesses: housekeeping, keys, primitives -/

theorem witness_NopAndKeyClear : decode { key55 with cmd := 0x04 }.cmd = .ok .keyClear := rfl

/-- A block whose slots hold moduli of at most 16 bits. -/
def cfg16 : Config :=
  { cfg with
    maxK := some 16
    maxK_pos := fun k h => by cases h; decide
    maxBuf_ge := fun k h => by cases h; decide }

/-- A key, a modulus of 16 bits, one of 17, an empty KN; a length register too great. -/
theorem witness_KeyLoadPubInstallsTheKey :
    (let s := load .kn [55] (load .ke [1] noKey)
     Ready cfg .keyLoadPub s ∧ 2 ^ 5 ≤ s.intOperand .kn ∧ s.intOperand .kn < 2 ^ 6 ∧ 2 ^ 0 ≤ s.intOperand .ke ∧
       s.intOperand .ke < 2 ^ 1 ∧ ∀ m, cfg.maxK = some m → 6 ≤ m) ∧
    (let s := load .kn [0, 0xFF, 0xFF] (load .ke [3] noKey)
     Ready cfg16 .keyLoadPub s ∧ 2 ^ 15 ≤ s.intOperand .kn ∧ s.intOperand .kn < 2 ^ 16 ∧ 2 ^ 1 ≤ s.intOperand .ke ∧
       s.intOperand .ke < 2 ^ 2 ∧ ∀ m, cfg16.maxK = some m → 16 ≤ m) ∧
    (let s := load .kn [1, 0, 0] (load .ke [3] noKey)
     Ready cfg16 .keyLoadPub s ∧ cfg16.maxK = some 16 ∧ 2 ^ 16 ≤ s.intOperand .kn) ∧
    (Ready cfg .keyLoadPub noKey ∧ noKey.intOperand .kn = 0) ∧ ¬ Ready cfg .keyLoadPub (noKey.setLen .ke 0x401) := by
  refine ⟨⟨ready (by decide +kernel), by decide +kernel, by decide +kernel, by decide +kernel, by decide +kernel,
      fun m hm => by cases hm; decide⟩,
    ⟨ready (by decide +kernel), by decide +kernel, by decide +kernel, by decide +kernel, by decide +kernel,
      fun m hm => by cases hm; decide⟩,
    ⟨ready (by decide +kernel), rfl, by decide +kernel⟩, ⟨ready (by decide +kernel), by decide +kernel⟩,
    notReady (e := .param) (by decide +kernel)⟩

theorem witness_KeyLoadPrivInstallsTheKey :
    (let s := load .kn [55] (load .ke [7] (load .kd [23] noKey))
     Ready cfg .keyLoadPriv s ∧ 2 ^ 5 ≤ s.intOperand .kn ∧ s.intOperand .kn < 2 ^ 6 ∧ 2 ^ 2 ≤ s.intOperand .ke ∧
       s.intOperand .ke < 2 ^ 3 ∧ ∀ m, cfg.maxK = some m → 6 ≤ m) ∧
    (let s := load .kn [1, 0, 0] (load .ke [3] (load .kd [5] noKey))
     Ready cfg16 .keyLoadPriv s ∧ cfg16.maxK = some 16 ∧ 2 ^ 16 ≤ s.intOperand .kn) ∧
    (Ready cfg .keyLoadPriv noKey ∧ noKey.intOperand .ke = 0) ∧ ¬ Ready cfg .keyLoadPriv (noKey.setLen .kd 0x401) := by
  refine ⟨⟨ready (by decide +kernel), by decide +kernel, by decide +kernel, by decide +kernel, by decide +kernel,
      fun m hm => by cases hm; decide⟩,
    ⟨ready (by decide +kernel), rfl, by decide +kernel⟩, ⟨ready (by decide +kernel), by decide +kernel⟩,
    notReady (e := .param) (by decide +kernel)⟩

/-- Also primes' places holding two numbers of 513 octets, whose product is too long for MAX_K and for MAX_BUF, and two whose
product has 17 bits where MAX_K is 16. -/
theorem witness_KeyLoadCrtInstallsTheKey :
    (let s := load .kp [11] (load .kq [5] noKey)
     Ready cfg .keyLoadCrt s ∧ 2 ^ 5 ≤ s.intOperand .kp * s.intOperand .kq ∧ s.intOperand .kp * s.intOperand .kq < 2 ^ 6 ∧
       (∀ m, cfg.maxK = some m → 6 ≤ m) ∧ (6 + 7) / 8 ≤ cfg.maxBuf) ∧
    (let s := load .kp (1 :: List.replicate 512 0) (load .kq (1 :: List.replicate 512 0) noKey)
     Ready cfg .keyLoadCrt s ∧ cfg.maxK = some 8192 ∧ 2 ^ 8192 ≤ s.intOperand .kp * s.intOperand .kq ∧
       2 ^ (8 * cfg.maxBuf) ≤ s.intOperand .kp * s.intOperand .kq) ∧
    (let s := load .kp [1, 0] (load .kq [1, 0] noKey)
     Ready cfg16 .keyLoadCrt s ∧ cfg16.maxK = some 16 ∧ 2 ^ 16 ≤ s.intOperand .kp * s.intOperand .kq) ∧
    (let s := load .kp [11] noKey
     Ready cfg .keyLoadCrt s ∧ s.intOperand .kq = 0) ∧ ¬ Ready cfg .keyLoadCrt (noKey.setLen .kqinv 0x401) := by
  refine ⟨⟨ready (by decide +kernel), by decide +kernel, by decide +kernel, fun m hm => by cases hm; decide, by decide⟩,
    ⟨ready (by decide +kernel), rfl, by decide +kernel, by decide +kernel⟩,
    ⟨ready (by decide +kernel), rfl, by decide +kernel⟩, ⟨ready (by decide +kernel), by decide +kernel⟩,
    notReady (e := .param) (by decide +kernel)⟩

theorem witness_ModExpIsThePower : 1 ≤ 1 ∧ 0 < 1 ∧ 1 ≤ 55 ∧ 54 < 55 := by decide

/-- The greatest representative and the first that is out of range; a length too great. -/
theorem witness_PublicPrimitives :
    (Ready cfg .rsaep (load .inp [54] key55) ∧ (load .inp [54] key55).intOperand .inp < (load .inp [54] key55).pub.n) ∧
    (Ready cfg .rsavp1 (load .inp [55] key55) ∧ (load .inp [55] key55).pub.n ≤ (load .inp [55] key55).intOperand .inp) ∧
    ¬ Ready cfg .rsaep (key55.setLen .inp 0x401) ∧ ¬ Ready cfg .rsavp1 noKey :=
  ⟨⟨ready (by decide +kernel), by decide +kernel⟩, ⟨ready (by decide +kernel), by decide +kernel⟩,
    notReady (e := .param) (by decide +kernel), notReady (e := .illegal) (by decide +kernel)⟩

theorem witness_PrivatePrimitives : ∀ crt,
    (Ready cfg (.rsadp crt) (load .inp [54] key55) ∧ (load .inp [54] key55).intOperand .inp < ((load .inp [54] key55).privMod crt).n) ∧
    (Ready cfg (.rsasp1 crt) (load .inp [55] key55) ∧
      ((load .inp [55] key55).privMod crt).n ≤ (load .inp [55] key55).intOperand .inp) ∧ ¬ Ready cfg (.rsadp crt) noKey := by
  intro crt
  exact ⟨⟨ready (by cases crt <;> decide +kernel), by cases crt <;> decide +kernel⟩,
    ⟨ready (by cases crt <;> decide +kernel), by cases crt <;> decide +kernel⟩,
    notReady (e := .illegal) (by cases crt <;> decide +kernel)⟩

theorem witness_MinselDeliversTheSmaller :
    (Ready cfg .minsel (load .inp [54] key55) ∧ (load .inp [54] key55).intOperand .inp < (load .inp [54] key55).pub.n ∧
      2 * (load .inp [54] key55).intOperand .inp ≠ (load .inp [54] key55).pub.n) ∧
    (Ready cfg .minsel (load .inp [55] key55) ∧ (load .inp [55] key55).pub.n ≤ (load .inp [55] key55).intOperand .inp) ∧
    ¬ Ready cfg .minsel noKey :=
  ⟨⟨ready (by decide +kernel), by decide +kernel, by decide +kernel⟩, ⟨ready (by decide +kernel), by decide +kernel⟩,
    notReady (e := .illegal) (by decide +kernel)⟩

theorem witness_CrtAgreesWithPlain :
    Inv cfg key55 ∧ key55.priv.valid = true ∧ key55.crt.valid = true ∧ key55.crt.p.Prime ∧ key55.crt.q.Prime ∧
    key55.crt.p ≠ key55.crt.q ∧ key55.priv.n = key55.crt.p * key55.crt.q ∧ 1 ≤ key55.priv.d ∧ 1 ≤ key55.crt.dP ∧
    1 ≤ key55.crt.dQ ∧ key55.crt.dP % (key55.crt.p - 1) = key55.priv.d % (key55.crt.p - 1) ∧
    key55.crt.dQ % (key55.crt.q - 1) = key55.priv.d % (key55.crt.q - 1) ∧ key55.crt.qInv * key55.crt.q % key55.crt.p = 1 :=
  ⟨inv_key55, rfl, rfl, (by norm_num : Nat.Prime 11), (by norm_num : Nat.Prime 5), by decide, rfl, by decide, by decide, by decide,
    rfl, rfl, rfl⟩

/-! ## Witnesses: encodings without a key -/

/-- EMBITS = 88 fits the empty message exactly; 80 does not; 81 is no whole number of octets; 8200 is longer than a buffer. -/
theorem witness_EmeV15EncodeAndEncrypt :
    (let s := emb 88 noKey
     Ready cfg .emeV15Encode s ∧ s.embits.toNat % 8 = 0 ∧ (s.operand .msg).length + 11 ≤ s.embits.toNat / 8) ∧
    (let s := emb 80 noKey
     Ready cfg .emeV15Encode s ∧ s.embits.toNat % 8 = 0 ∧ s.embits.toNat / 8 < (s.operand .msg).length + 11) ∧
    (Ready cfg .emeV15Encode (emb 81 noKey) ∧ (emb 81 noKey).embits.toNat % 8 ≠ 0) ∧ ¬ Ready cfg .emeV15Encode (emb 8200 noKey) ∧
    (let s := load .msg (List.replicate 70 0) keyM
     Inv cfg s ∧ Ready cfg .esV15Encrypt s ∧ (s.operand .msg).length + 11 ≤ s.pub.klen) ∧
    (let s := load .msg (List.replicate 71 0) keyM
     Inv cfg s ∧ Ready cfg .esV15Encrypt s ∧ s.pub.klen < (s.operand .msg).length + 11) ∧ ¬ Ready cfg .esV15Encrypt noKey :=
  ⟨⟨ready (by decide +kernel), by decide +kernel, by decide +kernel⟩,
    ⟨ready (by decide +kernel), by decide +kernel, by decide +kernel⟩,
    ⟨ready (by decide +kernel), by decide +kernel⟩, notReady (e := .param) (by decide +kernel),
    ⟨inv_load _ _ (inv_keyM bounds_cfg) (by decide) (by decide) (by decide +kernel), ready (by decide +kernel), by decide +kernel⟩,
    ⟨inv_load _ _ (inv_keyM bounds_cfg) (by decide) (by decide) (by decide +kernel), ready (by decide +kernel), by decide +kernel⟩,
    notReady (e := .illegal) (by decide +kernel)⟩

/-- A string that is no EME-PKCS1-v1_5 encoding: its first octet is not 0x00. -/
theorem not_emeForm_one (X M : Bytes) : ¬ EmeForm (0x01 :: X) M := by
  rintro ⟨PS, -, -, h⟩
  cases h

/-- Eight octets of padding; an encoding with a wrong first octet; the same through the power of a key with exponent 1. -/
theorem witness_EmeV15DecodeAndDecrypt :
    (let EM : Bytes := [0, 2, 1, 2, 3, 4, 5, 6, 7, 8, 0, 0x55]
     (Ready cfg .emeV15Decode (load .inp EM noKey) ∧ EmeForm ((load .inp EM noKey).operand .inp) [0x55]) ∧
     (let s := load .inp EM (keyOne (256 ^ 12 - 1))
      Ready cfg (.esV15Decrypt false) s ∧ s.intOperand .inp < (s.privMod false).n ∧
        EmeForm (i2os (privPower s false (s.intOperand .inp)) (s.privMod false).klen) [0x55])) ∧
    (Ready cfg .emeV15Decode (load .inp [1] noKey) ∧ ∀ M, ¬ EmeForm ((load .inp [1] noKey).operand .inp) M) ∧
    (let s := load .inp [1] (keyOne 255)
     Ready cfg (.esV15Decrypt false) s ∧ s.intOperand .inp < (s.privMod false).n ∧
       ∀ M, ¬ EmeForm (i2os (privPower s false (s.intOperand .inp)) (s.privMod false).klen) M) ∧
    (∀ crt, Ready cfg (.esV15Decrypt crt) (load .inp [55] key55) ∧
      ((load .inp [55] key55).privMod crt).n ≤ (load .inp [55] key55).intOperand .inp) ∧
    ¬ Ready cfg .emeV15Decode (noKey.setLen .inp 0x401) ∧ ¬ Ready cfg (.esV15Decrypt true) noKey := by
  have form : EmeForm [0, 2, 1, 2, 3, 4, 5, 6, 7, 8, 0, 0x55] [0x55] :=
    ⟨[1, 2, 3, 4, 5, 6, 7, 8], by decide, by decide, rfl⟩
  refine ⟨⟨⟨ready (by decide +kernel), ?_⟩, ready (by decide +kernel), by decide +kernel, ?_⟩,
    ⟨ready (by decide +kernel), ?_⟩, ⟨ready (by decide +kernel), by decide +kernel, ?_⟩,
    fun crt => ⟨ready (by cases crt <;> decide +kernel), by cases crt <;> decide +kernel⟩,
    notReady (e := .param) (by decide +kernel), notReady (e := .illegal) (by decide +kernel)⟩
  · rw [operand_load _ _ _ (by decide)]; exact form
  · have h : i2os (privPower (load .inp [0, 2, 1, 2, 3, 4, 5, 6, 7, 8, 0, 0x55] (keyOne (256 ^ 12 - 1))) false
        ((load .inp [0, 2, 1, 2, 3, 4, 5, 6, 7, 8, 0, 0x55] (keyOne (256 ^ 12 - 1))).intOperand .inp))
        ((load .inp [0, 2, 1, 2, 3, 4, 5, 6, 7, 8, 0, 0x55] (keyOne (256 ^ 12 - 1))).privMod false).klen =
        [0, 2, 1, 2, 3, 4, 5, 6, 7, 8, 0, 0x55] := by decide +kernel
    rw [h]; exact form
  · intro M
    rw [operand_load _ _ _ (by decide)]
    exact not_emeForm_one _ M
  · intro M
    have h : i2os (privPower (load .inp [1] (keyOne 255)) false ((load .inp [1] (keyOne 255)).intOperand .inp))
        ((load .inp [1] (keyOne 255)).privMod false).klen = [1] := by decide +kernel
    rw [h]
    exact not_emeForm_one _ M

theorem witness_Mgf1DeliversTheMask :
    (Ready cfg (.mgf1 1) (emb 12 noKey) ∧ (emb 12 noKey).embits.toNat % 8 ≠ 0) ∧
    (Ready cfg (.mgf1 2) (emb 8192 noKey) ∧ (emb 8192 noKey).embits.toNat % 8 = 0) ∧ ¬ Ready cfg (.mgf1 0) noKey :=
  ⟨⟨ready (by decide +kernel), by decide +kernel⟩, ⟨ready (by decide +kernel), by decide +kernel⟩,
    notReady (e := .illegal) (by decide +kernel)⟩

/-- EMBITS = 336 is 42 octets, which the empty message fits under selector 1; 328 does not; key M has 81 octets. -/
theorem witness_OaepEncodeAndEncrypt :
    (let s := emb 336 noKey
     Ready cfg (.oaepEncode 1) s ∧ s.embits.toNat % 8 = 0 ∧ (s.operand .msg).length + 2 * hLen cfg 1 + 2 ≤ s.embits.toNat / 8) ∧
    (let s := emb 328 noKey
     Ready cfg (.oaepEncode 1) s ∧ s.embits.toNat % 8 = 0 ∧ s.embits.toNat / 8 < (s.operand .msg).length + 2 * hLen cfg 1 + 2) ∧
    (Ready cfg (.oaepEncode 1) (emb 335 noKey) ∧ (emb 335 noKey).embits.toNat % 8 ≠ 0) ∧ ¬ Ready cfg (.oaepEncode 3) noKey ∧
    (let s := load .msg (List.replicate 39 0) keyM
     Inv cfg s ∧ Ready cfg (.esOaepEncrypt 1) s ∧ (s.operand .msg).length + 2 * hLen cfg 1 + 2 ≤ s.pub.klen) ∧
    (let s := load .msg (List.replicate 40 0) keyM
     Inv cfg s ∧ Ready cfg (.esOaepEncrypt 1) s ∧ s.pub.klen < (s.operand .msg).length + 2 * hLen cfg 1 + 2) ∧
    ¬ Ready cfg (.esOaepEncrypt 1) noKey :=
  ⟨⟨ready (by decide +kernel), by decide +kernel, by decide +kernel⟩,
    ⟨ready (by decide +kernel), by decide +kernel, by decide +kernel⟩,
    ⟨ready (by decide +kernel), by decide +kernel⟩, notReady (e := .illegal) (by decide +kernel),
    ⟨inv_load _ _ (inv_keyM bounds_cfg) (by decide) (by decide) (by decide +kernel), ready (by decide +kernel), by decide +kernel⟩,
    ⟨inv_load _ _ (inv_keyM bounds_cfg) (by decide) (by decide) (by decide +kernel), ready (by decide +kernel), by decide +kernel⟩,
    notReady (e := .illegal) (by decide +kernel)⟩

theorem witness_EmsaV15EncodeSignVerify :
    (let s := emb 368 noKey
     Ready cfg (.emsaV15Encode 1) s ∧ s.embits.toNat % 8 = 0 ∧ cfg.tLen 1 + 11 ≤ s.embits.toNat / 8) ∧
    (let s := emb 360 noKey
     Ready cfg (.emsaV15Encode 1) s ∧ s.embits.toNat % 8 = 0 ∧ s.embits.toNat / 8 < cfg.tLen 1 + 11) ∧
    (Ready cfg (.emsaV15Encode 1) (emb 369 noKey) ∧ (emb 369 noKey).embits.toNat % 8 ≠ 0) ∧ ¬ Ready cfg (.emsaV15Encode 0) noKey ∧
    (∀ crt, Inv cfg keyM ∧ Ready cfg (.ssaV15Sign 2 crt) keyM ∧ cfg.tLen 2 + 11 ≤ (keyM.privMod crt).klen) ∧
    (∀ crt, Inv cfg key55 ∧ Ready cfg (.ssaV15Sign 2 crt) key55 ∧ (key55.privMod crt).klen < cfg.tLen 2 + 11) ∧
    ¬ Ready cfg (.ssaV15Sign 1 true) noKey ∧ ¬ Ready cfg (.ssaV15Verify 1) noKey ∧
    (Inv cfg key55 ∧ Ready cfg (.ssaV15Verify 1) key55 ∧ key55.pub.klen < cfg.tLen 1 + 11) ∧
    (let s := load .inp (List.replicate 81 0xFF) keyM
     Inv cfg s ∧ Ready cfg (.ssaV15Verify 1) s ∧ cfg.tLen 1 + 11 ≤ s.pub.klen ∧ s.pub.n ≤ s.intOperand .inp) :=
  ⟨⟨ready (by decide +kernel), by decide +kernel, by decide +kernel⟩,
    ⟨ready (by decide +kernel), by decide +kernel, by decide +kernel⟩,
    ⟨ready (by decide +kernel), by decide +kernel⟩, notReady (e := .illegal) (by decide +kernel),
    fun crt => ⟨(inv_keyM bounds_cfg), ready (by cases crt <;> decide +kernel), by cases crt <;> decide +kernel⟩,
    fun crt => ⟨inv_key55, ready (by cases crt <;> decide +kernel), by cases crt <;> decide +kernel⟩,
    notReady (e := .illegal) (by decide +kernel), notReady (e := .illegal) (by decide +kernel),
    ⟨inv_key55, ready (by decide +kernel), by decide +kernel⟩,
    ⟨inv_load _ _ (inv_keyM bounds_cfg) (by decide) (by decide) (by decide +kernel), ready (by decide +kernel), by decide +kernel,
      by decide +kernel⟩⟩

/-! ## Witnesses: under the free hash, through the powers of a key with exponent 1 -/

theorem intOperand_load (X : Bytes) (s : State) (hX : X.length < 2 ^ 32) : (load .inp X s).intOperand .inp = os2ip X := by
  rw [State.intOperand, operand_load _ _ _ hX]

theorem pubPower_keyOne {n : Nat} {X : Bytes} (hX : X.length < 2 ^ 32) (h : os2ip X < n) :
    pubPower (load .inp X (keyOne n)) ((load .inp X (keyOne n)).intOperand .inp) = os2ip X := by
  rw [intOperand_load X _ hX]
  show os2ip X ^ 1 % n = os2ip X
  rw [pow_one, Nat.mod_eq_of_lt h]

theorem privPower_keyOne {n : Nat} {X : Bytes} (hX : X.length < 2 ^ 32) (h : os2ip X < n) :
    privPower (load .inp X (keyOne n)) false ((load .inp X (keyOne n)).intOperand .inp) = os2ip X := by
  rw [intOperand_load X _ hX]
  show os2ip X ^ 1 % n = os2ip X
  rw [pow_one, Nat.mod_eq_of_lt h]

/-- What the common checks look at does not depend on the octets of IN. -/
theorem ready_load {i : Instr} {X : Bytes} {s : State} (h : preCheck cfg (useOf i) (s.setLen .inp (BitVec.ofNat 32 X.length)) = none) :
    Ready cfg i (load .inp X s) := by
  have hr := ready h
  have hl : (load .inp X s).lens = (s.setLen .inp (BitVec.ofNat 32 X.length)).lens := rfl
  refine ⟨hr.flags, hr.hash, ?_, fun b hb => ?_, hr.embits⟩
  · have := hr.slot
    revert this
    cases (useOf i).slot <;> exact id
  · have := hr.lens b hb
    rw [State.len] at this ⊢
    rw [hl]; exact this

/-- The RSAES-OAEP encoding of the empty message in 64 octets, label empty, seed zero. -/
def oaepStr : Bytes := oaepEncode cfg 1 [] [] 64 (List.replicate 20 0)

theorem oaepStr_length : oaepStr.length = 64 := length_oaepEncode rfl (by decide) (by decide)

theorem lt_of_zero_head {X : Bytes} (hl : X.length = 64) (h0 : X.headD 1 = 0) : os2ip X < 256 ^ 64 - 1 := by
  cases X with
  | nil => simp at hl
  | cons b X =>
    have hb : b = 0 := h0
    subst hb
    rw [os2ip_zero_cons]
    have h1 := os2ip_lt X
    have h2 : X.length = 63 := by simpa using hl
    rw [h2] at h1
    have h3 : (256 : Nat) ^ 63 ≤ 256 ^ 64 - 1 := by decide +kernel
    omega

theorem i2os_os2ip_of_length {X : Bytes} {l : Nat} (h : X.length = l) : i2os (os2ip X) l = X := by
  rw [← h, i2os_os2ip]

theorem not_oaep_one (C : Config) (h : Sel) (X M L seed : Bytes) (l : Nat) : 0x01 :: X ≠ oaepEncode C h M L l seed := by
  intro he
  simp [oaepEncode] at he

theorem witness_OaepDecodeAndDecrypt :
    (Ready cfg (.oaepDecode 1) (load .inp [1] noKey) ∧ ((load .inp [1] noKey).operand .inp).length < 2 * hLen cfg 1 + 2) ∧
    (let s := load .inp oaepStr noKey
     Ready cfg (.oaepDecode 1) s ∧ 2 * hLen cfg 1 + 2 ≤ (s.operand .inp).length ∧
       ∃ seed : Bytes, seed.length = hLen cfg 1 ∧ ([] : Bytes).length + 2 * hLen cfg 1 + 2 ≤ (s.operand .inp).length ∧
         s.operand .inp = oaepEncode cfg 1 [] (s.operand .label) (s.operand .inp).length seed) ∧
    (let s := load .inp (0x01 :: List.replicate 41 0) noKey
     Ready cfg (.oaepDecode 1) s ∧ 2 * hLen cfg 1 + 2 ≤ (s.operand .inp).length ∧
       ∀ M seed, s.operand .inp ≠ oaepEncode cfg 1 M (s.operand .label) (s.operand .inp).length seed) ∧
    (∀ crt, Ready cfg (.esOaepDecrypt 1 crt) key55 ∧ (key55.privMod crt).klen < 2 * hLen cfg 1 + 2) ∧
    (∀ crt, (let s := load .inp (List.replicate 81 0xFF) keyM
      Ready cfg (.esOaepDecrypt 1 crt) s ∧ 2 * hLen cfg 1 + 2 ≤ (s.privMod crt).klen ∧ (s.privMod crt).n ≤ s.intOperand .inp)) ∧
    (let s := load .inp oaepStr (keyOne (256 ^ 64 - 1))
     let EM := i2os (privPower s false (s.intOperand .inp)) (s.privMod false).klen
     Ready cfg (.esOaepDecrypt 1 false) s ∧ 2 * hLen cfg 1 + 2 ≤ (s.privMod false).klen ∧ s.intOperand .inp < (s.privMod false).n ∧
       EM = oaepEncode cfg 1 [] (s.operand .label) EM.length (List.replicate 20 0)) ∧
    (let s := load .inp (0x01 :: List.replicate 63 0) (keyOne (256 ^ 64 - 1))
     let EM := i2os (privPower s false (s.intOperand .inp)) (s.privMod false).klen
     Ready cfg (.esOaepDecrypt 1 false) s ∧ 2 * hLen cfg 1 + 2 ≤ (s.privMod false).klen ∧ s.intOperand .inp < (s.privMod false).n ∧
       ∀ M seed, EM ≠ oaepEncode cfg 1 M (s.operand .label) EM.length seed) ∧
    ¬ Ready cfg (.oaepDecode 0) noKey ∧ ¬ Ready cfg (.esOaepDecrypt 1 true) noKey := by
  have hlt := lt_of_zero_head oaepStr_length rfl
  have hs : oaepStr.length < 2 ^ 32 := by rw [oaepStr_length]; decide
  have hop : (load .inp oaepStr noKey).operand .inp = oaepStr := operand_load _ _ _ hs
  refine ⟨⟨ready (by decide +kernel), by decide +kernel⟩, ⟨ready_load (by rw [oaepStr_length]; decide +kernel), ?_⟩,
    ⟨ready (by decide +kernel), by decide +kernel, fun M seed => ?_⟩,
    fun crt => ⟨ready (by cases crt <;> decide +kernel), by cases crt <;> decide +kernel⟩,
    fun crt => ⟨ready (by cases crt <;> decide +kernel), by cases crt <;> decide +kernel, by cases crt <;> decide +kernel⟩,
    ⟨ready_load (by rw [oaepStr_length]; decide +kernel), by decide +kernel, ?_, ?_⟩,
    ⟨ready (by decide +kernel), by decide +kernel, by decide +kernel, fun M seed => ?_⟩,
    notReady (e := .illegal) (by decide +kernel), notReady (e := .illegal) (by decide +kernel)⟩
  · rw [hop, oaepStr_length]
    exact ⟨by decide, List.replicate 20 0, by decide, by decide, rfl⟩
  · rw [operand_load _ _ _ (by decide)]
    exact not_oaep_one _ _ _ _ _ _ _
  · rw [intOperand_load _ _ hs]; exact hlt
  · have hEM : i2os (privPower (load .inp oaepStr (keyOne (256 ^ 64 - 1))) false
        ((load .inp oaepStr (keyOne (256 ^ 64 - 1))).intOperand .inp))
        ((load .inp oaepStr (keyOne (256 ^ 64 - 1))).privMod false).klen = oaepStr := by
      rw [privPower_keyOne hs hlt]
      exact i2os_os2ip_of_length (oaepStr_length.trans (by decide +kernel))
    show i2os _ _ = oaepEncode _ _ _ _ (i2os _ _).length _
    rw [hEM, oaepStr_length]
    rfl
  · have hEM : i2os (privPower (load .inp (0x01 :: List.replicate 63 0) (keyOne (256 ^ 64 - 1))) false
        ((load .inp (0x01 :: List.replicate 63 0) (keyOne (256 ^ 64 - 1))).intOperand .inp))
        ((load .inp (0x01 :: List.replicate 63 0) (keyOne (256 ^ 64 - 1))).privMod false).klen = 0x01 :: List.replicate 63 0 := by
      decide +kernel
    rw [hEM]
    exact not_oaep_one _ _ _ _ _ _ _

/-- The encoded message of SSA_V15 for the empty message in 64 octets. -/
def emsaStr : Bytes := emsaV15Encode cfg 1 [] 64

theorem emsaStr_length : emsaStr.length = 64 := length_emsaV15Encode rfl (by decide)

/-- The clauses of the comparison: a signature whose power is the encoded message, and one whose power is 0. -/
theorem witness_EmsaV15EncodeSignVerify_comparison :
    (let s := load .inp emsaStr (keyOne (256 ^ 64 - 1))
     Inv cfg s ∧ Ready cfg (.ssaV15Verify 1) s ∧ cfg.tLen 1 + 11 ≤ s.pub.klen ∧ s.intOperand .inp < s.pub.n ∧
       pubPower s (s.intOperand .inp) = os2ip (emsaV15Encode cfg 1 (s.operand .msg) s.pub.klen)) ∧
    (let s := load .inp [0] (keyOne (256 ^ 64 - 1))
     Inv cfg s ∧ Ready cfg (.ssaV15Verify 1) s ∧ cfg.tLen 1 + 11 ≤ s.pub.klen ∧ s.intOperand .inp < s.pub.n ∧
       pubPower s (s.intOperand .inp) ≠ os2ip (emsaV15Encode cfg 1 (s.operand .msg) s.pub.klen)) := by
  have hlt := lt_of_zero_head emsaStr_length rfl
  have hs : emsaStr.length < 2 ^ 32 := by rw [emsaStr_length]; decide
  have hinv : Inv cfg (keyOne (256 ^ 64 - 1)) := inv_keyOne (by decide +kernel) (by decide +kernel)
  have hk : (keyOne (256 ^ 64 - 1)).pub.klen = 64 := by decide +kernel
  refine ⟨⟨inv_load _ _ hinv (by decide) (by decide) (by rw [emsaStr_length]; decide),
    ready_load (by rw [emsaStr_length]; decide +kernel), by decide +kernel, by rw [intOperand_load _ _ hs]; exact hlt, ?_⟩,
    ⟨inv_load _ _ hinv (by decide) (by decide) (by decide), ready (by decide +kernel), by decide +kernel, by decide +kernel, ?_⟩⟩
  · rw [pubPower_keyOne hs hlt]
    show _ = os2ip (emsaV15Encode cfg 1 [] (keyOne (256 ^ 64 - 1)).pub.klen)
    rw [hk]
    rfl
  · have h0 : pubPower (load .inp [0] (keyOne (256 ^ 64 - 1))) ((load .inp [0] (keyOne (256 ^ 64 - 1))).intOperand .inp) = 0 := by
      decide +kernel
    rw [h0]
    show 0 ≠ os2ip (emsaV15Encode cfg 1 [] (keyOne (256 ^ 64 - 1)).pub.klen)
    rw [hk, emsaV15Encode, List.append_assoc, List.append_assoc, List.cons_append, List.cons_append, os2ip_zero_cons, os2ip_cons]
    have : (0 : Nat) < 256 ^ ([] ++ (copies (64 - cfg.tLen 1 - 3) 0xFF ++ ([0x00] ++ cfg.digestInfo 1 (cfg.hash 1 [])))).length :=
      by positivity
    have h1 : (1 : Byte).toNat = 1 := rfl
    rw [h1]
    omega

/-- The EMSA-PSS encoding of the empty message in 512 bits with the empty salt. -/
def pssStr : Bytes := pssEncode cfg 1 [] 512 []

theorem pssStr_length : pssStr.length = 64 := length_pssEncode rfl (by decide)

/-- `2^513 − 1`, a modulus of 513 bits: encodings of 512 bits are below it. -/
@[irreducible] def n513 : Nat := 2 ^ 513 - 1

theorem lt_n513 {X : Bytes} (h : X.length = 64) : os2ip X < n513 := by
  have h1 := os2ip_lt X
  rw [h] at h1
  have h2 : (256 : Nat) ^ 64 ≤ n513 := by decide +kernel
  omega

theorem inv_n513 : Inv cfg (keyOne n513) := inv_keyOne (by decide +kernel) (by decide +kernel)

theorem os2ip_append_bc (X : Bytes) : os2ip (X ++ [0xBC]) % 256 = 0xBC := by
  rw [os2ip_append]
  show (os2ip X * 256 ^ 1 + 0xBC) % 256 = 0xBC
  omega

theorem pssEncode_ne_zero (C : Config) (h : Sel) (M salt : Bytes) (emBits : Nat) : 0 ≠ os2ip (pssEncode C h M emBits salt) := by
  intro h0
  have := os2ip_append_bc (clearTop (topZeros emBits) (xorBytes (copies (ceil8 emBits - salt.length - hLen C h - 2) 0x00 ++ [0x01] ++ salt)
    (mgf1 C h (C.hash h (copies 8 0x00 ++ C.hash h M ++ salt)) (ceil8 emBits - hLen C h - 1))) ++
    C.hash h (copies 8 0x00 ++ C.hash h M ++ salt))
  rw [pssEncode] at h0
  rw [← h0] at this
  simp at this

/-- EMBITS = 168 is 21 octets, one too few under SHA-1 with the empty salt; EMBITS = 329 is 42 octets, which 20 octets of salt fit
exactly. -/
theorem witness_PssEncodeAndSign :
    (Ready cfg (.pssEncode 1 true false) (emb 168 noKey) ∧ ceil8 (emb 168 noKey).embits.toNat < hLen cfg 1 + ((emb 168 noKey).len .salt).toNat + 2) ∧
    (Ready cfg (.pssEncode 1 false true) (emb 329 noKey) ∧ hLen cfg 1 + hLen cfg 1 + 2 ≤ ceil8 (emb 329 noKey).embits.toNat) ∧
    (∀ crt, Inv cfg key55 ∧ Ready cfg (.ssaPssSign 1 crt true false) key55 ∧
      ceil8 ((key55.privMod crt).k - 1) < hLen cfg 1 + (key55.len .salt).toNat + 2) ∧
    (∀ crt, Inv cfg keyM ∧ Ready cfg (.ssaPssSign 2 crt false true) keyM ∧ hLen cfg 2 + hLen cfg 2 + 2 ≤ ceil8 ((keyM.privMod crt).k - 1)) ∧
    ¬ Ready cfg (.pssEncode 1 true true) noKey ∧ ¬ Ready cfg (.ssaPssSign 1 true false false) noKey :=
  ⟨⟨ready (by decide +kernel), by decide +kernel⟩, ⟨ready (by decide +kernel), by decide +kernel⟩,
    fun crt => ⟨inv_key55, ready (by cases crt <;> decide +kernel), by cases crt <;> decide +kernel⟩,
    fun crt => ⟨inv_keyM bounds_cfg, ready (by cases crt <;> decide +kernel), by cases crt <;> decide +kernel⟩,
    notReady (e := .illegal) (by decide +kernel), notReady (e := .illegal) (by decide +kernel)⟩

theorem witness_PssCheckAndVerify :
    (Ready cfg (.pssCheck 1 false) (emb 512 noKey) ∧ ((emb 512 noKey).len .inp).toNat ≠ ceil8 (emb 512 noKey).embits.toNat) ∧
    (let s := load .inp pssStr (emb 512 noKey)
     Ready cfg (.pssCheck 1 false) s ∧ (s.len .inp).toNat = ceil8 s.embits.toNat ∧ hLen cfg 1 + (s.len .salt).toNat + 2 ≤ ceil8 s.embits.toNat ∧
       ∃ salt : Bytes, salt.length = (s.len .salt).toNat ∧
         s.intOperand .inp = os2ip (pssEncode cfg 1 (s.operand .msg) s.embits.toNat salt)) ∧
    (let s := load .inp (List.replicate 64 0) (emb 512 noKey)
     Ready cfg (.pssCheck 1 false) s ∧ (s.len .inp).toNat = ceil8 s.embits.toNat ∧
       ∀ salt, s.intOperand .inp ≠ os2ip (pssEncode cfg 1 (s.operand .msg) s.embits.toNat salt)) ∧
    (Ready cfg (.ssaPssVerify 1 false) (load .inp [55] key55) ∧ (load .inp [55] key55).pub.n ≤ (load .inp [55] key55).intOperand .inp) ∧
    (let s := load .inp pssStr (keyOne n513)
     Ready cfg (.ssaPssVerify 1 false) s ∧ s.intOperand .inp < s.pub.n ∧ hLen cfg 1 + (s.len .salt).toNat + 2 ≤ ceil8 (s.pub.k - 1) ∧
       ∃ salt : Bytes, salt.length = (s.len .salt).toNat ∧
         pubPower s (s.intOperand .inp) = os2ip (pssEncode cfg 1 (s.operand .msg) (s.pub.k - 1) salt)) ∧
    (let s := load .inp [0] (keyOne n513)
     Ready cfg (.ssaPssVerify 1 false) s ∧ s.intOperand .inp < s.pub.n ∧
       ∀ salt, pubPower s (s.intOperand .inp) ≠ os2ip (pssEncode cfg 1 (s.operand .msg) (s.pub.k - 1) salt)) ∧
    ¬ Ready cfg (.pssCheck 0 true) noKey ∧ ¬ Ready cfg (.ssaPssVerify 1 true) noKey := by
  have hs : pssStr.length < 2 ^ 32 := by rw [pssStr_length]; decide
  have hk : (keyOne n513).pub.k - 1 = 512 := by decide +kernel
  refine ⟨⟨ready (by decide +kernel), by decide +kernel⟩,
    ⟨ready_load (by rw [pssStr_length]; decide +kernel), ?_, by decide +kernel, [], rfl, ?_⟩,
    ⟨ready (by decide +kernel), by decide +kernel, fun salt => ?_⟩, ⟨ready (by decide +kernel), by decide +kernel⟩,
    ⟨ready_load (by rw [pssStr_length]; decide +kernel), ?_, by decide +kernel, [], rfl, ?_⟩,
    ⟨ready (by decide +kernel), by decide +kernel, fun salt => ?_⟩,
    notReady (e := .illegal) (by decide +kernel), notReady (e := .illegal) (by decide +kernel)⟩
  · rw [getLen_load, if_pos rfl, pssStr_length]; decide +kernel
  · rw [intOperand_load _ _ hs]; rfl
  · have h0 : (load .inp (List.replicate 64 0) (emb 512 noKey)).intOperand .inp = 0 := by decide +kernel
    rw [h0]; exact pssEncode_ne_zero _ _ _ _ _
  · rw [intOperand_load _ _ hs]; exact lt_n513 pssStr_length
  · rw [pubPower_keyOne hs (lt_n513 pssStr_length)]
    show _ = os2ip (pssEncode cfg 1 [] ((keyOne n513).pub.k - 1) [])
    rw [hk]; rfl
  · have h0 : pubPower (load .inp [0] (keyOne n513)) ((load .inp [0] (keyOne n513)).intOperand .inp) = 0 := by decide +kernel
    rw [h0]; exact pssEncode_ne_zero _ _ _ _ _

/-! ## Witnesses: ISO/IEC 9796-2 -/

/-- A digest of zeros, for the statements about every configuration. -/
def zeroHash (sel : Sel) (_ : Bytes) : Bytes :=
  match stdHashes sel with
  | some row => List.replicate row.hLen 0
  | none => []

theorem zeroHash_length (sel : Sel) (row : HashRow) (X : Bytes) (h : stdHashes sel = some row) :
    (zeroHash sel X).length = row.hLen := by
  simp [zeroHash, h]

/-- CFG-EX with a digest of zeros. -/
def cfg0 : Config := cfgWith zeroHash zeroHash_length (fun _ => 0) (fun _ => 0)

theorem bounds_cfg0 : Bounds cfg0 := ⟨rfl, rfl⟩

/-- `HASHES` with a third row, which has no ISO/IEC 9796-2 identifier (R6, R41). -/
def hashes3 (sel : Sel) : Option HashRow := if sel = 3 then some ⟨20, none, by decide⟩ else stdHashes sel

/-- CFG-EX with that third row, a digest of zeros, and an empty DigestInfo under it. -/
def cfg3 : Config :=
  { cfg0 with
    hashes := hashes3
    hash := fun sel _ => match hashes3 sel with
      | some row => List.replicate row.hLen 0
      | none => []
    digestInfo := fun sel D => if sel = 3 then [] else stdDigestInfo sel D
    hashes_none := rfl
    hashes_sha1 := rfl
    hashes_sha256 := rfl
    hash_length := fun sel row X h => by simp [h]
    digestInfo_length := fun sel row D h hD => by
      show (if sel = 3 then [] else stdDigestInfo sel D).length = stdTLen sel
      by_cases h3 : sel = 3
      · subst h3; rfl
      · rw [if_neg h3]
        rw [hashes3, if_neg h3] at h
        exact stdDigestInfo_length sel row D h hD }

theorem witness_ExplicitTrailerNeedsIdentifier : hashID cfg3 3 = none ∧ ∀ crt, Ready cfg3 (.ds1Sign 3 false true crt) key55 ∧
    Ready cfg3 (.ds2Sign 3 false true crt false true) key55 ∧ Ready cfg3 (.ds3Sign 3 false true crt) key55 :=
  ⟨rfl, fun crt => ⟨ready (by cases crt <;> decide +kernel), ready (by cases crt <;> decide +kernel),
    ready (by cases crt <;> decide +kernel)⟩⟩

theorem trailerIs_bc (C : Config) (h : Sel) : TrailerIs C h true [0xBC] := .inl ⟨rfl, rfl⟩

theorem trailerIs_sha1 : TrailerIs cfg 1 false [0x33, 0xCC] := .inr ⟨rfl, 0x33, rfl, rfl⟩

/-- 60 octets of message: 59 fit key M under SHA-1 with the implicit trailer, 58 with the explicit one. -/
theorem witness_Ds1SignDeliversSignatureAndTail :
    (∀ crt, Inv cfg key55 ∧ Ready cfg (.ds1Sign 1 true true crt) key55 ∧ TrailerIs cfg 1 true [0xBC] ∧
      (key55.privMod crt).k < 8 * hLen cfg 1 + 8 * 1 + 4) ∧
    (∀ crt, (let s := load .msg (List.replicate 59 7 ++ [9]) keyM
      Inv cfg s ∧ Ready cfg (.ds1Sign 1 true false crt) s ∧ 8 * hLen cfg 1 + 8 * 1 + 4 ≤ (s.privMod crt).k ∧
        s.operand .msg = List.replicate 59 7 ++ [9] ∧
        (List.replicate 59 7#8).length = min (s.operand .msg).length (((s.privMod crt).k - (8 * hLen cfg 1 + 8 * 1 + 4)) / 8))) ∧
    ¬ Ready cfg (.ds1Sign 1 true true true) noKey :=
  ⟨fun crt => ⟨inv_key55, ready (by cases crt <;> decide +kernel), trailerIs_bc _ _, by cases crt <;> decide +kernel⟩,
    fun crt => ⟨inv_load _ _ (inv_keyM bounds_cfg) (by decide) (by decide) (by decide +kernel),
      ready (by cases crt <;> decide +kernel), by cases crt <;> decide +kernel, operand_load _ _ _ (by decide +kernel),
      by cases crt <;> decide +kernel⟩,
    notReady (e := .illegal) (by decide +kernel)⟩

/-- The octets of the DSI that DS1_SIGN builds for the empty message and a modulus of 172 bits: the pad region is `0101`. -/
def dsiStr : Bytes := 0x05 :: (cfg.hash 1 [] ++ [0xBC])

theorem dsiStr_length : dsiStr.length = 22 := by
  rw [dsiStr, List.length_cons, List.length_append, length_hash rfl]; rfl

theorem dsiStr_value : os2ip dsiStr = 5 * 2 ^ 168 + os2ip (cfg.hash 1 [] ++ [0xBC]) := by
  have h : 256 ^ (hLen cfg 1 + ([0xBC] : Bytes).length) = 2 ^ 168 := by decide +kernel
  rw [dsiStr, os2ip_cons, List.length_append, length_hash rfl, h]
  have h5 : (0x05 : Byte).toNat = 5 := rfl
  rw [h5]

theorem dsiStr_lt : os2ip dsiStr < 2 ^ 172 - 1 := by
  have h1 := os2ip_lt (cfg.hash 1 [] ++ [0xBC])
  rw [List.length_append, length_hash rfl] at h1
  have h2 : 256 ^ (hLen cfg 1 + ([0xBC] : Bytes).length) = 2 ^ 168 := by decide +kernel
  rw [h2] at h1
  rw [dsiStr_value]
  omega

theorem ds1Dsi_dsiStr : ds1Dsi cfg 1 ([] ++ []) 172 [0xBC] = (os2ip dsiStr, [], []) := by
  have hb : 8 * ([] ++ cfg.hash 1 [] ++ ([0xBC] : Bytes)).length = 168 := by
    rw [List.nil_append, List.length_append, length_hash rfl]; decide +kernel
  have hc : (ds1Cap cfg 1 172 ([0xBC] : Bytes).length).toNat / 8 = 0 := by decide +kernel
  have hp : bitsVal (cfg.ds1Pad 4 false) = 5 := by decide +kernel
  have hz : decide (0 < ([] : Bytes).length) = false := rfl
  simp only [ds1Dsi, hc, List.nil_append, Nat.min_zero, List.take_zero, List.drop_zero, hz] at hb ⊢
  rw [hb, dsiStr_value, hp]

theorem opens_of_low (n : Nat) {X : Bytes} (hX : X.length < 2 ^ 32) (h : os2ip X < n) (hl : os2ip X % 16 = 12) :
    Opens (load .inp X (keyOne n)) ((load .inp X (keyOne n)).intOperand .inp) (os2ip X) :=
  ⟨hl, .inl (pubPower_keyOne hX h).symm⟩

/-- The signature integer 0 opens to nothing when `n mod 16 = 15`. -/
theorem opens_zero {n J : Nat} (hn : n % 16 = 15)
    (h : Opens (load .inp [0] (keyOne n)) ((load .inp [0] (keyOne n)).intOperand .inp) J) : False := by
  have h0 : pubPower (load .inp [0] (keyOne n)) ((load .inp [0] (keyOne n)).intOperand .inp) = 0 := by
    rw [intOperand_load _ _ (by decide)]
    show 0 ^ 1 % n = 0
    simp
  obtain ⟨hJ, h1 | ⟨-, h1⟩⟩ := h
  · rw [h0] at h1; omega
  · rw [h0] at h1
    have h2 : (load .inp [0] (keyOne n)).pub.n = n := rfl
    rw [h2] at h1
    omega

theorem witness_Ds1VerifyAcceptsExactlyDsis :
    (Inv cfg key55 ∧ Ready cfg (.ds1Verify 1) key55 ∧ key55.pub.k < 8 * hLen cfg 1 + 12) ∧
    (let s := load .inp (List.replicate 22 0xFF) (keyOne (2 ^ 172 - 1))
     Inv cfg s ∧ Ready cfg (.ds1Verify 1) s ∧ 8 * hLen cfg 1 + 12 ≤ s.pub.k ∧ s.pub.n ≤ s.intOperand .inp) ∧
    (let s := load .inp dsiStr (keyOne (2 ^ 172 - 1))
     Inv cfg s ∧ Ready cfg (.ds1Verify 1) s ∧ 8 * hLen cfg 1 + 12 ≤ s.pub.k ∧ s.intOperand .inp < s.pub.n ∧
       Opens s (s.intOperand .inp) (os2ip dsiStr) ∧ TrailerIs cfg 1 true [0xBC] ∧ 8 * hLen cfg 1 + 8 * 1 + 4 ≤ s.pub.k ∧
       ds1Dsi cfg 1 ([] ++ s.operand .msg) s.pub.k [0xBC] = (os2ip dsiStr, [], s.operand .msg)) ∧
    (let s := load .inp [0] (keyOne (2 ^ 172 - 1))
     Inv cfg s ∧ Ready cfg (.ds1Verify 1) s ∧ 8 * hLen cfg 1 + 12 ≤ s.pub.k ∧ s.intOperand .inp < s.pub.n ∧
       ∀ J, ¬ Opens s (s.intOperand .inp) J) ∧
    ¬ Ready cfg (.ds1Verify 1) noKey := by
  have hs : dsiStr.length < 2 ^ 32 := by rw [dsiStr_length]; decide
  have hinv : Inv cfg (keyOne (2 ^ 172 - 1)) := inv_keyOne (by decide +kernel) (by decide +kernel)
  have hk : (keyOne (2 ^ 172 - 1)).pub.k = 172 := by decide +kernel
  have hl : os2ip dsiStr % 16 = 12 := by
    have h1 : os2ip dsiStr % 256 = 0xBC := by rw [dsiStr, ← List.cons_append, os2ip_append_bc]
    omega
  refine ⟨⟨inv_key55, ready (by decide +kernel), by decide +kernel⟩,
    ⟨inv_load _ _ hinv (by decide) (by decide) (by decide), ready (by decide +kernel), by decide +kernel, by decide +kernel⟩,
    ⟨inv_load _ _ hinv (by decide) (by decide) (by rw [dsiStr_length]; decide), ready_load (by rw [dsiStr_length]; decide +kernel),
      by decide +kernel, by rw [intOperand_load _ _ hs]; exact dsiStr_lt, opens_of_low _ hs dsiStr_lt hl, trailerIs_bc _ _,
      by decide +kernel, ?_⟩,
    ⟨inv_load _ _ hinv (by decide) (by decide) (by decide), ready (by decide +kernel), by decide +kernel, by decide +kernel,
      fun J => opens_zero (by decide +kernel)⟩, notReady (e := .illegal) (by decide +kernel)⟩
  show ds1Dsi cfg 1 ([] ++ []) (keyOne (2 ^ 172 - 1)).pub.k [0xBC] = _
  rw [hk]
  exact ds1Dsi_dsiStr

/-- A message of 60 octets and a supplied salt of 8: 60 octets in all fit key M under SHA-1 (648 - 160 - 8 - 2 = 478 bits, 59 octets),
so that 51 octets are recoverable with 8 of salt. -/
theorem witness_Ds2AndDs3SignDeliverSignatureAndTail :
    (let sk := load .salt (List.replicate 8 5) (load .msg (List.replicate 51 7 ++ [9]) keyM)
     ∀ crt, Inv cfg sk ∧ TrailerIs cfg 1 true [0xBC] ∧ Ready cfg (.ds2Sign 1 true true crt true false) sk ∧
      8 * hLen cfg 1 + 8 * 1 + 2 ≤ (sk.privMod crt).k ∧ (sk.len .salt).toNat ≤ ((sk.privMod crt).k - (8 * hLen cfg 1 + 8 * 1 + 2)) / 8 ∧
      sk.operand .msg = List.replicate 51 7 ++ [9] ∧
      (List.replicate 51 7#8).length = min (sk.operand .msg).length
        (((sk.privMod crt).k - (8 * hLen cfg 1 + 8 * 1 + 2)) / 8 - (sk.len .salt).toNat) ∧
      Ready cfg (.ds3Sign 1 true true crt) (m1b 408 sk) ∧ (m1b 408 sk).operand .salt ≠ [] ∧
      (m1b 408 sk).m1bits.toNat = 8 * (((sk.privMod crt).k - (8 * hLen cfg 1 + 8 * 1 + 2)) / 8 - ((m1b 408 sk).operand .salt).length) ∧
      (m1b 408 sk).m1bits.toNat % 8 = 0 ∧ (List.replicate 51 7#8).length = min (sk.operand .msg).length ((m1b 408 sk).m1bits.toNat / 8) ∧
      8 * (((sk.privMod crt).k - (8 * hLen cfg 1 + 8 * 1 + 2)) / 8 - ((m1b 409 sk).operand .salt).length) < (m1b 409 sk).m1bits.toNat ∧
      (m1b 407 sk).m1bits.toNat % 8 ≠ 0) ∧
    (∀ crt, Inv cfg key55 ∧ Ready cfg (.ds2Sign 1 false true crt false true) key55 ∧ TrailerIs cfg 1 false [0x33, 0xCC] ∧
      (key55.privMod crt).k < 8 * hLen cfg 1 + 8 * 2 + 2 ∧ Ready cfg (.ds3Sign 1 false true crt) key55 ∧ key55.operand .salt = []) ∧
    (∀ crt, ¬ Ready cfg (.ds2Sign 1 true true crt true true) key55) ∧ ¬ Ready cfg (.ds3Sign 0 true true true) noKey := by
  refine ⟨fun crt => ⟨?_, trailerIs_bc _ _, ready (by cases crt <;> decide +kernel), by cases crt <;> decide +kernel,
    by cases crt <;> decide +kernel, ?_, by cases crt <;> decide +kernel, ready (by cases crt <;> decide +kernel),
    by decide +kernel, by cases crt <;> decide +kernel, by decide +kernel, by decide +kernel, by cases crt <;> decide +kernel,
    by decide +kernel⟩,
    fun crt => ⟨inv_key55, ready (by cases crt <;> decide +kernel), trailerIs_sha1, by cases crt <;> decide +kernel,
      ready (by cases crt <;> decide +kernel), rfl⟩,
    fun crt => notReady (e := .illegal) (by cases crt <;> decide +kernel), notReady (e := .illegal) (by decide +kernel)⟩
  · exact inv_load _ _ (inv_load _ _ (inv_keyM bounds_cfg) (by decide) (by decide) (by decide +kernel)) (by decide) (by decide)
      (by decide +kernel)
  · decide +kernel

/-- The ds2 encoded message of the empty message with the empty salt, 513 bits. -/
def isoStr : Bytes := isoPssEm cfg 1 [] [] [] 513 [0xBC]

theorem isoStr_length : isoStr.length = 64 := length_isoPssEm rfl (by decide)

theorem isoStr_low : os2ip isoStr % 16 = 12 := by
  have : os2ip isoStr % 256 = 0xBC := by rw [isoStr, isoPssEm, os2ip_append_bc]
  omega

theorem witness_Ds2AndDs3VerifyAcceptExactlyEncodings : ∀ i : Instr, i = .ds2Verify 1 false ∨ (i = .ds3Verify 1 ∧ false = false) →
    (Inv cfg key55 ∧ Ready cfg i key55 ∧ ¬ (8 * hLen cfg 1 + 10 ≤ key55.pub.k)) ∧
    (let s := load .inp (List.replicate 65 0xFF) (keyOne n513)
     Inv cfg s ∧ Ready cfg i s ∧ 8 * hLen cfg 1 + 10 ≤ s.pub.k ∧ (s.len .salt).toNat ≤ (s.pub.k - 8 * hLen cfg 1 - 10) / 8 ∧
       s.pub.n ≤ s.intOperand .inp) ∧
    (let s := load .inp isoStr (keyOne n513)
     Inv cfg s ∧ Ready cfg i s ∧ 8 * hLen cfg 1 + 10 ≤ s.pub.k ∧ (s.len .salt).toNat ≤ (s.pub.k - 8 * hLen cfg 1 - 10) / 8 ∧
       s.intOperand .inp < s.pub.n ∧ Opens s (s.intOperand .inp) (os2ip isoStr) ∧ TrailerIs cfg 1 true [0xBC] ∧
       ([] : Bytes).length = (s.len .salt).toNat ∧ 0 + (s.len .salt).toNat + 1 + hLen cfg 1 + 1 ≤ (s.pub.k - 1 + 7) / 8 ∧
       os2ip isoStr = os2ip (isoPssEm cfg 1 [] (s.operand .msg) [] s.pub.k [0xBC])) ∧
    (let s := load .inp [0] (keyOne n513)
     Inv cfg s ∧ Ready cfg i s ∧ 8 * hLen cfg 1 + 10 ≤ s.pub.k ∧ (s.len .salt).toNat ≤ (s.pub.k - 8 * hLen cfg 1 - 10) / 8 ∧
       s.intOperand .inp < s.pub.n ∧ ∀ J, ¬ Opens s (s.intOperand .inp) J) ∧
    ¬ Ready cfg i noKey := by
  have hs : isoStr.length < 2 ^ 32 := by rw [isoStr_length]; decide
  have hk : (keyOne n513).pub.k = 513 := by decide +kernel
  have hem : os2ip isoStr = os2ip (isoPssEm cfg 1 [] [] [] (keyOne n513).pub.k [0xBC]) := by rw [hk]; rfl
  rintro i (rfl | ⟨rfl, -⟩) <;>
    exact ⟨⟨inv_key55, ready (by decide +kernel), by decide +kernel⟩,
      ⟨inv_load _ _ inv_n513 (by decide) (by decide) (by decide), ready (by decide +kernel), by decide +kernel, by decide +kernel,
        by decide +kernel⟩,
      ⟨inv_load _ _ inv_n513 (by decide) (by decide) (by rw [isoStr_length]; decide), ready_load (by rw [isoStr_length]; decide +kernel),
        by decide +kernel, by decide +kernel, by rw [intOperand_load _ _ hs]; exact lt_n513 isoStr_length,
        opens_of_low _ hs (lt_n513 isoStr_length) isoStr_low, trailerIs_bc _ _, rfl, by decide +kernel, hem⟩,
      ⟨inv_load _ _ inv_n513 (by decide) (by decide) (by decide), ready (by decide +kernel), by decide +kernel, by decide +kernel,
        by decide +kernel, fun J => opens_zero (by decide +kernel)⟩,
      notReady (e := .illegal) (by decide +kernel)⟩

/-! ## Witnesses: what one command makes, another takes -/

/-- What is left in OUT, put into IN. -/
def feed (t s : State) : State := load .inp (t.operand .out) s

theorem witness_EsV15DecryptInvertsEncrypt : ∀ crt,
    (let s := load .msg (List.replicate 70 0x41) keyM
     let u := feed (runAt cfg0 .esV15Encrypt s) keyM
     cfg0.maxBuf < 2 ^ 32 ∧ Inv cfg0 s ∧ KeyPair s crt ∧ Ready cfg0 .esV15Encrypt s ∧ (s.operand .msg).length + 11 ≤ s.pub.klen ∧
       u.priv = s.priv ∧ u.crt = s.crt ∧ Ready cfg0 (.esV15Decrypt crt) u ∧
       u.operand .inp = (runAt cfg0 .esV15Encrypt s).operand .out) := by
  intro crt
  exact ⟨by decide, inv_load _ _ (inv_keyM bounds_cfg0) (by decide) (by decide) (by decide +kernel), keyPair_keyM crt,
    ready (by decide +kernel), by decide +kernel, rfl, rfl, ready (by cases crt <;> decide +kernel),
    operand_load _ _ _ (by decide +kernel)⟩

theorem witness_EsOaepDecryptInvertsEncrypt : ∀ crt,
    (let s := load .msg (List.replicate 39 0x41) keyM
     let u := feed (runAt cfg0 (.esOaepEncrypt 1) s) keyM
     cfg0.maxBuf < 2 ^ 32 ∧ Inv cfg0 s ∧ KeyPair s crt ∧ Ready cfg0 (.esOaepEncrypt 1) s ∧
       (s.operand .msg).length + 2 * hLen cfg0 1 + 2 ≤ s.pub.klen ∧ u.priv = s.priv ∧ u.crt = s.crt ∧
       Ready cfg0 (.esOaepDecrypt 1 crt) u ∧ u.operand .label = s.operand .label ∧
       u.operand .inp = (runAt cfg0 (.esOaepEncrypt 1) s).operand .out) := by
  intro crt
  exact ⟨by decide, inv_load _ _ (inv_keyM bounds_cfg0) (by decide) (by decide) (by decide +kernel), keyPair_keyM crt,
    ready (by decide +kernel), by decide +kernel, rfl, rfl, ready (by cases crt <;> decide +kernel), rfl,
    operand_load _ _ _ (by decide +kernel)⟩

theorem witness_Pkcs1VerifyAcceptsSignatures : ∀ crt,
    (let s := load .msg abc keyM
     let u := feed (runAt cfg0 (.ssaV15Sign 1 crt) s) s
     let v := feed (runAt cfg0 (.ssaPssSign 1 crt false true) s) (s.setLen .salt 20)
     cfg0.maxBuf < 2 ^ 32 ∧ Inv cfg0 s ∧ KeyPair s crt ∧ u.pub = s.pub ∧ v.pub = s.pub ∧
       u.operand .msg = s.operand .msg ∧ v.operand .msg = s.operand .msg ∧
       (Ready cfg0 (.ssaV15Sign 1 crt) s ∧ (runAt cfg0 (.ssaV15Sign 1 crt) s).err = .ok ∧ Ready cfg0 (.ssaV15Verify 1) u ∧
         u.operand .inp = (runAt cfg0 (.ssaV15Sign 1 crt) s).operand .out) ∧
       (Ready cfg0 (.ssaPssSign 1 crt false true) s ∧ (runAt cfg0 (.ssaPssSign 1 crt false true) s).err = .ok ∧
         Ready cfg0 (.ssaPssVerify 1 false) v ∧ saltLen cfg0 1 false v = saltLen cfg0 1 true s ∧
         v.operand .inp = (runAt cfg0 (.ssaPssSign 1 crt false true) s).operand .out)) := by
  intro crt
  exact ⟨by decide, inv_load _ _ (inv_keyM bounds_cfg0) (by decide) (by decide) (by decide +kernel), keyPair_keyM crt, rfl, rfl, rfl, rfl,
    ⟨ready (by cases crt <;> decide +kernel), by cases crt <;> decide +kernel, ready (by cases crt <;> decide +kernel),
      operand_load _ _ _ (by cases crt <;> decide +kernel)⟩,
    ⟨ready (by cases crt <;> decide +kernel), by cases crt <;> decide +kernel, ready (by cases crt <;> decide +kernel), rfl,
      operand_load _ _ _ (by cases crt <;> decide +kernel)⟩⟩

theorem witness_Ds1VerifyRecoversMessage : ∀ crt,
    (let s := load .msg (List.replicate 59 7 ++ [9]) keyM
     let t := runAt cfg0 (.ds1Sign 1 true true crt) s
     let u := load .msg (t.operand .aux) (feed t keyM)
     cfg0.maxBuf < 2 ^ 32 ∧ Inv cfg0 s ∧ KeyPair s crt ∧ Ready cfg0 (.ds1Sign 1 true true crt) s ∧ t.err = .ok ∧ u.pub = s.pub ∧
       Ready cfg0 (.ds1Verify 1) u ∧ u.operand .inp = t.operand .out ∧ u.operand .msg = t.operand .aux) := by
  intro crt
  refine ⟨by decide, inv_load _ _ (inv_keyM bounds_cfg0) (by decide) (by decide) (by decide +kernel), keyPair_keyM crt,
    ready (by cases crt <;> decide +kernel), by cases crt <;> decide +kernel, rfl, ready (by cases crt <;> decide +kernel), ?_,
    operand_load _ _ _ (by cases crt <;> decide +kernel)⟩
  rw [operand_load_ne _ _ (by decide)]
  exact operand_load _ _ _ (by cases crt <;> decide +kernel)

theorem witness_Ds2AndDs3VerifyRecoverMessage : ∀ crt,
    (let s := load .salt (List.replicate 8 5) (load .msg (List.replicate 51 7 ++ [9]) (m1b 408 keyM))
     let t := runAt cfg0 (.ds2Sign 1 true true crt false true) s
     let u := load .msg (t.operand .aux) (feed t keyM)
     let t' := runAt cfg0 (.ds3Sign 1 true true crt) s
     let u' := load .salt (List.replicate 8 0) (load .msg (t'.operand .aux) (feed t' keyM))
     cfg0.maxBuf < 2 ^ 32 ∧ Inv cfg0 s ∧ KeyPair s crt ∧
       (saltLen cfg0 1 true s = hLen cfg0 1 ∧ Ready cfg0 (.ds2Sign 1 true true crt false true) s ∧ t.err = .ok ∧ u.pub = s.pub ∧
         Ready cfg0 (.ds2Verify 1 true) u ∧ u.operand .inp = t.operand .out ∧ u.operand .msg = t.operand .aux) ∧
       ((s.len .salt).toNat = (u'.len .salt).toNat ∧ Ready cfg0 (.ds3Sign 1 true true crt) s ∧ t'.err = .ok ∧ u'.pub = s.pub ∧
         Ready cfg0 (.ds3Verify 1) u' ∧ u'.operand .inp = t'.operand .out ∧ u'.operand .msg = t'.operand .aux)) := by
  intro crt
  have hinv : Inv cfg0 (load .salt (List.replicate 8 5) (load .msg (List.replicate 51 7 ++ [9]) (m1b 408 keyM))) := by
    have h := inv_keyM bounds_cfg0
    have h' : Inv cfg0 (m1b 408 keyM) := ⟨h.bufs, h.outLen, h.tails, h.errOnlyDone, h.emptyOnError, h.pub, h.priv, h.crt, h.findings⟩
    exact inv_load _ _ (inv_load _ _ h' (by decide) (by decide) (by decide +kernel)) (by decide) (by decide) (by decide +kernel)
  refine ⟨by decide, hinv, keyPair_keyM crt,
    ⟨rfl, ready (by cases crt <;> decide +kernel), by cases crt <;> decide +kernel, rfl, ready (by cases crt <;> decide +kernel), ?_,
      operand_load _ _ _ (by cases crt <;> decide +kernel)⟩,
    ⟨rfl, ready (by cases crt <;> decide +kernel), by cases crt <;> decide +kernel, rfl,
      ready (by cases crt <;> decide +kernel), ?_, ?_⟩⟩
  · rw [operand_load_ne _ _ (by decide)]
    exact operand_load _ _ _ (by cases crt <;> decide +kernel)
  · rw [operand_load_ne _ _ (by decide), operand_load_ne _ _ (by decide)]
    exact operand_load _ _ _ (by cases crt <;> decide +kernel)
  · rw [operand_load_ne _ _ (by decide)]
    exact operand_load _ _ _ (by cases crt <;> decide +kernel)

/-- Key M under SHA-1 with the implicit trailer has `cOct = 59`. -/
theorem witness_Ds3LimitsAreExact : ∀ crt, TrailerIs cfg 1 true [0xBC] ∧ 8 * hLen cfg 1 + 8 * 1 + 2 ≤ (keyM.privMod crt).k ∧
    (let s := m1b 409 (load .salt (List.replicate 8 5) keyM)
     Ready cfg (.ds3Sign 1 true true crt) s ∧ 1 ≤ (s.len .salt).toNat ∧
       (s.len .salt).toNat ≤ ((s.privMod crt).k - (8 * hLen cfg 1 + 8 * 1 + 2)) / 8 ∧
       s.m1bits.toNat = 8 * (((s.privMod crt).k - (8 * hLen cfg 1 + 8 * 1 + 2)) / 8 - (s.len .salt).toNat) + 1) ∧
    (let s := load .salt (List.replicate 60 5) keyM
     Ready cfg (.ds3Sign 1 true true crt) s ∧ (s.len .salt).toNat = ((s.privMod crt).k - (8 * hLen cfg 1 + 8 * 1 + 2)) / 8 + 1) ∧
    (Ready cfg (.ds3Sign 1 true true crt) keyM ∧ (keyM.len .salt).toNat = 0) := by
  intro crt
  exact ⟨trailerIs_bc _ _, by cases crt <;> decide +kernel,
    ⟨ready (by cases crt <;> decide +kernel), by decide +kernel, by cases crt <;> decide +kernel, by cases crt <;> decide +kernel⟩,
    ⟨ready (by cases crt <;> decide +kernel), by cases crt <;> decide +kernel⟩,
    ready (by cases crt <;> decide +kernel), rfl⟩

theorem witness_MinimumSignaturesAreCanonical : ∀ crt,
    (let s := load .salt (List.replicate 8 5) (load .msg abc keyM)
     cfg0.maxBuf < 2 ^ 32 ∧ Inv cfg0 s ∧ (runAt cfg0 (.ds1Sign 1 true true crt) s).err = .ok ∧
       (runAt cfg0 (.ds2Sign 1 true true crt true false) s).err = .ok ∧ (runAt cfg0 (.ds3Sign 1 true true crt) s).err = .ok ∧
       2 * os2ip ((runAt cfg0 (.ds1Sign 1 true true crt) s).operand .out) ≠ (s.privMod crt).n) := by
  intro crt
  exact ⟨by decide, inv_load _ _ (inv_load _ _ (inv_keyM bounds_cfg0) (by decide) (by decide) (by decide +kernel)) (by decide) (by decide)
    (by decide +kernel), by cases crt <;> decide +kernel, by cases crt <;> decide +kernel, by cases crt <;> decide +kernel,
    by cases crt <;> decide +kernel⟩

/-- A string of the whole buffer, the empty string, the integers 0 and 55. -/
theorem witness_LoadScriptsPutTheOperand :
    (List.replicate 0x400 (7 : Byte)).length = 0x400 ∧
    (∀ X : Bytes, X.length = 0 ∨ X.length = 0x400 →
      let s := { State.reset with inputs := (Stmt.ld .msg X).events cfg ++ [HostEvent.read 0x04 4] }
      BufId.msg ≠ .out ∧ BufId.msg ≠ .aux ∧ X.length ≤ cfg.maxBuf ∧ s.phase ≠ .busy ∧ (s.buf .msg).wf ∧
        s.inputs = (Stmt.ld .msg X).events cfg ++ [HostEvent.read 0x04 4]) ∧
    ∀ x ∈ [0, 55],
      (let s := { State.reset with inputs := (Stmt.ldint .kn x).events cfg ++ [] }
       BufId.kn ≠ .out ∧ BufId.kn ≠ .aux ∧ (shortest x).length ≤ cfg.maxBuf ∧ s.phase ≠ .busy ∧ (s.buf .kn).wf ∧
         s.inputs = (Stmt.ldint .kn x).events cfg ++ []) := by
  have hmax : cfg.maxBuf = 0x400 := rfl
  have hp : Phase.idle ≠ .busy := by decide
  refine ⟨List.length_replicate .., fun X hX => ⟨by decide, by decide, by omega, hp, test_reset_wf _, rfl⟩,
    fun x hx => ⟨by decide, by decide, by fin_cases hx <;> decide, hp, test_reset_wf _, rfl⟩⟩

end Sys2Proof.Tests
end

/-! PROOFS of the statements about the state (10_state.md): reset (R45), the secret staging buffers (R37), CMD and ACK
(R22, R23). -/

namespace Sys2Proof.Machine

/-! ## Reset -/

/-- A state after reset is a reset like any other: nothing was drawn before it and nothing is to come. -/
theorem hardReset_reset : hardReset State.reset = State.reset := rfl

@[simp] theorem hardReset_buf (s : State) (b : BufId) : (hardReset s).buf b = [] := reset_buf b

@[simp] theorem hardReset_len (s : State) (b : BufId) : (hardReset s).len b = 0 := reset_len b

@[simp] theorem hardReset_octet (s : State) (b : BufId) (i : Nat) : (hardReset s).octet b i = 0 := by
  rw [State.octet_def, hardReset_buf, Memory.read_nil]

@[simp] theorem statusWord_hardReset (s : State) : statusWord (hardReset s) = 0 :=
  (by decide : statusWord State.reset = 0)

@[simp] theorem ienWord_hardReset (s : State) : ienWord (hardReset s) = 0 :=
  (by decide : ienWord State.reset = 0)

@[simp] theorem findingsWord_none : findingsWord Findings.none = 0 := by decide

/-- R45: every register reads zero after reset. -/
@[simp] theorem regValue_hardReset (s : State) (r : RegId) : regValue (hardReset s) r = 0 := by
  cases r with
  | status => exact statusWord_hardReset s
  | ien => exact ienWord_hardReset s
  | findings => exact findingsWord_none
  | len b => exact hardReset_len s b
  | cmd | ack | kPub | kPriv | kCrt | embits | m1bits => rfl

/-- R320: a reset event resets, whatever the block was doing. -/
theorem step_of_reset {s : State} {rest : List HostEvent} (h : s.inputs = .reset :: rest) :
    step s = .next (hardReset { s with inputs := rest }) := by
  simp only [step, stepWith, h]

/-- Settles O1: both states in question are a `hardReset`, whose values the lemmas above give. -/
theorem resetBringsEveryValue : Obligations.ResetBringsEveryValue := by
  refine ⟨fun s rest h => ⟨_, step_of_reset h⟩, fun t ht => ?_⟩
  obtain ⟨u, rfl⟩ : ∃ u, t = hardReset u := by
    rcases ht with rfl | ⟨s, rest, hi, hstep⟩
    · exact ⟨State.reset, hardReset_reset.symm⟩
    · rw [step_of_reset hi] at hstep
      cases hstep
      exact ⟨_, rfl⟩
  exact ⟨regValue_hardReset u, hardReset_octet u, rfl, rfl, rfl, rfl, rfl, rfl, rfl⟩

/-! ## Octets on the bus -/

/-- Reading an octet of a buffer. -/
theorem busRead_octet (C : Config) (s : State) (b : BufId) {i : Nat} (hi : i < C.maxBuf) :
    busRead C s ((b.num + 1) * C.bufStride + i) 1 = .octet (readOctet s b i) := by
  rw [busRead, target_octet C b i hi]

/-- Writing an octet of a buffer, in any phase. -/
theorem busWrite_octet (C : Config) (s : State) (b : BufId) {i : Nat} (hi : i < C.maxBuf) (v : Nat) :
    busWrite C s ((b.num + 1) * C.bufStride + i) 1 v = writeOctet s b i (BitVec.ofNat 8 v) := by
  rw [busWrite, target_octet C b i hi]

theorem readOctet_of_secret {b : BufId} (h : b.secret = true) (s : State) (i : Nat) : readOctet s b i = 0 :=
  if_pos (.inr h)

theorem writeOctet_of_writable {s : State} {b : BufId} (hp : s.phase ≠ .busy) (hb : b.readOnly = false) (i : Nat) (v : Byte) :
    writeOctet s b i v = s.setOctet b i v :=
  if_neg (by simp [hp, hb])

/-- An octet reads as it was written (the buffer's memory is in canonical form: log 10). -/
theorem setOctet_octet_self {s : State} {b : BufId} (hwf : (s.buf b).wf) (i : Nat) (v : Byte) :
    (s.setOctet b i v).octet b i = v := by
  rw [State.octet_def, State.setOctet, setBuf_buf_self, Memory.read_write i v i hwf, if_pos rfl]

/-- R37: the secret staging buffers are the host's to write. -/
theorem readOnly_of_secret {b : BufId} (h : b.secret = true) : b.readOnly = false := by
  revert h
  cases b <;> decide

/-- The secret staging buffers by name (R37). -/
theorem secret_of_mem {b : BufId} (h : b ∈ [BufId.kd, .kp, .kq, .kdp, .kdq, .kqinv]) : b.secret = true := by
  revert h
  cases b <;> decide

/-- Settles O15: `readOctet` answers zero for a secret buffer, and `writeOctet` stores in it. -/
theorem secretBuffersReadZero : Obligations.SecretBuffersReadZero := by
  intro C s b i v hb hi
  have hsec : b.secret = true := secret_of_mem hb
  constructor
  · rw [busRead_octet C s b hi, readOctet_of_secret hsec]
  · intro hp hwf
    rw [busWrite_octet C s b hi, writeOctet_of_writable hp (readOnly_of_secret hsec), setOctet_octet_self hwf]

/-! ## CMD and ACK -/

/-- R22: a CMD write outside BUSY accepts its word. -/
theorem busWrite_cmd (C : Config) {s : State} (hb : s.phase ≠ .busy) (w : Word) :
    busWrite C s 0x00 4 w.toNat = accept w s :=
  busWrite_reg C s hb w 0x00 .cmd rfl rfl (by decide)

/-- R23: an ACK write, in any phase. -/
theorem busWrite_ack (C : Config) (s : State) (w : Word) :
    busWrite C s 0x08 4 w.toNat = if w.getLsbD 0 = true ∧ s.phase = .done then acknowledge s else s := by
  by_cases hb : s.phase = .busy
  · rw [busWrite_busy C s hb, if_neg (by simp [hb])]
  · exact busWrite_reg C s hb w 0x08 .ack rfl rfl (by decide)

/-- R22, R326: CMD reads as the latched word, in any phase. -/
theorem busRead_cmd (C : Config) (s : State) : busRead C s 0x00 4 = .word s.cmd := by
  rw [busRead_reg C s 0x00 .cmd rfl rfl (by decide), readReg, if_neg (by simp [RegId.readableBusy])]
  rfl

/-- R23: ACK reads zero, in any phase. -/
theorem busRead_ack (C : Config) (s : State) : busRead C s 0x08 4 = .word 0 := by
  rw [busRead_reg C s 0x08 .ack rfl rfl (by decide), readReg]
  split <;> rfl

/-- R22: an accepted command starts with no results. -/
theorem accept_holds (w : Word) (s : State) : Holds [] [] (accept w s) where
  outLen := rfl
  auxLen := rfl
  outOctets _ := rfl
  auxOctets _ := rfl

/-- R22: accepting a command latches its word and changes nothing else but STATUS and the results. -/
theorem accept_unchanged (w : Word) (s : State) : Unchanged { s with cmd := w } (accept w s) where
  cmd := rfl
  doneIe := rfl
  findings := rfl
  embits := rfl
  m1bits := rfl
  pub := rfl
  priv := rfl
  crt := rfl
  inputs := rfl
  resp := rfl
  lens _ ho ha := accept_len_other w s ho ha
  octets _ i ho ha := congrArg (Memory.read · i) (accept_buf_other w s ho ha)

/-- Settles O16: a CMD write is `accept`, an ACK write `acknowledge` or nothing. -/
theorem cmdAndAckWrites : Obligations.CmdAndAckWrites := by
  intro C s w
  refine ⟨fun hp => ⟨accept w s, busWrite_cmd C hp w, rfl, rfl, rfl, accept_holds w s, accept_unchanged w s, rfl⟩,
    fun hb => busWrite_busy C s hb _ _ _, busRead_cmd C s, fun hd hw => ?_, fun h => ?_, busRead_ack C s⟩
  · rw [busWrite_ack, if_pos ⟨hw, hd⟩, acknowledge]
  · have hno : ¬ (w.getLsbD 0 = true ∧ s.phase = .done) := by
      rintro ⟨hw, hd⟩
      rcases h with h | h
      · exact h hd
      · rw [hw] at h; cases h
    rw [busWrite_ack, if_neg hno]

end Sys2Proof.Machine

/-! PROOFS of the statements about the bus (20_memory.md): accesses outside the address map (R63). -/

namespace Sys2Proof.Machine

/-! ## Accesses of nothing -/

theorem busRead_nothing {C : Config} {addr n : Nat} (h : target C addr n = .nothing) (s : State) :
    busRead C s addr n = .busError := by
  rw [busRead, h]

theorem busWriteResponse_nothing {C : Config} {addr n : Nat} (h : target C addr n = .nothing) :
    busWriteResponse C addr n = .busError := by
  rw [busWriteResponse, h]

theorem busWrite_nothing {C : Config} {addr n : Nat} (h : target C addr n = .nothing) (s : State) (v : Nat) :
    busWrite C s addr n v = s := by
  rw [busWrite, h]

/-- Settles O11: by `target_nothing` an access of neither form of R61 has no target. -/
theorem otherAccessesAreBusErrors : Obligations.OtherAccessesAreBusErrors := by
  intro C s addr n v hword hoctet
  have hnothing : target C addr n = .nothing := target_nothing C addr n hword hoctet
  exact ⟨busRead_nothing hnothing s, busWriteResponse_nothing hnothing, busWrite_nothing hnothing s v⟩

end Sys2Proof.Machine

/-! PROOFS of the statements about the primitives (40_primitives.md): ModExp (R120), the public and private primitives
(R125 to R128), MINSEL (R130). -/

namespace Sys2Proof.Machine

/-! ## Powers -/

/-- Square and multiply, for any base and modulus: enough fuel is one unit for each bit of the exponent. -/
theorem modExpFuel_eq (n : Nat) {fuel x : Nat} (b : Nat) (hx : x < 2 ^ fuel) : modExpFuel n fuel b x = b ^ x % n := by
  induction fuel generalizing b x with
  | zero =>
    obtain rfl : x = 0 := by simpa using hx
    rfl
  | succ fuel ih =>
    have hhalf : modExpFuel n fuel (b * b % n) (x / 2) = b ^ (2 * (x / 2)) % n := by
      rw [ih (b * b % n) (by omega), ← Nat.pow_mod, ← pow_two, ← pow_mul]
    rw [modExpFuel, hhalf]
    split
    · next hodd => rw [Nat.mod_mul_mod, ← pow_succ, show 2 * (x / 2) + 1 = x by omega]
    · next heven => rw [show 2 * (x / 2) = x by omega]

/-- R120, without its conditions on `b` and `n`. -/
theorem modExp_eq (b x n : Nat) : modExp b x n = b ^ x % n :=
  modExpFuel_eq n b (lt_two_pow_bitlen x)

/-- Settles O34, as a case of `modExp_eq`. -/
theorem modExpIsThePower : Obligations.ModExpIsThePower :=
  fun b x n _ _ => modExp_eq b x n

/-- R125, R128: the public exponentiation is the power of the naturals. -/
theorem pubExp_eq_pubPower (s : State) (m : Nat) : s.pubExp m = pubPower s m :=
  modExp_eq m s.pub.e s.pub.n

/-- R122, R123: the private exponentiation is the one of the naturals, in both forms of the key. -/
theorem privExp_eq_privPower (s : State) (crt : Bool) (c : Nat) : s.privExp crt c = privPower s crt c := by
  simp only [State.privExp, crtExp, modExp_eq, privPower]

/-! ## Checks and completion of a command on one representative -/

/-- R95, R297: the common checks come first, for every command. -/
theorem checksFirst (i : Instr) (s : State) : ChecksFirst i s := by
  intro hready
  rw [exec_eq_runAt]
  by_cases hlegal : Legal cfg i s
  · have hsized : ¬ Sized cfg i s := fun h => hready ((ready_iff cfg i s).mpr ⟨hlegal, h⟩)
    exact .inr ⟨hlegal, by rw [runAt_of_preCheck (preCheck_of_not_sized hlegal hsized)]⟩
  · exact .inl ⟨hlegal, by rw [runAt_of_preCheck (preCheck_of_not_legal hlegal)]⟩

/-- A ready command whose rule is the domain check of a representative and then one result, without a draw. -/
theorem exec_of_ready_inDomain {i : Instr} {s : State} (hr : Ready cfg i s) {r n : Nat} {out aux : Bytes}
    (h : runAt cfg i s = complete (guarded cfg (useOf i) s (inDomain r n 0 (.done out aux 0))) s) :
    (r < n → exec i s = .next (deliver out aux s)) ∧ (n ≤ r → exec i s = .next (raise .domain s)) := by
  rw [exec_of_ready hr _ h]
  exact ⟨fun hlt => by simp [hlt], fun hle => by simp [hle]⟩

/-! ## The public and private primitives -/

theorem pubPrimitive_eq (s : State) :
    pubPrimitive s = inDomain (s.intOperand .inp) s.pub.n 0
      (.done (i2os (pubPower s (s.intOperand .inp)) s.pub.klen) [] 0) := by
  rw [pubPrimitive, pubExp_eq_pubPower]

theorem privPrimitive_eq (crt : Bool) (s : State) :
    privPrimitive crt s = inDomain (s.intOperand .inp) (s.privMod crt).n 0
      (.done (i2os (privPower s crt (s.intOperand .inp)) (s.privMod crt).klen) [] 0) := by
  rw [privPrimitive, privExp_eq_privPower]

/-- R275: the modulus of the selected private slot. -/
theorem privMod_n (s : State) (crt : Bool) : (s.privMod crt).n = if crt then s.crt.n else s.priv.n := by
  cases crt <;> rfl

/-- R275: the octet length of the selected private slot. -/
theorem privMod_klen (s : State) (crt : Bool) : (s.privMod crt).klen = if crt then s.crt.klen else s.priv.klen := by
  cases crt <;> rfl

/-- Settles O35: both commands run `pubPrimitive`. -/
theorem publicPrimitives : Obligations.PublicPrimitives := by
  refine ⟨by decide, by decide, fun i s hi => ⟨checksFirst i s, fun hr => ?_⟩⟩
  have hrun : runAt cfg i s = complete (guarded cfg (useOf i) s (pubPrimitive s)) s := by
    rcases hi with rfl | rfl <;> rfl
  rw [pubPrimitive_eq] at hrun
  exact exec_of_ready_inDomain hr hrun

/-- Settles O36: both commands run `privPrimitive`, and `privPower` is the integer `m` of the statement. -/
theorem privatePrimitives : Obligations.PrivatePrimitives := by
  refine ⟨by decide, by decide, fun i s crt hi => ⟨checksFirst i s, fun hr => ?_⟩⟩
  have hrun : runAt cfg i s = complete (guarded cfg (useOf i) s (privPrimitive crt s)) s := by
    rcases hi with rfl | rfl <;> rfl
  rw [privPrimitive_eq, privMod_n, privMod_klen] at hrun
  exact exec_of_ready_inDomain hr hrun

/-! ## The minimum selector -/

/-- R129: what is selected is the representative or its complement. -/
theorem minSel_eq_or (S n : Nat) : minSel S n = S ∨ minSel S n = n - S := min_choice S (n - S)

theorem minSel_le_self (S n : Nat) : minSel S n ≤ S := min_le_left S (n - S)

theorem minSel_le_sub (S n : Nat) : minSel S n ≤ n - S := min_le_right S (n - S)

theorem minSel_le_compl (S n : Nat) : minSel S n ≤ n - minSel S n := by
  have := minSel_le_self S n
  have := minSel_le_sub S n
  omega

theorem minSel_lt_compl {S n : Nat} (h : S ≤ n) (hne : 2 * S ≠ n) : minSel S n < n - minSel S n := by
  have := minSel_le_self S n
  have := minSel_le_sub S n
  omega

/-- Settles O37: the integer delivered is `minSel S n`. -/
theorem minselDeliversTheSmaller : Obligations.MinselDeliversTheSmaller := by
  refine ⟨by decide, fun s => ⟨checksFirst .minsel s, fun hr => ?_⟩⟩
  obtain ⟨hdeliver, hdomain⟩ := exec_of_ready_inDomain (i := .minsel) hr rfl
  refine ⟨fun hlt => ⟨_, hdeliver hlt, minSel_eq_or _ _, minSel_le_self _ _, minSel_le_sub _ _, ?_, ?_⟩, hdomain⟩
  · exact minSel_le_compl _ _
  · exact minSel_lt_compl hlt.le

end Sys2Proof.Machine

/-! PROOFS of the statements about EME-PKCS1-v1_5 (41_eme_pkcs1_v15.md): EME_V15_DECODE (R154) and ES_V15_DECRYPT (R156). -/

namespace Sys2Proof.Machine

/-! ## Completion of a decoding command -/

@[simp] theorem complete_decoded_some (M : Bytes) (s : State) : complete (decoded (some M)) s = deliver M [] s := rfl

@[simp] theorem complete_decoded_none (s : State) : complete (decoded none) s = raise .fail s := rfl

/-! ## The decoder -/

/-- R153: the decoder fails exactly on the strings that have the padded form for no message. -/
theorem emeV15Decode_eq_none_iff (EM : Bytes) : emeV15Decode EM = none ↔ ∀ M, ¬ EmeForm EM M := by
  simp only [Option.eq_none_iff_forall_ne_some, ne_eq, emeV15Decode_iff]

/-- R154, R156: a completion with the decoder's answer delivers the message of the padded form. -/
theorem complete_emeV15Decode_of_form {EM M : Bytes} (h : EmeForm EM M) (s : State) :
    complete (decoded (emeV15Decode EM)) s = deliver M [] s := by
  rw [(emeV15Decode_iff EM M).mpr h, complete_decoded_some]

/-- R154, R156: without the padded form it ends with E_FAIL. -/
theorem complete_emeV15Decode_of_no_form {EM : Bytes} (h : ∀ M, ¬ EmeForm EM M) (s : State) :
    complete (decoded (emeV15Decode EM)) s = raise .fail s := by
  rw [(emeV15Decode_eq_none_iff EM).mpr h, complete_decoded_none]

/-! ## The two commands, once the common checks passed -/

theorem exec_emeV15Decode_of_ready {s : State} (hr : Ready cfg .emeV15Decode s) :
    exec .emeV15Decode s = .next (complete (decoded (emeV15Decode (s.operand .inp))) s) :=
  exec_of_ready hr _ rfl

theorem exec_esV15Decrypt_of_ready {s : State} {crt : Bool} (hr : Ready cfg (.esV15Decrypt crt) s) :
    exec (.esV15Decrypt crt) s = .next (complete (inDomain (s.intOperand .inp) (s.privMod crt).n 0
      (decoded (emeV15Decode (i2os (privPower s crt (s.intOperand .inp)) (s.privMod crt).klen)))) s) := by
  rw [← privExp_eq_privPower]
  exact exec_of_ready hr _ rfl

/-- Settles O40: after the checks both commands complete with the decoder's answer, which `emeV15Decode_iff` characterises. -/
theorem emeV15DecodeAndDecrypt : Obligations.EmeV15DecodeAndDecrypt := by
  refine ⟨by decide, by decide, fun s => ⟨checksFirst .emeV15Decode s, fun hr => ?decode⟩,
    fun s crt => ⟨checksFirst (.esV15Decrypt crt) s, fun hr => ?decrypt⟩⟩
  case decode =>
    rw [exec_emeV15Decode_of_ready hr]
    refine ⟨fun M hform => ?_, fun hno => ?_⟩
    · rw [complete_emeV15Decode_of_form hform]
    · rw [complete_emeV15Decode_of_no_form hno]
  case decrypt =>
    rw [exec_esV15Decrypt_of_ready hr]
    refine ⟨fun hle => ?_, fun M hlt hform => ?_, fun hlt hno => ?_⟩
    · rw [inDomain_of_le hle, complete_error, draws_zero]
    · rw [inDomain_of_lt hlt, complete_emeV15Decode_of_form hform]
    · rw [inDomain_of_lt hlt, complete_emeV15Decode_of_no_form hno]

end Sys2Proof.Machine

/-! PROOFS of the statement about the mask-generation datapath and the command MGF1 (42_eme_oaep_mgf1.md: R165, R166). -/

namespace Sys2Proof.Machine

/-! ## The octets of equal blocks in a row -/

theorem length_flatMap_range {f : Nat → Bytes} {c : Nat} (hf : ∀ j, (f j).length = c) (b : Nat) :
    ((List.range b).flatMap f).length = b * c := by
  simp [List.length_flatMap, hf]

/-- Octet `i` of blocks of `c` octets each is octet `i % c` of block `i / c`. -/
theorem getD_flatMap_range {f : Nat → Bytes} {c : Nat} (hf : ∀ j, (f j).length = c) (d : Byte) {b i : Nat}
    (hi : i < b * c) : ((List.range b).flatMap f).getD i d = (f (i / c)).getD (i % c) d := by
  induction b with
  | zero => simp at hi
  | succ b ih =>
    rw [List.range_succ, List.flatMap_append, List.flatMap_singleton]
    by_cases hlt : i < b * c
    · rw [List.getD_append _ _ _ _ (by rwa [length_flatMap_range hf]), ih hlt]
    · have hdiv : i / c = b := Nat.div_eq_of_lt_le (by omega) hi
      rw [List.getD_append_right _ _ _ _ (by rw [length_flatMap_range hf]; omega), length_flatMap_range hf,
        Nat.mod_eq_sub_div_mul, hdiv]

/-! ## The mask -/

/-- R165: the digests that MGF1 takes hold at least the `l` octets asked for. -/
theorem le_blocks_mul {c : Nat} (hc : 1 ≤ c) (l : Nat) : l ≤ (l + (c - 1)) / c * c := by
  have hle : l ≤ c • (l ⌈/⌉ c) := le_smul_ceilDiv hc
  rwa [Nat.ceilDiv_eq_add_pred_div, Nat.add_sub_assoc hc, smul_eq_mul, Nat.mul_comm] at hle

/-- R165: octet `i` of the mask is octet `i mod hLen` of the digest under counter `i div hLen`. -/
theorem getD_mgf1 {C : Config} {sel : Sel} (h : (C.hashes sel).isSome = true) (Z : Bytes) {l i : Nat} (hi : i < l) :
    (mgf1 C sel Z l).getD i 0 = (C.hash sel (Z ++ i2os (i / hLen C sel) 4)).getD (i % hLen C sel) 0 := by
  have hblocks := hi.trans_le (le_blocks_mul (hLen_pos h) l)
  rw [mgf1, List.getD_eq_getElem?_getD, List.getElem?_take_of_lt hi, ← List.getD_eq_getElem?_getD,
    getD_flatMap_range (fun _ => length_hash h _) 0 hblocks]

/-! ## The command, once the common checks passed -/

theorem exec_mgf1_of_ready {s : State} {h : Sel} (hr : Ready cfg (.mgf1 h) s) :
    exec (.mgf1 h) s = .next (complete (if s.embits.toNat % 8 ≠ 0 then .error .param 0
      else .done (mgf1 cfg h (s.operand .inp) (s.embits.toNat / 8)) [] 0) s) :=
  exec_of_ready hr _ rfl

/-- Settles O42: after the checks the command delivers the mask, whose octets `getD_mgf1` gives. -/
theorem mgf1DeliversTheMask : Obligations.Mgf1DeliversTheMask := by
  refine ⟨by decide, fun s h => ⟨checksFirst (.mgf1 h) s, fun hr => ?_⟩⟩
  have hsel : (cfg.hashes h).isSome = true := hr.hash h rfl
  rw [exec_mgf1_of_ready hr]
  refine ⟨fun hbits => ?_, fun hbits => ⟨_, length_mgf1 hsel _ _, ?_, fun i hi => getD_mgf1 hsel _ hi⟩⟩
  · rw [if_pos hbits, complete_error, draws_zero]
  · rw [if_neg (not_not.mpr hbits), complete_done, draws_zero]

end Sys2Proof.Machine

/-! PROOFS of the statement about EMSA-PKCS1-v1_5 (43_emsa_pkcs1_v15.md: R185 to R188): EMSA_V15_ENCODE, SSA_V15_SIGN,
SSA_V15_VERIFY. -/

namespace Sys2Proof.Machine

/-! ## Comparing the octets of an integer with a string -/

/-- R8: the `l` octets of an integer that fits in them are a string of that length exactly when its value is the integer. -/
theorem i2os_eq_iff {x l : Nat} {X : Bytes} (hx : x < 256 ^ l) (hX : X.length = l) : i2os x l = X ↔ x = os2ip X := by
  constructor
  · rintro rfl
    rw [os2ip_i2os_of_lt hx]
  · rintro rfl
    rw [← hX, i2os_os2ip]

/-- R125, R131: the public power fits in the `klen` octets of its modulus. -/
theorem pubPower_lt_pow_klen {C : Config} {s : State} (hI : Inv C s) (hv : s.pub.valid = true) (m : Nat) :
    pubPower s m < 256 ^ s.pub.klen := by
  obtain ⟨hn, -, hk, hklen, -⟩ := pub_of_inv hI hv
  rw [hklen, hk]
  exact (Nat.mod_lt _ hn).trans (lt_pow_ceil8_bitlen _)

/-! ## The encoding and the moduli it meets -/

/-- R185: the encoding begins with the octet 0x00. -/
theorem emsaV15Encode_eq_zero_cons (C : Config) (sel : Sel) (M : Bytes) (emLen : Nat) :
    ∃ X, emsaV15Encode C sel M emLen = 0x00 :: X := ⟨_, rfl⟩

/-- R187: the encoding of `klen` octets is below the modulus, so that the domain check of SSA_V15_SIGN never fails. -/
theorem os2ip_emsaV15Encode_lt {C : Config} {sel : Sel} (h : (C.hashes sel).isSome = true) {M : Bytes} {n : Nat} (hn : 1 ≤ n)
    (hcap : C.tLen sel + 11 ≤ ceil8 (bitlen n)) : os2ip (emsaV15Encode C sel M (ceil8 (bitlen n))) < n := by
  have hlen := length_emsaV15Encode h (M := M) hcap
  obtain ⟨X, hX⟩ := emsaV15Encode_eq_zero_cons C sel M (ceil8 (bitlen n))
  rw [hX] at hlen ⊢
  exact os2ip_zero_cons_lt hn hlen

/-- R188: the octets of the public power are the encoding exactly when the power is its value. -/
theorem i2os_pubPower_eq_emsaV15Encode_iff {C : Config} {s : State} {sel : Sel} (hI : Inv C s) (hv : s.pub.valid = true)
    (h : (C.hashes sel).isSome = true) (hcap : C.tLen sel + 11 ≤ s.pub.klen) (M : Bytes) (m : Nat) :
    i2os (pubPower s m) s.pub.klen = emsaV15Encode C sel M s.pub.klen ↔
      pubPower s m = os2ip (emsaV15Encode C sel M s.pub.klen) :=
  i2os_eq_iff (pubPower_lt_pow_klen hI hv m) (length_emsaV15Encode h hcap)

/-! ## The three commands, once the common checks passed -/

theorem exec_emsaV15Encode_of_ready {s : State} {h : Sel} (hr : Ready cfg (.emsaV15Encode h) s) :
    exec (.emsaV15Encode h) s = .next (complete
      (if s.embits.toNat % 8 ≠ 0 then .error .param 0
       else if s.embits.toNat / 8 < cfg.tLen h + 11 then .error .capacity 0
       else .done (emsaV15Encode cfg h (s.operand .msg) (s.embits.toNat / 8)) [] 0) s) :=
  exec_of_ready hr _ rfl

theorem exec_ssaV15Sign_of_ready {s : State} {h : Sel} {crt : Bool} (hr : Ready cfg (.ssaV15Sign h crt) s) :
    let m := os2ip (emsaV15Encode cfg h (s.operand .msg) (s.privMod crt).klen)
    exec (.ssaV15Sign h crt) s = .next (complete
      (if (s.privMod crt).klen < cfg.tLen h + 11 then .error .capacity 0
       else inDomain m (s.privMod crt).n 0 (.done (i2os (privPower s crt m) (s.privMod crt).klen) [] 0)) s) := by
  intro m
  rw [← privExp_eq_privPower]
  exact exec_of_ready hr _ rfl

theorem exec_ssaV15Verify_of_ready {s : State} {h : Sel} (hr : Ready cfg (.ssaV15Verify h) s) :
    exec (.ssaV15Verify h) s = .next (complete
      (if s.pub.klen < cfg.tLen h + 11 then .error .capacity 0
       else inDomain (s.intOperand .inp) s.pub.n 0
        (if i2os (pubPower s (s.intOperand .inp)) s.pub.klen ≠ emsaV15Encode cfg h (s.operand .msg) s.pub.klen
         then .error .fail 0 else .done [] [] 0)) s) := by
  rw [← pubExp_eq_pubPower]
  exact exec_of_ready hr _ rfl

/-- Settles O46: the string of the statement is `emsaV15Encode`; the signature's domain check never fails
(`os2ip_emsaV15Encode_lt`), and the comparison of octets is one of integers (`i2os_pubPower_eq_emsaV15Encode_iff`). -/
theorem emsaV15EncodeSignVerify : Obligations.EmsaV15EncodeSignVerify := by
  refine ⟨by decide, by decide, by decide, fun s h crt => ⟨checksFirst _ s, checksFirst _ s, checksFirst _ s,
    fun hr => ?encode, fun hI hr => ?sign, fun hI hr => ?verify⟩⟩
  case encode =>
    rw [exec_emsaV15Encode_of_ready hr]
    refine ⟨fun hbits => ?_, fun hbits hcap => ?_, fun hbits hcap => ⟨length_emsaV15Encode (hr.hash h rfl) hcap, ?_⟩⟩
    · rw [if_pos hbits, complete_error, draws_zero]
    · rw [if_neg (not_not.mpr hbits), if_pos hcap, complete_error, draws_zero]
    · rw [if_neg (not_not.mpr hbits), if_neg hcap.not_gt, complete_done, draws_zero]
      rfl
  case sign =>
    rw [exec_ssaV15Sign_of_ready hr]
    refine ⟨fun hcap => ?_, fun hcap => ?_⟩
    · rw [if_pos hcap, complete_error, draws_zero]
    · obtain ⟨hn, hk, hklen, -⟩ := privMod_of_inv hI hr.slot
      rw [hk] at hklen
      have hlt : os2ip (emsaV15Encode cfg h (s.operand .msg) (s.privMod crt).klen) < (s.privMod crt).n := by
        rw [hklen] at hcap ⊢
        exact os2ip_emsaV15Encode_lt (hr.hash h rfl) hn hcap
      rw [if_neg hcap.not_gt, inDomain_of_lt hlt, complete_done, draws_zero]
      rfl
  case verify =>
    rw [exec_ssaV15Verify_of_ready hr]
    have hcompare (hcap : cfg.tLen h + 11 ≤ s.pub.klen) :=
      i2os_pubPower_eq_emsaV15Encode_iff hI hr.slot (hr.hash h rfl) hcap (s.operand .msg) (s.intOperand .inp)
    refine ⟨fun hcap => ?_, fun hcap hle => ?_, fun hcap hlt hval => ?_, fun hcap hlt hval => ?_⟩
    · rw [if_pos hcap, complete_error, draws_zero]
    · rw [if_neg hcap.not_gt, inDomain_of_le hle, complete_error, draws_zero]
    · rw [if_neg hcap.not_gt, inDomain_of_lt hlt, if_neg (not_not.mpr ((hcompare hcap).mpr hval)), complete_done, draws_zero]
    · rw [if_neg hcap.not_gt, inDomain_of_lt hlt, if_pos (mt (hcompare hcap).mp hval), complete_error, draws_zero]

end Sys2Proof.Machine

/-! PROOFS of the statements about the key commands and housekeeping (48_key_facade_housekeeping.md): KEY_LOAD_PUB (R271),
KEY_LOAD_PRIV (R272), KEY_LOAD_CRT (R273), NOP (R270) and KEY_CLEAR (R274). -/

namespace Sys2Proof.Machine

/-! ## Bit lengths and the sizes a slot holds -/

theorem ne_zero_of_two_pow_le {x m : Nat} (h : 2 ^ m ≤ x) : x ≠ 0 :=
  ((Nat.two_pow_pos m).trans_le h).ne'

theorem bitlen_le_iff (x m : Nat) : bitlen x ≤ m ↔ x < 2 ^ m := by
  refine ⟨fun h => (lt_two_pow_bitlen x).trans_le (Nat.pow_le_pow_right (by decide) h), fun h => ?_⟩
  by_contra hlt
  rcases Nat.eq_zero_or_pos x with rfl | hx
  · exact hlt (Nat.zero_le m)
  · have hlow := (bitlen_spec hx).2.1
    have hmono := Nat.pow_le_pow_right (n := 2) (by decide) (show m ≤ bitlen x - 1 by omega)
    omega

theorem ceil8_bitlen_le_iff (x l : Nat) : ceil8 (bitlen x) ≤ l ↔ x < 2 ^ (8 * l) := by
  rw [← bitlen_le_iff, ceil8]
  omega

/-- R277 on the modulus itself: both tests of step 3 of a key load are bounds on `n`. -/
theorem modulusFits_bitlen_iff (C : Config) (n : Nat) :
    modulusFits C (bitlen n) = true ↔ (∀ m, C.maxK = some m → n < 2 ^ m) ∧ n < 2 ^ (8 * C.maxBuf) := by
  simp only [modulusFits_iff, bitlen_le_iff, ceil8_bitlen_le_iff]

/-- R271 to R273 steps 2 and 3: a zero among the two integers of a key, or a modulus of more than MAX_K bits or MAX_BUF octets,
fails the tests of a key load. -/
theorem not_admitted {C : Config} {a b n : Nat}
    (h : a = 0 ∨ b = 0 ∨ (∃ m, C.maxK = some m ∧ 2 ^ m ≤ n) ∨ 2 ^ (8 * C.maxBuf) ≤ n) :
    ¬ (a ≠ 0 ∧ b ≠ 0 ∧ modulusFits C (bitlen n) = true) := by
  rintro ⟨ha, hb, hfit⟩
  obtain ⟨hmaxK, hmaxBuf⟩ := (modulusFits_bitlen_iff C n).mp hfit
  rcases h with h | h | ⟨m, hm, hle⟩ | hle
  · exact ha h
  · exact hb h
  · exact hle.not_gt (hmaxK m hm)
  · exact hle.not_gt hmaxBuf

/-! ## The key that a load constructs, and its install -/

section
variable {C : Config} {s : State}

theorem newPub_eq :
    newPub C s =
      if s.intOperand .kn ≠ 0 ∧ s.intOperand .ke ≠ 0 ∧ modulusFits C (bitlen (s.intOperand .kn)) = true then
        some ⟨true, s.intOperand .kn, s.intOperand .ke, bitlen (s.intOperand .kn), ceil8 (bitlen (s.intOperand .kn))⟩
      else none := by
  split_ifs with h
  · simp [newPub, h]
  · refine Option.eq_none_iff_forall_ne_some.mpr fun K hK => h ?_
    obtain ⟨hn, he, hfit, -⟩ := newPub_some hK
    exact ⟨hn, he, hfit⟩

theorem newPriv_eq :
    newPriv C s =
      if s.intOperand .kn ≠ 0 ∧ s.intOperand .ke ≠ 0 ∧ modulusFits C (bitlen (s.intOperand .kn)) = true then
        some ⟨true, s.intOperand .kn, s.intOperand .ke, s.intOperand .kd, bitlen (s.intOperand .kn),
          ceil8 (bitlen (s.intOperand .kn))⟩
      else none := by
  split_ifs with h
  · simp [newPriv, h]
  · refine Option.eq_none_iff_forall_ne_some.mpr fun K hK => h ?_
    obtain ⟨hn, he, hfit, -⟩ := newPriv_some hK
    exact ⟨hn, he, hfit⟩

theorem newCrt_eq :
    newCrt C s =
      if s.intOperand .kp ≠ 0 ∧ s.intOperand .kq ≠ 0 ∧ modulusFits C (bitlen (s.intOperand .kp * s.intOperand .kq)) = true then
        some ⟨true, s.intOperand .kp, s.intOperand .kq, s.intOperand .kdp, s.intOperand .kdq, s.intOperand .kqinv,
          s.intOperand .kp * s.intOperand .kq, bitlen (s.intOperand .kp * s.intOperand .kq),
          ceil8 (bitlen (s.intOperand .kp * s.intOperand .kq))⟩
      else none := by
  split_ifs with h
  · simp [newCrt, h]
  · refine Option.eq_none_iff_forall_ne_some.mpr fun K hK => h ?_
    obtain ⟨hp, hq, hfit, -⟩ := newCrt_some hK
    exact ⟨hp, hq, hfit⟩

end

/-- R25: the finding E_WINDOW, as one condition on the bit length of `e`. -/
theorem eWindow_eq (C : Config) (e : Nat) :
    eWindow C e = decide (bitlen e < C.eBitsInf ∨ C.eBitsSup < bitlen e) := by
  rw [eWindow, Bool.decide_or]

theorem installPub_eq (C : Config) (K : PubSlot) (s : State) :
    installPub C K s = { s with
      pub := K
      findings := { s.findings with
        pubModShort := decide (K.k < C.modBitsInf)
        pubEWindow := decide (bitlen K.e < C.eBitsInf ∨ C.eBitsSup < bitlen K.e) } } := by
  rw [← eWindow_eq]
  rfl

theorem installPriv_eq (C : Config) (K : PrivSlot) (s : State) :
    installPriv C K s = { s with
      priv := K
      findings := { s.findings with
        privModShort := decide (K.k < C.modBitsInf)
        privEWindow := decide (bitlen K.e < C.eBitsInf ∨ C.eBitsSup < bitlen K.e) } } := by
  rw [← eWindow_eq]
  rfl

/-! ## The key loads, once the common checks passed -/

theorem runAt_keyLoadPub_of_ready {C : Config} {s : State} (hr : Ready C .keyLoadPub s) :
    runAt C .keyLoadPub s = (newPub C s).elim (raise .param s) fun K => deliver [] [] (installPub C K s) :=
  loadKey_of_ready hr _ _

theorem runAt_keyLoadPriv_of_ready {C : Config} {s : State} (hr : Ready C .keyLoadPriv s) :
    runAt C .keyLoadPriv s = (newPriv C s).elim (raise .param s) fun K => deliver [] [] (installPriv C K s) :=
  loadKey_of_ready hr _ _

theorem runAt_keyLoadCrt_of_ready {C : Config} {s : State} (hr : Ready C .keyLoadCrt s) :
    runAt C .keyLoadCrt s = (newCrt C s).elim (raise .param s) fun K => deliver [] [] (installCrt C K s) :=
  loadKey_of_ready hr _ _

/-- Settles O31: the bit lengths in the statement are `bitlen`, and a KN that passed the common checks fits MAX_BUF. -/
theorem keyLoadPubInstallsTheKey : Obligations.KeyLoadPubInstallsTheKey := by
  refine ⟨by decide, fun s => ⟨checksFirst _ s, exec_eq_runAt _ s⟩, fun C s hr => ?_⟩
  have hbuf : s.intOperand .kn < 2 ^ (8 * C.maxBuf) := intOperand_lt (hr.lens .kn (by decide))
  rw [runAt_keyLoadPub_of_ready hr]
  refine ⟨hbuf, fun k j hk hnlo hnhi hj helo hehi hmax => ?install, fun h => ?reject⟩
  case install =>
    obtain rfl := bitlen_unique hk hnlo hnhi
    obtain rfl := bitlen_unique hj helo hehi
    have hfit := (modulusFits_iff C _).mpr ⟨hmax, (ceil8_bitlen_le_iff _ _).mpr hbuf⟩
    rw [newPub_eq, if_pos ⟨ne_zero_of_two_pow_le hnlo, ne_zero_of_two_pow_le helo, hfit⟩, Option.elim_some, installPub_eq]
    rfl
  case reject =>
    rw [newPub_eq, if_neg (not_admitted (h.imp_right (.imp_right .inl))), Option.elim_none]

/-- Settles O32, as O31 with KD. -/
theorem keyLoadPrivInstallsTheKey : Obligations.KeyLoadPrivInstallsTheKey := by
  refine ⟨by decide, fun s => ⟨checksFirst _ s, exec_eq_runAt _ s⟩, fun C s hr => ?_⟩
  have hbuf : s.intOperand .kn < 2 ^ (8 * C.maxBuf) := intOperand_lt (hr.lens .kn (by decide))
  rw [runAt_keyLoadPriv_of_ready hr]
  refine ⟨hbuf, fun k j hk hnlo hnhi hj helo hehi hmax => ?install, fun h => ?reject⟩
  case install =>
    obtain rfl := bitlen_unique hk hnlo hnhi
    obtain rfl := bitlen_unique hj helo hehi
    have hfit := (modulusFits_iff C _).mpr ⟨hmax, (ceil8_bitlen_le_iff _ _).mpr hbuf⟩
    rw [newPriv_eq, if_pos ⟨ne_zero_of_two_pow_le hnlo, ne_zero_of_two_pow_le helo, hfit⟩, Option.elim_some, installPriv_eq]
    rfl
  case reject =>
    rw [newPriv_eq, if_neg (not_admitted (h.imp_right (.imp_right .inl))), Option.elim_none]

/-- Settles O33: both tests of step 3 are on the product, which no common check bounds. -/
theorem keyLoadCrtInstallsTheKey : Obligations.KeyLoadCrtInstallsTheKey := by
  refine ⟨by decide, fun s => ⟨checksFirst _ s, exec_eq_runAt _ s⟩, fun C s hr => ?_⟩
  rw [runAt_keyLoadCrt_of_ready hr]
  refine ⟨fun k hk hlo hhi hmax hlen => ?install, fun h => ?reject⟩
  case install =>
    obtain rfl := bitlen_unique hk hlo hhi
    have hn : s.intOperand .kp * s.intOperand .kq ≠ 0 := ne_zero_of_two_pow_le hlo
    have hfit := (modulusFits_iff C _).mpr ⟨hmax, hlen⟩
    rw [newCrt_eq, if_pos ⟨left_ne_zero_of_mul hn, right_ne_zero_of_mul hn, hfit⟩, Option.elim_some]
    rfl
  case reject =>
    rw [newCrt_eq, if_neg (not_admitted h), Option.elim_none]

/-! ## NOP and KEY_CLEAR -/

/-- R96: NOP uses no operand, so that no common check can turn it away. -/
theorem ready_nop (C : Config) (s : State) : Ready C .nop s where
  flags := rfl
  hash := nofun
  slot := rfl
  lens := nofun
  embits := nofun

/-- R274: clearing, then completing with no results, leaves the reset state but for CMD, PHASE, IEN and the model's own fields. -/
theorem deliver_clearAll (s : State) :
    deliver [] [] (clearAll s) = { State.reset with cmd := s.cmd, phase := .done, doneIe := s.doneIe,
                                                    drawn := s.drawn, inputs := s.inputs, resp := s.resp } := rfl

/-- R90: the fields of a word, put side by side, are the word. Bit by bit, each field covers its own range. -/
theorem append_fieldsOf (w : Word) :
    ((fieldsOf w).reserved ++ BitVec.ofBool (fieldsOf w).sld ++ BitVec.ofBool (fieldsOf w).ss ++
      BitVec.ofBool (fieldsOf w).crt ++ BitVec.ofBool (fieldsOf w).um ++ BitVec.ofBool (fieldsOf w).it ++
      (fieldsOf w).hsel ++ (fieldsOf w).opc : BitVec 32) = w := by
  refine BitVec.eq_of_getLsbD_eq fun i hi => ?_
  simp only [fieldsOf, BitVec.getLsbD_append, BitVec.getLsbD_extractLsb', BitVec.getLsbD_ofBool]
  grind

/-- R90, R94: a word with no reserved bit set is its other fields packed. -/
theorem packWord_fieldsOf {w : Word} (h : (fieldsOf w).reserved = 0) :
    packWord (fieldsOf w).opc (fieldsOf w).hsel (fieldsOf w).it (fieldsOf w).um (fieldsOf w).crt (fieldsOf w).ss
      (fieldsOf w).sld = w := by
  have hall := append_fieldsOf w
  rwa [h] at hall

/-- R91: KEY_CLEAR is in one row only. -/
theorem opRow_of_build_eq_keyClear {n : Nat} {row : OpRow} {f : Fields} (h : opRow n = some row)
    (hb : .keyClear = row.build f) : n = 4 ∧ row = { hash := false, build := fun _ => .keyClear } := by
  unfold opRow at h
  split at h <;> cases h <;> cases hb
  exact ⟨rfl, rfl⟩

/-- R90, R94: the only word of KEY_CLEAR is its opcode with every other field zero. -/
theorem eq_of_decode_eq_keyClear {w : Word} (h : decode w = .ok .keyClear) : w = 0x00000004 := by
  obtain ⟨row, hrow, hreserved, hflags, -, hhash, hbuild⟩ := (decode_eq_ok_iff w _).mp h
  obtain ⟨hnum, rfl⟩ := opRow_of_build_eq_keyClear hrow hbuild
  have hopc : (fieldsOf w).opc = 4 := BitVec.eq_of_toNat_eq hnum
  have hhsel : (fieldsOf w).hsel = 0 := hhash.resolve_left Bool.false_ne_true
  simp only [OpRow.flagsUsed, Bool.or_false, Bool.and_eq_true, Bool.not_eq_true'] at hflags
  obtain ⟨⟨⟨⟨hit, hum⟩, hcrt⟩, hss⟩, hsld⟩ := hflags
  rw [← packWord_fieldsOf hreserved, hopc, hhsel, hit, hum, hcrt, hss, hsld]
  decide

/-- Settles O30: the two commands by their equations, the word of KEY_CLEAR by its one row of the opcode map. -/
theorem nopAndKeyClear : Obligations.NopAndKeyClear := by
  refine fun s => ⟨by decide, by decide, ?nop, ?keyClear, eq_of_decode_eq_keyClear⟩
  case nop => exact exec_of_ready (ready_nop cfg s) (.done [] [] 0) rfl
  case keyClear => rw [exec_eq_runAt, ← deliver_clearAll]; rfl

end Sys2Proof.Machine

/-! PROOFS of the statement about the interrupt output (60_exceptions.md: R300). -/

namespace Sys2Proof.Machine

/-! ## The level -/

/-- R300: the two conditions of the level. -/
theorem irq_iff (s : State) : irq s = true ↔ s.phase = .done ∧ s.doneIe = true := by
  simp [irq]

/-- R300: in DONE the output follows the enable. -/
theorem irq_of_done {s : State} (h : s.phase = .done) : irq s = s.doneIe := by
  simp [irq, h]

/-- R300: outside DONE the output is off, whatever the enable says. -/
theorem irq_of_not_done {s : State} (h : s.phase ≠ .done) : irq s = false := by
  simp [irq, h]

/-- R21: bit 16 of STATUS is past the 16 bits of PHASE, ERR and the valid bits, and the lowest of what lies above them. -/
theorem statusWord_getLsbD_irq (s : State) : (statusWord s).getLsbD 16 = irq s := by
  simp only [statusWord, BitVec.getLsbD_append]
  simp

/-- R24: an IEN write outside BUSY sets DONE_IE and nothing else. -/
theorem busWrite_ien (C : Config) {s : State} (hb : s.phase ≠ .busy) (v : Word) :
    busWrite C s 0x0C 4 v.toNat = { s with doneIe := v.getLsbD 0 } :=
  busWrite_reg C s hb v 0x0C .ien rfl rfl (by decide)

/-! ## No completion changes the enable -/

/-- A key load leaves DONE_IE alone when its installation does. -/
theorem loadKey_doneIe {α : Type} (C : Config) (u : Use) (key : Option α) {install : α → State → State} {s : State}
    (h : ∀ K, (install K s).doneIe = s.doneIe) : (loadKey C u key install s).doneIe = s.doneIe := by
  rcases loadKey_cases C u key install s with ⟨e, -, hrun⟩ | ⟨K, -, -, hrun⟩
  · rw [hrun, raise_doneIe]
  · rw [hrun, deliver_doneIe, h]

/-- The four commands that write key slots. -/
theorem eq_of_isKeyCommand {i : Instr} (h : isKeyCommand i = true) :
    i = .keyLoadPub ∨ i = .keyLoadPriv ∨ i = .keyLoadCrt ∨ i = .keyClear := by
  cases i <;> simp [isKeyCommand] at h ⊢

/-- R24, R296: no command writes IEN, KEY_CLEAR included (R274). -/
@[simp] theorem runAt_doneIe (C : Config) (i : Instr) (s : State) : (runAt C i s).doneIe = s.doneIe := by
  cases hk : isKeyCommand i with
  | false =>
    rcases runAt_cases C i s hk with ⟨e, u, hrun⟩ | ⟨out, aux, u, hrun⟩
    · rw [hrun, raise_doneIe, draws_doneIe]
    · rw [hrun, deliver_doneIe, draws_doneIe]
  | true =>
    rcases eq_of_isKeyCommand hk with rfl | rfl | rfl | rfl
    · exact loadKey_doneIe C _ _ fun K => installPub_doneIe C K s
    · exact loadKey_doneIe C _ _ fun K => installPriv_doneIe C K s
    · exact loadKey_doneIe C _ _ fun K => installCrt_doneIe C K s
    · exact clearAll_doneIe s

/-- Settles O17: each transition either ends in DONE, where the output is the enable, or leaves DONE, where it is off. -/
theorem interruptIsALevel : Obligations.InterruptIsALevel := by
  intro C s v w
  refine ⟨irq_iff s, statusWord_getLsbD_irq s, fun hd => ?enable, fun i => ?complete, fun e => ?raise,
    fun hd hw => ?acknowledge, fun hb => ?accept, ?reset⟩
  case enable =>
    have hb : s.phase ≠ .busy := by simp [hd]
    rw [busWrite_ien C hb]
    exact irq_of_done hd
  case complete => rw [irq_of_done (runAt_phase C i s), runAt_doneIe]
  case raise => rw [irq_of_done (raise_phase e s), raise_doneIe]
  case acknowledge =>
    rw [busWrite_ack, if_pos ⟨hw, hd⟩]
    exact irq_of_not_done (by simp)
  case accept =>
    rw [busWrite_cmd C hb]
    exact irq_of_not_done (by simp)
  case reset => exact irq_of_not_done nofun

end Sys2Proof.Machine

/-! PROOFS of the statement about accesses while the block is BUSY (70_reset_and_hazards.md: R326). -/

namespace Sys2Proof.Machine

/-! ## STATUS in BUSY -/

/-- R21: PHASE is the lowest field of STATUS. -/
theorem statusWord_extractLsb'_phase (s : State) : (statusWord s).extractLsb' 0 2 = s.phase.code :=
  BitVec.extractLsb'_append_eq_right

/-- R21: ERR stands above the four bits of PHASE and two zeros. -/
theorem statusWord_extractLsb'_err (s : State) : (statusWord s).extractLsb' 4 4 = s.err.code := by
  rw [statusWord, BitVec.extractLsb'_append_eq_of_le (by decide), BitVec.extractLsb'_append_eq_of_le (by decide)]
  exact BitVec.extractLsb'_append_eq_right

/-! ## Reads in BUSY -/

/-- A register offset is that of one register (R32). -/
theorem eq_regOffset_of_regAt {addr : Nat} {r : RegId} (h : regAt addr = some r) : addr = regOffset r := by
  unfold regAt at h
  split at h <;> cases h <;> rfl

/-- R326: no register but CMD, STATUS and IEN can be read in BUSY. -/
theorem readableBusy_of_regAt {addr : Nat} {r : RegId} (h : regAt addr = some r) (hcmd : addr ≠ 0x00) (hstatus : addr ≠ 0x04)
    (hien : addr ≠ 0x0C) : r.readableBusy = false := by
  obtain rfl := eq_regOffset_of_regAt h
  cases r with
  | cmd => exact absurd rfl hcmd
  | status => exact absurd rfl hstatus
  | ien => exact absurd rfl hien
  | ack | findings | kPub | kPriv | kCrt | embits | m1bits | len b => rfl

/-- R326: a register that can be read in BUSY reads its value in any phase. -/
theorem readReg_of_readableBusy {r : RegId} (h : r.readableBusy = true) (s : State) : readReg s r = regValue s r :=
  if_neg (by simp [h])

/-- R326: any other register reads zero in BUSY. -/
theorem readReg_of_busy {s : State} (hb : s.phase = .busy) {r : RegId} (h : r.readableBusy = false) : readReg s r = 0 :=
  if_pos ⟨hb, h⟩

/-- R326: in BUSY an octet of any buffer reads zero. -/
theorem readOctet_of_busy {s : State} (hb : s.phase = .busy) (b : BufId) (i : Nat) : readOctet s b i = 0 :=
  if_pos (.inl hb)

/-- R61, R33: an aligned word below the first buffer is a register or reads zero. -/
theorem busRead_word (C : Config) (s : State) {addr : Nat} (h4 : addr % 4 = 0) (hlt : addr < C.bufStride) :
    busRead C s addr 4 = .word ((regAt addr).elim 0 (readReg s)) := by
  rw [busRead, target, if_pos ⟨rfl, h4, hlt⟩]
  cases regAt addr <;> rfl

/-- R326: in BUSY every word but CMD, STATUS and IEN reads zero. -/
theorem busRead_word_of_busy (C : Config) {s : State} (hb : s.phase = .busy) {addr : Nat} (hcmd : addr ≠ 0x00)
    (hstatus : addr ≠ 0x04) (hien : addr ≠ 0x0C) (h4 : addr % 4 = 0) (hlt : addr < C.bufStride) :
    busRead C s addr 4 = .word 0 := by
  rw [busRead_word C s h4 hlt]
  cases hr : regAt addr with
  | none => rfl
  | some r => rw [Option.elim_some, readReg_of_busy hb (readableBusy_of_regAt hr hcmd hstatus hien)]

/-- R21, R326: STATUS reads its value in any phase. -/
theorem busRead_status (C : Config) (s : State) : busRead C s 0x04 4 = .word (statusWord s) := by
  rw [busRead_reg C s 0x04 .status rfl rfl (by decide), readReg_of_readableBusy rfl, regValue]

/-- R24, R326: IEN reads its value in any phase. -/
theorem busRead_ien (C : Config) (s : State) : busRead C s 0x0C 4 = .word (ienWord s) := by
  rw [busRead_reg C s 0x0C .ien rfl rfl (by decide), readReg_of_readableBusy rfl, regValue]

/-! ## Bus errors -/

/-- R63: whether a read is a bus error depends on the address map alone, not on the state. -/
theorem busRead_eq_busError_iff (C : Config) (s : State) (addr n : Nat) :
    busRead C s addr n = .busError ↔ target C addr n = .nothing := by
  rw [busRead]
  cases target C addr n <;> simp

/-- Settles O19: a read in BUSY is of a register that can be read then, of one that cannot, or of an octet; ERR is zero by the
invariant's `errOnlyDone`. -/
theorem busyDropsWritesAndHidesReads : Obligations.BusyDropsWritesAndHidesReads := by
  intro C s hb
  refine ⟨busWrite_busy C s hb, busRead_cmd C s, busRead_status C s, busRead_ien C s, ?phase, fun hinv => ?err,
    fun addr hcmd hstatus hien h4 hlt => busRead_word_of_busy C hb hcmd hstatus hien h4 hlt,
    fun b i hi => ?octets, fun addr n t ht => ?busError⟩
  case phase =>
    rw [statusWord_extractLsb'_phase, hb]
    rfl
  case err =>
    have hok : s.err = .ok := hinv.errOnlyDone (by simp [hb])
    rw [statusWord_extractLsb'_err, hok]
    rfl
  case octets => rw [busRead_octet C s b hi, readOctet_of_busy hb]
  case busError => exact busRead_nothing ((busRead_eq_busError_iff C t addr n).mp ht) s

end Sys2Proof.Machine

/-! PROOFS of the statements about the command word (30_encoding.md sections 1 and 2): the decoder against the encoder
(R90, R91, R96) and against opcode_table.json (R94), reserved opcodes (R97). -/

namespace Sys2Proof

/-! ## A word and its fields -/

/-- The word that has given fields (R90). -/
def Fields.word (f : Fields) : Word :=
  (f.reserved ++ BitVec.ofBool f.sld ++ BitVec.ofBool f.ss ++ BitVec.ofBool f.crt ++ BitVec.ofBool f.um ++
    BitVec.ofBool f.it ++ f.hsel ++ f.opc : BitVec 32)

theorem Fields.ext_of_eq {f g : Fields} (hopc : f.opc = g.opc) (hhsel : f.hsel = g.hsel) (hit : f.it = g.it)
    (hum : f.um = g.um) (hcrt : f.crt = g.crt) (hss : f.ss = g.ss) (hsld : f.sld = g.sld)
    (hreserved : f.reserved = g.reserved) : f = g := by
  cases f; cases g
  simp_all

@[simp] theorem word_fieldsOf (w : Word) : (fieldsOf w).word = w := Machine.append_fieldsOf w

/-- R90: each field is cut out where it was put. -/
@[simp] theorem fieldsOf_word (f : Fields) : fieldsOf f.word = f := by
  apply Fields.ext_of_eq
  case hopc => exact BitVec.extractLsb'_append_eq_right
  case hhsel =>
    refine (BitVec.extractLsb'_append_eq_of_le (by decide)).trans ?_
    exact BitVec.extractLsb'_append_eq_right
  case hreserved => 
    refine BitVec.eq_of_getLsbD_eq fun i hi => ?_
    simp only [fieldsOf, Fields.word, BitVec.getLsbD_append, BitVec.getLsbD_extractLsb', BitVec.getLsbD_ofBool]
    grind
  all_goals
    simp only [fieldsOf, Fields.word, BitVec.getLsbD_append]
    simp

theorem fieldsOf_injective : Function.Injective fieldsOf :=
  Function.LeftInverse.injective word_fieldsOf

/-- Masking a word masks its fields. -/
theorem fieldsOf_and (w m : Word) :
    fieldsOf (w &&& m) =
      { opc := (fieldsOf w).opc &&& (fieldsOf m).opc, hsel := (fieldsOf w).hsel &&& (fieldsOf m).hsel
        it := (fieldsOf w).it && (fieldsOf m).it, um := (fieldsOf w).um && (fieldsOf m).um
        crt := (fieldsOf w).crt && (fieldsOf m).crt, ss := (fieldsOf w).ss && (fieldsOf m).ss
        sld := (fieldsOf w).sld && (fieldsOf m).sld
        reserved := (fieldsOf w).reserved &&& (fieldsOf m).reserved } := by
  simp [fieldsOf, BitVec.extractLsb'_and]

/-! ## Encoding, then decoding -/

@[simp] theorem fieldsOf_packWord (opc : Byte) (hsel : Sel) (it um crt ss sld : Bool) :
    fieldsOf (packWord opc hsel it um crt ss sld) = ⟨opc, hsel, it, um, crt, ss, sld, 0⟩ :=
  fieldsOf_word ⟨opc, hsel, it, um, crt, ss, sld, 0⟩

/-- The word of a command has the opcode of a row of R91 and passes that row's checks of R95 but the one of R93, and the row
builds the command from its fields. -/
theorem exists_row (i : Instr) : ∃ row, opRow (fieldsOf (encode i)).opc.toNat = some row ∧ (fieldsOf (encode i)).reserved = 0 ∧
    row.flagsUsed (fieldsOf (encode i)) = true ∧ (row.hash = true ∨ (fieldsOf (encode i)).hsel = 0) ∧
    saltFlagsLegal (fieldsOf (encode i)).ss (fieldsOf (encode i)).sld = i.wf ∧ i = row.build (fieldsOf (encode i)) := by
  cases i
  all_goals
    rw [encode, fieldsOf_packWord]
    exact ⟨_, rfl, rfl, by simp [OpRow.flagsUsed], by simp, rfl, rfl⟩

theorem decode_encode (i : Instr) (h : i.wf = true) : decode (encode i) = .ok i := by
  obtain ⟨row, hrow, hreserved, hflags, hhash, hsalt, hbuild⟩ := exists_row i
  exact (decode_eq_ok_iff _ i).mpr ⟨row, hrow, hreserved, hflags, hsalt.trans h, hhash, hbuild⟩

/-- Settles O4: every command has a row of the opcode map, whose checks its word passes. -/
theorem decodeOfEncode : Obligations.DecodeOfEncode := decode_encode

theorem decode_of_encode_eq {w : Word} {i : Instr} (hw : encode i = w) (h : i.wf = true) : decode w = .ok i :=
  hw ▸ decode_encode i h

/-- Settles O9: each word is that of its command. -/
theorem wordsDecodeAsTheTableSays : Obligations.WordsDecodeAsTheTableSays := by
  refine ⟨?_, ?_, ?_, ?_, ?_, ?_, ?_, ?_, ?_, ?_⟩ <;> exact decode_of_encode_eq (by decide) rfl

/-! ## Decoding, then encoding -/

/-- A flag that its row does not use is not set (R93). -/
theorem OpRow.flagsUsed_iff (row : OpRow) (f : Fields) :
    row.flagsUsed f = true ↔ (row.it = false → f.it = false) ∧ (row.um = false → f.um = false) ∧
      (row.crt = false → f.crt = false) ∧ (row.ss = false → f.ss = false) ∧ (row.sld = false → f.sld = false) := by
  simp only [OpRow.flagsUsed, Bool.and_eq_true, Bool.or_eq_true, Bool.not_eq_true', and_assoc]
  grind

/-- The command that a row builds is encoded by the fields it was built from, and keeps the salt rule (R93). -/
theorem encode_build {f : Fields} {row : OpRow} (hrow : opRow f.opc.toNat = some row) (hreserved : f.reserved = 0)
    (hflags : row.flagsUsed f = true) (hsalt : saltFlagsLegal f.ss f.sld = true) (hhash : row.hash = true ∨ f.hsel = 0) :
    encode (row.build f) = f.word ∧ (row.build f).wf = true := by
  obtain ⟨hit, hum, hcrt, hss, hsld⟩ := (row.flagsUsed_iff f).mp hflags
  have hopc : f.opc = BitVec.ofNat 8 f.opc.toNat := by simp
  generalize f.opc.toNat = n at hrow hopc
  obtain ⟨opc, hsel, it, um, crt, ss, sld, reserved⟩ := f
  unfold opRow at hrow
  split at hrow <;> cases hrow <;> simp_all [encode, Fields.word, packWord, Instr.wf]

/-- Settles O5. -/
theorem encodeOfDecode : Obligations.EncodeOfDecode := by
  intro w i h
  obtain ⟨row, hrow, hreserved, hflags, hsalt, hhash, rfl⟩ := (decode_eq_ok_iff w i).mp h
  have := encode_build hrow hreserved hflags hsalt hhash
  rwa [word_fieldsOf] at this

/-! ## The masks of the opcode table -/

/-- The column "mask" of opcode_table.json, from the row of the opcode map: the bits that the row fixes. -/
def OpRow.mask (row : OpRow) : Fields where
  opc := BitVec.allOnes 8
  hsel := if row.hash then 0 else BitVec.allOnes 4
  it := !row.it
  um := !row.um
  crt := !row.crt
  ss := !row.ss
  sld := !row.sld
  reserved := BitVec.allOnes 15

/-- The column "match" of opcode_table.json: the opcode. -/
def opcodeMatch (n : Nat) : Fields := ⟨BitVec.ofNat 8 n, 0, false, false, false, false, false, 0⟩

/-- R94: a word has the fixed bits of a row when its opcode is the row's and it passes the checks of R95 steps 2 and 3. -/
theorem and_mask_eq_iff (w : Word) (row : OpRow) {n : Nat} (hn : n < 256) :
    w &&& row.mask.word = (opcodeMatch n).word ↔ (fieldsOf w).opc.toNat = n ∧ (fieldsOf w).reserved = 0 ∧
      row.flagsUsed (fieldsOf w) = true ∧ (row.hash = true ∨ (fieldsOf w).hsel = 0) := by
  have hopc (x : Byte) : x = BitVec.ofNat 8 n ↔ x.toNat = n := by bv_omega
  rw [← fieldsOf_injective.eq_iff, fieldsOf_and, fieldsOf_word, fieldsOf_word, OpRow.flagsUsed_iff, ← hopc]
  simp only [OpRow.mask, opcodeMatch, Fields.mk.injEq, BitVec.and_allOnes]
  cases row.hash
  · simp only [Bool.false_eq_true, if_false, BitVec.and_allOnes, false_or]
    grind
  · simp only [if_true, true_or]
    grind

/-- The pattern of a command is that of its row. -/
theorem pattern_build {n : Nat} {row : OpRow} (hrow : opRow n = some row) (f : Fields) :
    (row.build f).pattern = (row.mask.word, (opcodeMatch n).word) := by
  unfold opRow at hrow
  split at hrow <;> cases hrow <;> rfl

theorem opRow_lt {n : Nat} {row : OpRow} (hrow : opRow n = some row) : n < 256 := by
  unfold opRow at hrow
  split at hrow <;> cases hrow <;> decide

/-- Settles O6. -/
theorem decodeMatchesOpcodeTable : Obligations.DecodeMatchesOpcodeTable := by
  have hsalt (w : Word) : saltFlagsLegal (fieldsOf w).ss (fieldsOf w).sld = true ↔ (w.getLsbD 15 && w.getLsbD 16) = false := by
    rw [saltFlagsLegal, Bool.not_eq_true']
    rfl
  constructor
  · intro w i h
    obtain ⟨row, hrow, hreserved, hflags, hs, hhash, rfl⟩ := (decode_eq_ok_iff w i).mp h
    rw [pattern_build hrow]
    exact ⟨(and_mask_eq_iff w row (opRow_lt hrow)).mpr ⟨rfl, hreserved, hflags, hhash⟩, (hsalt w).mp hs⟩
  · intro w i hw hs
    obtain ⟨row, hrow, -, -, -, -, hi⟩ := exists_row i
    rw [hi, pattern_build hrow] at hw ⊢
    obtain ⟨hopc, hreserved, hflags, hhash⟩ := (and_mask_eq_iff w row (opRow_lt hrow)).mp hw
    refine ⟨row.build (fieldsOf w), (decode_eq_ok_iff w _).mpr ⟨row, hopc ▸ hrow, hreserved, hflags, (hsalt w).mpr hs, hhash, rfl⟩, ?_⟩
    rw [pattern_build hrow]

end Sys2Proof

/-! PROOFS of the statements about steps and the completion of a latched word (20_memory.md section 5, 30_encoding.md section 2,
60_exceptions.md, 70_reset_and_hazards.md): R69, R95, R97, R101, R292, R297. -/

namespace Sys2Proof.Machine

/-! ## What one step is -/

section
variable {C : Config} {run : Instr → State → Outcome} {s : State} {rest : List HostEvent}

theorem stepWith_nil (h : s.inputs = []) : stepWith C run s = engineMove run s := by
  simp only [stepWith, h]

theorem stepWith_engine (h : s.inputs = .engine :: rest) :
    stepWith C run s = engineMove run { s with inputs := rest } := by
  simp only [stepWith, h]

theorem stepWith_reset (h : s.inputs = .reset :: rest) :
    stepWith C run s = .next (hardReset { s with inputs := rest }) := by
  simp only [stepWith, h]

theorem stepWith_read {a n : Nat} (h : s.inputs = .read a n :: rest) :
    stepWith C run s = .next { s with inputs := rest, resp := some (busRead C s a n) } := by
  simp only [stepWith, h]

theorem stepWith_write {a n v : Nat} (h : s.inputs = .write a n v :: rest) :
    stepWith C run s = .next { busWrite C s a n v with inputs := rest, resp := some (busWriteResponse C a n) } := by
  simp only [stepWith, h]

theorem engineMove_of_not_busy (h : s.phase ≠ .busy) : engineMove run s = .next s := if_neg h

theorem engineMove_of_ok {i : Instr} (h : s.phase = .busy) (hd : decode s.cmd = .ok i) : engineMove run s = run i s := by
  rw [engineMove, if_pos h, engineTurn, hd]

theorem engineMove_of_error {x : Illegal} (h : s.phase = .busy) (hd : decode s.cmd = .error x) :
    engineMove run s = .next (raise .illegal s) := by
  rw [engineMove, if_pos h, engineTurn, hd]

end

/-- `withFetchWord` accepts the word (log 7). -/
theorem withFetchWord_eq (s : State) (w : Word) : s.withFetchWord 32 w.toNat = { accept w s with inputs := [] } := by
  rw [State.withFetchWord, placeWord, Nat.mod_eq_of_lt w.isLt, ofNat_self]

/-- Settles O10: the clauses are the arms of `stepWith` and `engineMove`. -/
theorem stepRunsTheDecodedCommand : Obligations.StepRunsTheDecodedCommand := by
  refine ⟨fun s i hb hi hd => ?_, fun s i rest hb hi hd => ?_, fun s hb hi => ?_, fun s rest hb hi => ?_,
    fun s a n rest hi => stepWith_read hi, fun s a n v rest hi => stepWith_write hi, fun s rest hi => stepWith_reset hi,
    fun s w i hd => ?_⟩
  · rw [step, stepWith_nil hi, engineMove_of_ok hb hd]
  · rw [step, stepWith_engine hi]
    exact engineMove_of_ok hb hd
  · rw [step, stepWith_nil hi, engineMove_of_not_busy hb]
  · rw [step, stepWith_engine hi]
    exact engineMove_of_not_busy hb
  · rw [withFetchWord_eq, step, stepWith_nil rfl]
    exact engineMove_of_ok rfl hd

/-! ## Completions -/

/-- R296: an error leaves no results. -/
theorem raise_holds (e : Err) (s : State) : Holds [] [] (raise e s) where
  outLen := rfl
  auxLen := rfl
  outOctets _ := rfl
  auxOctets _ := rfl

/-- R296: an error changes nothing but STATUS and the results; a draw before it changes the random port's position alone. -/
theorem raise_unchanged (e : Err) (u : Nat) (s : State) : Unchanged s (raise e (s.draws u)) where
  cmd := rfl
  doneIe := rfl
  findings := rfl
  embits := rfl
  m1bits := rfl
  pub := rfl
  priv := rfl
  crt := rfl
  inputs := rfl
  resp := rfl
  lens _ ho ha := raise_len_other e _ ho ha
  octets _ i ho ha := congrArg (Memory.read · i) (raise_buf_other e _ ho ha)

/-- R101: a completion without an error changes nothing but STATUS and the results. -/
theorem deliver_unchanged (out aux : Bytes) (u : Nat) (s : State) : Unchanged s (deliver out aux (s.draws u)) where
  cmd := rfl
  doneIe := rfl
  findings := rfl
  embits := rfl
  m1bits := rfl
  pub := rfl
  priv := rfl
  crt := rfl
  inputs := rfl
  resp := rfl
  lens _ ho ha := deliver_len_other out aux _ ho ha
  octets _ i ho ha := congrArg (Memory.read · i) (deliver_buf_other out aux _ ho ha)

/-- R36: a completion without an error leaves its two strings. -/
theorem deliver_holds {out aux : Bytes} (ho : out.length < 2 ^ 32) (ha : aux.length < 2 ^ 32) (s : State) :
    Holds out aux (deliver out aux s) where
  outLen := by simpa using ho
  auxLen := by simpa using ha
  outOctets i := Memory.read_ofBytes out i
  auxOctets i := Memory.read_ofBytes aux i

/-- R36: the string in OUT reads back as an operand. -/
theorem deliver_operand_out {out : Bytes} (ho : out.length < 2 ^ 32) (aux : Bytes) (s : State) :
    (deliver out aux s).operand .out = out := by
  rw [State.operand, deliver_len_out, deliver_buf_out, BitVec.toNat_ofNat, Nat.mod_eq_of_lt ho, Memory.bytes_ofBytes]

/-- R36: the string in AUX reads back as an operand. -/
theorem deliver_operand_aux (out : Bytes) {aux : Bytes} (ha : aux.length < 2 ^ 32) (s : State) :
    (deliver out aux s).operand .aux = aux := by
  rw [State.operand, deliver_len_aux, deliver_buf_aux, BitVec.toNat_ofNat, Nat.mod_eq_of_lt ha, Memory.bytes_ofBytes]

/-- Settles O20: the frame and the contents of `deliver`. -/
theorem successHoldsItsResults : Obligations.SuccessHoldsItsResults :=
  fun out aux s ho ha => ⟨deliver_holds ho ha s, deliver_unchanged out aux 0 s, rfl, rfl, deliver_operand_out ho aux s,
    deliver_operand_aux out ha s⟩

/-! ## Illegal words and the common checks -/

/-- R95, R297: a command that fails steps 2 to 4 of the common checks. -/
theorem runAt_of_not_legal {C : Config} {i : Instr} {s : State} (h : ¬ Legal C i s) : runAt C i s = raise .illegal s :=
  runAt_of_preCheck (preCheck_of_not_legal h)

/-- R95, R297: a command that passes them and fails step 5. -/
theorem runAt_of_not_sized {C : Config} {i : Instr} {s : State} (hl : Legal C i s) (h : ¬ Sized C i s) :
    runAt C i s = raise .param s :=
  runAt_of_preCheck (preCheck_of_not_sized hl h)

/-- Settles O27: the engine raises E_ILLEGAL for an illegal word, `preCheck` finds the first check that fails. -/
theorem commonChecksComeFirst : Obligations.CommonChecksComeFirst := by
  refine ⟨fun C s x hb hi hd => ?_, fun C i s => ⟨runAt_of_not_legal, runAt_of_not_sized⟩⟩
  rw [stepAt, stepWith_nil hi, engineMove_of_error hb hd]

/-- Settles O8: the word decodes to a legal command, to one that fails steps 2 to 4, or to none. -/
theorem everyWordHasAnOutcome : Obligations.EveryWordHasAnOutcome := by
  intro s hb hi
  have hillegal : (raise .illegal s).err = .illegal ∧ Unchanged s (raise .illegal s) ∧ Holds [] [] (raise .illegal s) :=
    ⟨rfl, raise_unchanged .illegal 0 s, raise_holds .illegal s⟩
  cases hd : decode s.cmd with
  | error x =>
    refine ⟨raise .illegal s, ?_, rfl, .inr hillegal⟩
    rw [step, stepWith_nil hi, engineMove_of_error hb hd]
  | ok i =>
    refine ⟨runAt cfg i s, ?_, runAt_phase cfg i s, ?_⟩
    · rw [step, stepWith_nil hi, engineMove_of_ok hb hd, exec_eq_runAt]
    · by_cases hl : Legal cfg i s
      · exact .inl ⟨i, rfl, hl, exec_eq_runAt i s⟩
      · rw [runAt_of_not_legal hl]
        exact .inr hillegal

/-- R90: the opcode is the low octet of the word. -/
theorem fieldsOf_opc_toNat (w : Word) : (fieldsOf w).opc.toNat = w.toNat % 256 := by
  simp [fieldsOf]

/-- R97: the reserved opcodes have no row. -/
theorem opRow_of_reserved {n : Nat}
    (h : (0x05 ≤ n ∧ n ≤ 0x0F) ∨ (0x15 ≤ n ∧ n ≤ 0x1F) ∨ (0x28 ≤ n ∧ n ≤ 0x2F) ∨ (0x38 ≤ n ∧ n ≤ 0x3F) ∨
      (0x46 ≤ n ∧ n ≤ 0xFF)) : opRow n = none := by
  unfold opRow
  split
  any_goals omega
  rfl

theorem decode_of_opRow_none {w : Word} (h : opRow (fieldsOf w).opc.toNat = none) :
    decode w = .error (.reservedOpcode (fieldsOf w).opc) := by
  simp only [decode, h]

/-- Settles O7: the write accepts the word, which has no row, so that the engine's turn raises E_ILLEGAL. -/
theorem reservedOpcodesAreIllegal : Obligations.ReservedOpcodesAreIllegal := by
  intro s w hopc hb hi
  have hd : decode w = .error (.reservedOpcode (fieldsOf w).opc) :=
    decode_of_opRow_none (opRow_of_reserved (fieldsOf_opc_toNat w ▸ hopc))
  set t : State := { accept w s with inputs := [], resp := some .written } with ht
  refine ⟨t, raise .illegal t, ?_, rfl, rfl, ?_, rfl, raise_unchanged .illegal 0 t, raise_holds .illegal t, rfl⟩
  · rw [step, stepWith_write hi, busWrite_cmd cfg hb]
    rfl
  · rw [step, stepWith_nil rfl, engineMove_of_error (s := t) rfl hd]

/-! ## Accesses while BUSY, and results after the end -/

/-- A host access while BUSY changes nothing but the list of things to come and the bus's answer (R326). -/
theorem step_of_busy_access {s : State} {e : HostEvent} {rest : List HostEvent} (hb : s.phase = .busy)
    (he : (∃ a n, e = .read a n) ∨ ∃ a n v, e = .write a n v) (hi : s.inputs = e :: rest) :
    ∃ answer, step s = .next { s with inputs := rest, resp := answer } := by
  rcases he with ⟨a, n, rfl⟩ | ⟨a, n, v, rfl⟩
  · exact ⟨_, stepWith_read hi⟩
  · refine ⟨some (busWriteResponse cfg a n), ?_⟩
    rw [step, stepWith_write hi, busWrite_busy cfg s hb]

/-- Settles O24, by induction on the accesses before the engine's turn. -/
theorem commandSeesOperandsAtAccept : Obligations.CommandSeesOperandsAtAccept := by
  intro s es rest i hb hi hes hd
  induction es generalizing s with
  | nil =>
    refine ⟨s.resp, ?_⟩
    have hstep : step s = exec i { s with inputs := rest } := by
      rw [step, stepWith_engine hi]
      exact engineMove_of_ok hb hd
    rw [exec_eq_runAt] at hstep ⊢
    exact core_run_succ 0 s _ hstep
  | cons e es ih =>
    obtain ⟨he, hes⟩ := List.forall_mem_cons.mp hes
    obtain ⟨answer, hstep⟩ := step_of_busy_access hb he hi
    obtain ⟨answer', hrun⟩ := ih { s with inputs := es ++ .engine :: rest, resp := answer } hb rfl hes hd
    exact ⟨answer', (core_run_succ _ s _ hstep).trans hrun⟩

end Sys2Proof.Machine

/-! PROOFS of the statements about the registers and buffers on the bus (10_state.md sections 2 and 3, 20_memory.md): reads
(R32, R33), writes (R27 to R31, R61, R66), STATUS (R21), results between commands (R70), the load scripts (R100). -/

namespace Sys2Proof.Machine

/-! ## Registers -/

theorem regAt_regOffset (r : RegId) : regAt (regOffset r) = some r := by
  cases r with
  | len b => cases b <;> rfl
  | cmd | status | ack | ien | findings | kPub | kPriv | kCrt | embits | m1bits => rfl

theorem regOffset_mod (r : RegId) : regOffset r % 4 = 0 := by
  cases r <;> simp [regOffset]

theorem regOffset_lt (r : RegId) : regOffset r < 0x100 := by
  cases r with
  | len b => have := b.num_lt; rw [regOffset]; omega
  | cmd | status | ack | ien | findings | kPub | kPriv | kCrt | embits | m1bits => decide

/-- R32: a register's word outside BUSY. -/
theorem busRead_regOffset (C : Config) {s : State} (hb : s.phase ≠ .busy) (r : RegId) :
    busRead C s (regOffset r) 4 = .word (regValue s r) := by
  rw [busRead_reg C s _ r (regAt_regOffset r) (regOffset_mod r) (regOffset_lt r), readReg, if_neg (by simp [hb])]

/-- R22 to R31: a register's write outside BUSY. -/
theorem busWrite_regOffset (C : Config) {s : State} (hb : s.phase ≠ .busy) (r : RegId) (v : Word) :
    busWrite C s (regOffset r) 4 v.toNat = regWrite s r v :=
  busWrite_reg C s hb v _ r (regAt_regOffset r) (regOffset_mod r) (regOffset_lt r)

theorem busWriteResponse_regOffset (C : Config) (r : RegId) : busWriteResponse C (regOffset r) 4 = .written := by
  rw [busWriteResponse, target_reg C _ r (regAt_regOffset r) (regOffset_mod r) (regOffset_lt r)]

/-- Settles O12: the words below 0x60 are the registers, in the order of their offsets; the others are reserved. -/
theorem registerMapReads : Obligations.RegisterMapReads := by
  intro C s hb
  have hread := busRead_regOffset C hb
  constructor
  · simp only [List.forall_mem_cons]
    exact ⟨hread .cmd, hread .status, hread .ack, hread .ien, hread .findings, hread .kPub, hread .kPriv, hread .kCrt,
      hread .embits, hread .m1bits, hread (.len .msg), hread (.len .label), hread (.len .salt), hread (.len .inp),
      hread (.len .out), hread (.len .aux), hread (.len .kn), hread (.len .ke), hread (.len .kd), hread (.len .kp),
      hread (.len .kq), hread (.len .kdp), hread (.len .kdq), hread (.len .kqinv), nofun⟩
  · intro addr v h0 h4 hl
    have htarget : target C addr 4 = .reserved := target_reserved C addr h0 h4 hl
    simp [busRead, busWriteResponse, busWrite, htarget]

/-- R30, R36: the buffers that only the engine writes. -/
theorem readOnly_eq_false {b : BufId} (ho : b ≠ .out) (ha : b ≠ .aux) : b.readOnly = false := by
  revert ho ha
  cases b <;> decide

/-- R29, R31: a length register that the host writes. -/
theorem regWrite_len {b : BufId} (hro : b.readOnly = false) (s : State) (v : Word) : regWrite s (.len b) v = s.setLen b v := by
  rw [regWrite, if_neg (by simp [hro])]

/-- Settles O13: `regWrite` sets the register alone, or nothing. -/
theorem registerWritesReadBack : Obligations.RegisterWritesReadBack := by
  intro C s v hb
  have hwrite (r : RegId) := busWrite_regOffset C hb r v
  have hignored (r : RegId) (hr : regWrite s r v = s) :
      busWrite C s (regOffset r) 4 v.toNat = s ∧ busWriteResponse C (regOffset r) 4 = .written :=
    ⟨(hwrite r).trans hr, busWriteResponse_regOffset C r⟩
  refine ⟨hwrite .embits, hwrite .m1bits, hwrite .ien, fun b ho ha => ?_, ?_⟩
  · have hlen : busWrite C s (0x28 + 4 * b.num) 4 v.toNat = s.setLen b v :=
      (hwrite (.len b)).trans (regWrite_len (readOnly_eq_false ho ha) s v)
    rw [hlen]
    exact ⟨setLen_len_self s b v, fun c hc => setLen_len_other s v hc, rfl⟩
  · simp only [List.forall_mem_cons]
    exact ⟨hignored .status rfl, hignored .findings rfl, hignored .kPub rfl, hignored .kPriv rfl, hignored .kCrt rfl,
      hignored (.len .out) rfl, hignored (.len .aux) rfl, nofun⟩

/-! ## Octets -/

theorem busWriteResponse_octet (C : Config) (b : BufId) {i : Nat} (hi : i < C.maxBuf) :
    busWriteResponse C ((b.num + 1) * C.bufStride + i) 1 = .written := by
  rw [busWriteResponse, target_octet C b i hi]

/-- R61: an octet write changes no other octet. -/
theorem setOctet_octet_other {s : State} {b : BufId} (hwf : (s.buf b).wf) {i : Nat} (v : Byte) {c : BufId} {j : Nat}
    (h : c ≠ b ∨ j ≠ i) : (s.setOctet b i v).octet c j = s.octet c j := by
  rw [State.octet_def, State.octet_def, State.setOctet]
  by_cases hc : c = b
  · subst hc
    have hj : j ≠ i := h.resolve_left (not_not.mpr rfl)
    rw [setBuf_buf_self, Memory.read_write i v j hwf, if_neg hj.symm]
  · rw [setBuf_buf_other s _ hc]

/-- R37: the buffers the host can read. -/
theorem not_secret_of_mem {b : BufId} (h : b ∈ [BufId.msg, .label, .salt, .inp, .out, .aux, .kn, .ke]) : b.secret = false := by
  revert h
  cases b <;> decide

theorem readOctet_of_readable {s : State} {b : BufId} (hb : s.phase ≠ .busy) (h : b.secret = false) (i : Nat) :
    readOctet s b i = s.octet b i :=
  if_neg (by simp [hb, h])

/-- Settles O14: the address is that of octet `i`, which `readOctet` and `writeOctet` are about. -/
theorem bufferOctetAccess : Obligations.BufferOctetAccess := by
  intro C s b i v hi hb
  refine ⟨fun hmem => ?_, busWriteResponse_octet C b hi, fun ho ha hwf => ?_, fun hro => ?_⟩
  · rw [busRead_octet C s b hi, readOctet_of_readable hb (not_secret_of_mem hmem)]
  · rw [busWrite_octet C s b hi, writeOctet_of_writable hb (readOnly_eq_false ho ha)]
    exact ⟨setOctet_octet_self hwf i _, fun c j h => setOctet_octet_other hwf _ h, rfl⟩
  · have hro : b.readOnly = true := by rcases hro with rfl | rfl <;> rfl
    rw [busWrite_octet C s b hi, writeOctet, if_pos (.inr hro)]

/-! ## STATUS -/

/-- Settles O18: a field of STATUS is what stands at its place of the word. -/
theorem statusFields : Obligations.StatusFields := by
  intro s
  refine ⟨?_, ?_, ?_, ?_, ?_, ?_, ?_, statusWord_getLsbD_irq s, ?_⟩
  · rw [statusWord_extractLsb'_phase]; cases s.phase <;> rfl
  · rw [statusWord, BitVec.extractLsb'_append_eq_of_le (by decide)]
    exact BitVec.extractLsb'_append_eq_right
  · rw [statusWord_extractLsb'_err]; cases s.err <;> rfl
  · simp only [statusWord, BitVec.getLsbD_append]; simp
  · simp only [statusWord, BitVec.getLsbD_append]; simp
  · simp only [statusWord, BitVec.getLsbD_append]; simp
  · rw [statusWord]
    iterate 6 rw [BitVec.extractLsb'_append_eq_of_le (by decide)]
    exact BitVec.extractLsb'_append_eq_right
  · rw [statusWord]
    iterate 8 rw [BitVec.extractLsb'_append_eq_of_le (by decide)]
    exact BitVec.extractLsb'_eq_self

/-! ## What a host write can do -/

/-- R32: a register's write goes to its own offset. -/
theorem eq_regOffset_of_target {C : Config} {a n : Nat} {r : RegId} (h : target C a n = .reg r) :
    a = regOffset r ∧ n = 4 := by
  unfold target at h
  split at h
  · next hword =>
    split at h
    · next r' hr =>
      cases h
      exact ⟨eq_regOffset_of_regAt hr, hword.1⟩
    · cases h
  · repeat' split at h
    all_goals cases h

/-- R61: an octet of a buffer is inside it. -/
theorem lt_maxBuf_of_target {C : Config} {a n i : Nat} {b : BufId} (h : target C a n = .octet b i) : i < C.maxBuf := by
  unfold target at h
  repeat' split at h
  all_goals cases h
  assumption

/-- Outside BUSY a host write sets a register of the map, stores an octet of a writable buffer, or does nothing. -/
theorem busWrite_cases (C : Config) {s : State} (hb : s.phase ≠ .busy) (a n v : Nat) :
    (∃ r w, a = regOffset r ∧ n = 4 ∧ busWrite C s a n v = regWrite s r w) ∨
      (∃ b i w, b.readOnly = false ∧ i < C.maxBuf ∧ busWrite C s a n v = s.setOctet b i w) ∨ busWrite C s a n v = s := by
  cases ht : target C a n with
  | reg r =>
    obtain ⟨ha, hn⟩ := eq_regOffset_of_target ht
    refine .inl ⟨r, BitVec.ofNat 32 v, ha, hn, ?_⟩
    rw [busWrite, ht]
    exact if_neg hb
  | octet b i =>
    have hw : busWrite C s a n v = writeOctet s b i (BitVec.ofNat 8 v) := by rw [busWrite, ht]
    cases hro : b.readOnly with
    | false => exact .inr (.inl ⟨b, i, _, hro, lt_maxBuf_of_target ht, hw.trans (writeOctet_of_writable hb hro _ _)⟩)
    | true => exact .inr (.inr (hw.trans (if_pos (.inr hro))))
  | reserved => exact .inr (.inr (by rw [busWrite, ht]))
  | nothing => exact .inr (.inr (by rw [busWrite, ht]))

/-- R70: what a state shows of the last command: the phase is not BUSY, the results, the slots and the findings stand. -/
structure KeepsResults (s t : State) : Prop where
  phase : t.phase ≠ .busy
  outLen : t.len .out = s.len .out
  auxLen : t.len .aux = s.len .aux
  pub : t.pub = s.pub
  priv : t.priv = s.priv
  crt : t.crt = s.crt
  findings : t.findings = s.findings
  cmd : t.cmd = s.cmd
  octets : ∀ i, t.octet .out i = s.octet .out i ∧ t.octet .aux i = s.octet .aux i

theorem KeepsResults.refl {s : State} (hb : s.phase ≠ .busy) : KeepsResults s s :=
  ⟨hb, rfl, rfl, rfl, rfl, rfl, rfl, rfl, fun _ => ⟨rfl, rfl⟩⟩

/-- What is still to come and the bus's last answer are no results. -/
theorem KeepsResults.with_bus {s t : State} (h : KeepsResults s t) (r : List HostEvent) (x : Option BusResponse) :
    KeepsResults s { t with inputs := r, resp := x } :=
  ⟨h.phase, h.outLen, h.auxLen, h.pub, h.priv, h.crt, h.findings, h.cmd, h.octets⟩

/-- R22 to R31: no register write but one of CMD touches the results, and none but one of ACK then touches ERR. -/
theorem regWrite_keepsResults {s : State} (hb : s.phase ≠ .busy) {r : RegId} (hr : r ≠ .cmd) (v : Word) :
    KeepsResults s (regWrite s r v) ∧ (r ≠ .ack → (regWrite s r v).err = s.err) := by
  have hs := KeepsResults.refl hb
  cases r with
  | cmd => contradiction
  | ack =>
    rw [regWrite]
    split
    · exact ⟨⟨nofun, rfl, rfl, rfl, rfl, rfl, rfl, rfl,
        fun _ => ⟨rfl, rfl⟩⟩, fun h => absurd rfl h⟩
    · exact ⟨hs, fun _ => rfl⟩
  | len b =>
    cases hro : b.readOnly with
    | true => rw [regWrite, if_pos hro]; exact ⟨hs, fun _ => rfl⟩
    | false =>
      have ho : b ≠ .out := by rintro rfl; cases hro
      have ha : b ≠ .aux := by rintro rfl; cases hro
      rw [regWrite_len hro]
      exact ⟨⟨hb, setLen_len_other s v ho.symm, setLen_len_other s v ha.symm, rfl, rfl, rfl, rfl, rfl,
        fun _ => ⟨rfl, rfl⟩⟩,
        fun _ => rfl⟩
  | ien | embits | m1bits => exact ⟨⟨hb, rfl, rfl, rfl, rfl, rfl, rfl, rfl,
        fun _ => ⟨rfl, rfl⟩⟩, fun _ => rfl⟩
  | status | findings | kPub | kPriv | kCrt => exact ⟨hs, fun _ => rfl⟩

/-- R36: an octet write of a writable buffer touches neither OUT nor AUX. -/
theorem setOctet_keepsResults {s : State} (hb : s.phase ≠ .busy) {b : BufId} (hro : b.readOnly = false) (i : Nat) (v : Byte) :
    KeepsResults s (s.setOctet b i v) := by
  have hother {c : BufId} (hc : c.readOnly = true) (j : Nat) : (s.setOctet b i v).octet c j = s.octet c j := by
    have hcb : c ≠ b := by rintro rfl; rw [hro] at hc; cases hc
    exact congrArg (Memory.read · j) (setBuf_buf_other s _ hcb)
  exact ⟨hb, rfl, rfl, rfl, rfl, rfl, rfl, rfl, fun j => ⟨hother rfl j, hother rfl j⟩⟩

/-- R70: no host write but one of CMD touches the results, and none but one of ACK then touches ERR. -/
theorem busWrite_keepsResults (C : Config) {s : State} (hb : s.phase ≠ .busy) {a n : Nat} (hcmd : ¬ (a = 0x00 ∧ n = 4))
    (v : Nat) : KeepsResults s (busWrite C s a n v) ∧ ((busWrite C s a n v).err = s.err ∨ (a = 0x08 ∧ n = 4)) := by
  rcases busWrite_cases C hb a n v with ⟨r, w, rfl, rfl, hw⟩ | ⟨b, i, w, hro, -, hw⟩ | hw
  · have hr : r ≠ .cmd := by rintro rfl; exact hcmd ⟨rfl, rfl⟩
    obtain ⟨hkeep, herr⟩ := regWrite_keepsResults hb hr w
    rw [hw]
    refine ⟨hkeep, ?_⟩
    by_cases hack : r = .ack
    · subst hack; exact .inr ⟨rfl, rfl⟩
    · exact .inl (herr hack)
  · rw [hw]; exact ⟨setOctet_keepsResults hb hro i w, .inl rfl⟩
  · rw [hw]; exact ⟨KeepsResults.refl hb, .inl rfl⟩

/-- Settles O25: the step is the engine's idle turn, a read, or a write that `busWrite_keepsResults` speaks of. -/
theorem resultsStayUntilNextAccept : Obligations.ResultsStayUntilNextAccept := by
  intro C s t hb hstep hreset hcmd
  have hs := KeepsResults.refl hb
  suffices hkeep : KeepsResults s t ∧ (t.err = s.err ∨ ∃ v rest, s.inputs = .write 0x08 4 v :: rest) by
    obtain ⟨⟨h1, h2, h3, h4, h5, h6, h7, h8, h9⟩, herr⟩ := hkeep
    exact ⟨h1, h2, h3, h4, h5, h6, h7, h8, h9, herr⟩
  rcases stepAt_cases hstep with ⟨r, -, ⟨-, rfl⟩ | ⟨i, hbusy, -⟩ | ⟨x, hbusy, -⟩⟩ | ⟨r, hi, -⟩ | ⟨r, a, n, hi, rfl⟩ |
    ⟨r, a, n, v, hi, rfl⟩
  · exact ⟨hs.with_bus r s.resp, .inl rfl⟩
  · exact absurd hbusy hb
  · exact absurd hbusy hb
  · exact absurd hi (hreset r)
  · exact ⟨hs.with_bus r _, .inl rfl⟩
  · have hnot : ¬ (a = 0x00 ∧ n = 4) := by
      rintro ⟨rfl, rfl⟩
      exact hcmd v r hi
    obtain ⟨hkeep, herr⟩ := busWrite_keepsResults C hb hnot v
    refine ⟨hkeep.with_bus r _, herr.imp_right ?_⟩
    rintro ⟨rfl, rfl⟩
    exact ⟨v, r, hi⟩

/-! ## The load scripts -/

/-- The memory after a string is written into it octet by octet from an offset on. -/
def Memory.writeBytes : Memory → Nat → Bytes → Memory
  | m, _, [] => m
  | m, i, x :: X => Memory.writeBytes (Memory.write m i x) (i + 1) X

/-- The octets from the offset on are the string's, the others are as before. -/
theorem Memory.read_writeBytes {m : Memory} (h : m.wf) (i : Nat) (X : Bytes) (a : Nat) :
    Memory.read (Memory.writeBytes m i X) a = if i ≤ a ∧ a < i + X.length then X.getD (a - i) 0 else Memory.read m a := by
  induction X generalizing m i with
  | nil => rw [if_neg (by simp)]; rfl
  | cons x X ih =>
    rw [Memory.writeBytes, ih (Memory.write_wf i x h), Memory.read_write i x a h, List.length_cons]
    by_cases ha : a = i
    · subst ha; simp
    · have hsub : i < a → a - i = a - (i + 1) + 1 := by omega
      grind [List.getD_cons_succ]

/-- The string, then what was there. -/
theorem Memory.bytes_writeBytes {m : Memory} (h : m.wf) (X : Bytes) : Memory.bytes (Memory.writeBytes m 0 X) X.length = X := by
  refine List.ext_getElem (by simp [Memory.bytes]) fun i h1 h2 => ?_
  simp [Memory.bytes, Memory.read_writeBytes h, h2]

theorem PerBuf.set_set {α : Type} (P : PerBuf α) (b : BufId) (x y : α) : (P.set b x).set b y = P.set b y := by
  cases b <;> rfl

/-- An octet write on the bus of this machine, as a step. -/
theorem step_octet_write {s : State} {b : BufId} (hb : s.phase ≠ .busy) (hro : b.readOnly = false) {i : Nat}
    (hi : i < cfg.maxBuf) (x : Byte) {rest : List HostEvent} (h : s.inputs = .write (octetAddr cfg b i) 1 x.toNat :: rest) :
    step s = .next { s.setOctet b i x with inputs := rest, resp := some .written } := by
  rw [step, stepWith_write h, octetAddr, busWrite_octet cfg s b hi, busWriteResponse_octet cfg b hi, BitVec.ofNat_toNat,
    writeOctet_of_writable hb hro]
  rfl

/-- A write of a length register, as a step. -/
theorem step_len_write {s : State} {b : BufId} (hb : s.phase ≠ .busy) (hro : b.readOnly = false) (w : Word)
    {rest : List HostEvent} (h : s.inputs = wrEvent (.len b) w :: rest) :
    step s = .next { s.setLen b w with inputs := rest, resp := some .written } := by
  rw [step, stepWith_write h, busWrite_regOffset cfg hb, regWrite_len hro, busWriteResponse_regOffset]

/-- R100: the octet writes of `ld`, one step each. -/
theorem run_octet_writes {s : State} {b : BufId} (hb : s.phase ≠ .busy) (hro : b.readOnly = false) (X : Bytes) {i : Nat}
    (hfit : i + X.length ≤ cfg.maxBuf) (rest : List HostEvent)
    (hi : s.inputs = X.mapIdx (fun j x => .write (octetAddr cfg b (i + j)) 1 x.toNat) ++ rest) (k : Nat) :
    ∃ answer, Host.Core.run Sys2Proof.core (X.length + k) s = Host.Core.run Sys2Proof.core k
      { s with bufs := s.bufs.set b (Memory.writeBytes (s.buf b) i X), inputs := rest, resp := answer } := by
  induction X generalizing s i with
  | nil =>
    have hset : s.bufs.set b (s.buf b) = s.bufs := PerBuf.ext_get fun c => by
      by_cases hc : c = b
      · subst hc; simp [State.buf_def]
      · simp [hc]
    refine ⟨s.resp, ?_⟩
    rw [Memory.writeBytes, hset, List.length_nil, Nat.zero_add]
    congr 1
    rw [← show s.inputs = rest from hi]
  | cons x X ih =>
    rw [List.length_cons] at hfit
    have htail : X.mapIdx (fun j x => HostEvent.write (octetAddr cfg b (i + (j + 1))) 1 x.toNat) =
        X.mapIdx (fun j x => .write (octetAddr cfg b (i + 1 + j)) 1 x.toNat) := by
      simp only [Nat.add_assoc, Nat.add_comm 1]
    rw [List.mapIdx_cons, List.cons_append, htail] at hi
    have hstep := step_octet_write hb hro (by omega) x hi
    obtain ⟨answer, hrun⟩ := ih (s := { s.setOctet b i x with
        inputs := X.mapIdx (fun j x => .write (octetAddr cfg b (i + 1 + j)) 1 x.toNat) ++ rest
        resp := some .written }) hb (by omega) rfl
    refine ⟨answer, ?_⟩
    rw [List.length_cons, Nat.add_right_comm]
    refine (core_run_succ _ s _ hstep).trans (hrun.trans ?_)
    have hbufs : (s.setOctet b i x).bufs.set b (Memory.writeBytes ((s.setOctet b i x).buf b) (i + 1) X) =
        s.bufs.set b (Memory.writeBytes (s.buf b) i (x :: X)) := by
      rw [State.setOctet, setBuf_buf_self, setBuf_bufs, PerBuf.set_set, Memory.writeBytes]
    rw [← hbufs]
    rfl

theorem ldEvents_eq (C : Config) (b : BufId) (X : Bytes) :
    ldEvents C b X = X.mapIdx (fun j x => .write (octetAddr C b (0 + j)) 1 x.toNat) ++
      [wrEvent (.len b) (BitVec.ofNat 32 X.length)] := by
  rw [ldEvents]
  congr 1
  exact List.ext_getElem (by simp) fun i h1 h2 => by simp at h2; simp [h2]

/-- R100: the bus operations of `ld` put the string in the buffer and its length in the length register. -/
theorem run_ldEvents {s : State} {b : BufId} (hb : s.phase ≠ .busy) (hro : b.readOnly = false) {X : Bytes}
    (hfit : X.length ≤ cfg.maxBuf) {rest : List HostEvent} (hi : s.inputs = ldEvents cfg b X ++ rest) :
    Host.Core.run Sys2Proof.core (X.length + 1) s = .next
      { s with
        bufs := s.bufs.set b (Memory.writeBytes (s.buf b) 0 X), lens := s.lens.set b (BitVec.ofNat 32 X.length)
        inputs := rest, resp := some .written } := by
  rw [ldEvents_eq, List.append_assoc] at hi
  obtain ⟨answer, hrun⟩ := run_octet_writes hb hro X (by omega) _ hi 1
  rw [hrun]
  refine core_run_succ 0 _ _ (step_len_write ?_ hro _ rfl)
  exact hb

/-- R100: the shortest form of an integer holds it. -/
theorem os2ip_shortest (x : Nat) : os2ip (shortest x) = x :=
  os2ip_i2os_of_lt ((lt_pow_ceil8_bitlen x).trans_le (Nat.pow_le_pow_right (by decide) (le_max_right _ _)))

/-- Settles O60: `ldint` loads the shortest form of the integer, and what `ld` leaves is read octet by octet. -/
theorem loadScriptsPutTheOperand : Obligations.LoadScriptsPutTheOperand := by
  intro s b X rest ho ha hfit hb hwf hinputs
  have hi : s.inputs = ldEvents cfg b X ++ rest := by
    rcases hinputs with h | ⟨x, rfl, h⟩ <;> exact h
  have hlen : (BitVec.ofNat 32 X.length).toNat = X.length := by
    rw [BitVec.toNat_ofNat, Nat.mod_eq_of_lt (hfit.trans_lt (by decide))]
  set m := Memory.writeBytes (s.buf b) 0 X with hm
  set t : State := { s with bufs := s.bufs.set b m, lens := s.lens.set b (BitVec.ofNat 32 X.length), inputs := rest,
                            resp := some .written } with ht
  have hbuf : t.buf b = m := PerBuf.get_set_self _ b m
  have hoperand : t.operand b = X := by
    rw [State.operand, hbuf, show t.len b = _ from PerBuf.get_set_self _ b _, hlen, hm, Memory.bytes_writeBytes hwf]
  refine ⟨t, run_ldEvents hb (readOnly_eq_false ho ha) hfit hi, hoperand, rfl, fun x hx => ?_, fun c hc => ⟨?_, fun j => ?_⟩,
    fun j hj => ?_, rfl⟩
  · rw [State.intOperand, hoperand, hx, os2ip_shortest]
  · exact PerBuf.get_set_other _ _ hc
  · exact congrArg (Memory.read · j) (PerBuf.get_set_other s.bufs m hc)
  · rw [State.octet_def, hbuf, hm, Memory.read_writeBytes hwf, if_neg (by omega), State.octet_def]

end Sys2Proof.Machine

/-! Facts about what the rules of the schemes compute: the integer of an encoded message is below the modulus (R170, R187, R202,
R225, R244), and what the ISO/IEC 9796-2 recoveries accept (R226, R229, R245). -/

namespace Sys2Proof.Machine

/-! ## Encoded messages are below the modulus -/

/-- R202, R244: clearing the `z` top bits of a string bounds its value. -/
theorem os2ip_clearTop_lt {z : Nat} (hz : z ≤ 8) {X : Bytes} (hX : X ≠ []) : os2ip (clearTop z X) < 2 ^ (8 * X.length - z) := by
  obtain ⟨b, X, rfl⟩ := List.exists_cons_of_ne_nil hX
  have hb : (b &&& (0xFF#8 >>> z)).toNat < 2 ^ (8 - z) := by
    rw [BitVec.toNat_and]
    refine lt_of_le_of_lt Nat.and_le_right ?_
    interval_cases z <;> decide
  have hlt := os2ip_lt X
  rw [clearTop, os2ip_cons, List.length_cons]
  calc (b &&& (0xFF#8 >>> z)).toNat * 256 ^ X.length + os2ip X
      < ((b &&& (0xFF#8 >>> z)).toNat + 1) * 256 ^ X.length := by rw [Nat.succ_mul]; omega
    _ ≤ 2 ^ (8 - z) * 256 ^ X.length := Nat.mul_le_mul_right _ hb
    _ = 2 ^ (8 * (X.length + 1) - z) := by
      rw [show (256 : Nat) = 2 ^ 8 from rfl, ← pow_mul, ← pow_add]
      congr 1
      omega

/-- R202, R244: an encoded message of `emLen` octets whose masked part has its top bits cleared is below `2^emBits`. -/
theorem os2ip_clearTop_append_lt {emBits : Nat} {X Y : Bytes} (hX : X ≠ []) (hlen : X.length + Y.length = ceil8 emBits) :
    os2ip (clearTop (topZeros emBits) X ++ Y) < 2 ^ emBits := by
  have hz := topZeros_le emBits
  have hpos := List.length_pos_iff.mpr hX
  have hlt := os2ip_clearTop_lt (z := topZeros emBits) (by omega) hX
  have hY := os2ip_lt Y
  rw [os2ip_append]
  calc os2ip (clearTop (topZeros emBits) X) * 256 ^ Y.length + os2ip Y
      < (os2ip (clearTop (topZeros emBits) X) + 1) * 256 ^ Y.length := by rw [Nat.succ_mul]; omega
    _ ≤ 2 ^ (8 * X.length - topZeros emBits) * 256 ^ Y.length := Nat.mul_le_mul_right _ hlt
    _ = 2 ^ emBits := by
      rw [show (256 : Nat) = 2 ^ 8 from rfl, ← pow_mul, ← pow_add]
      congr 1
      unfold topZeros ceil8 at *
      omega

/-- R202: the value of a PSS encoding. -/
theorem os2ip_pssEncode_lt {C : Config} {sel : Sel} (h : (C.hashes sel).isSome = true) {M salt : Bytes} {emBits : Nat}
    (he : hLen C sel + salt.length + 2 ≤ ceil8 emBits) : os2ip (pssEncode C sel M emBits salt) < 2 ^ emBits := by
  rw [pssEncode, List.append_assoc]
  refine os2ip_clearTop_append_lt (List.ne_nil_of_length_pos ?_) ?_
  all_goals
    simp only [List.length_append, length_xorBytes, length_mgf1 h, length_hash h, length_copies, List.length_cons,
      List.length_nil]
    omega

/-- R244: the value of a ds2 or ds3 encoding. -/
theorem os2ip_isoPssEm_lt {C : Config} {sel : Sel} (h : (C.hashes sel).isSome = true) {M1 M2 salt T : Bytes} {k : Nat}
    (he : M1.length + salt.length + 1 + hLen C sel + T.length ≤ ceil8 (k - 1)) :
    os2ip (isoPssEm C sel M1 M2 salt k T) < 2 ^ (k - 1) := by
  rw [isoPssEm, List.append_assoc]
  refine os2ip_clearTop_append_lt (List.ne_nil_of_length_pos ?_) ?_
  all_goals
    simp only [isoHash, List.length_append, length_xorBytes, length_mgf1 h, length_hash h, length_copies, List.length_cons,
      List.length_nil]
    omega

/-- A value of `k − 1` bits is below a modulus of `k` bits. -/
theorem lt_of_lt_two_pow {n x : Nat} (hn : 1 ≤ n) (hx : x < 2 ^ (bitlen n - 1)) : x < n :=
  hx.trans_le (bitlen_spec hn).2.1

/-- R155: the padded message of `klen` octets is below the modulus. -/
theorem os2ip_emeV15Encode_lt {M PS : Bytes} {n : Nat} (hn : 1 ≤ n) (hlen : PS.length + M.length + 3 = ceil8 (bitlen n)) :
    os2ip (emeV15Encode M PS) < n := by
  refine os2ip_zero_cons_lt (X := 0x02 :: PS ++ [0x00] ++ M) hn ?_
  simp only [List.length_append, List.length_cons, List.length_nil]
  omega

/-- R170, R174: the OAEP encoding of `klen` octets is below the modulus. -/
theorem os2ip_oaepEncode_lt {C : Config} {sel : Sel} (h : (C.hashes sel).isSome = true) {M L seed : Bytes} {n : Nat}
    (hn : 1 ≤ n) (hk : 2 * hLen C sel + 2 ≤ ceil8 (bitlen n)) (hs : seed.length = hLen C sel) :
    os2ip (oaepEncode C sel M L (ceil8 (bitlen n)) seed) < n := by
  have hlen := length_oaepEncode h (M := M) (L := L) hk hs
  rw [oaepEncode, List.singleton_append, List.cons_append] at hlen ⊢
  exact os2ip_zero_cons_lt hn hlen

/-! ## Opening an ISO/IEC 9796-2 signature -/

/-- R226: the representative that a signature opens to. -/
theorem isoOpen_eq_some_iff (s : State) (sig J : Nat) : isoOpen s sig = some J ↔ Opens s sig J := by
  rw [isoOpen, Opens, pubExp_eq_pubPower]
  split_ifs with h1 h2
  · grind
  · grind
  · grind

theorem trailerIs_length {C : Config} {h : Sel} {it : Bool} {T : Bytes} (hT : TrailerIs C h it T) :
    T.length = if it then 1 else 2 := by
  rcases hT with ⟨rfl, rfl⟩ | ⟨rfl, i, -, rfl⟩ <;> rfl

/-- R227 step 6: a parsed DSI ends in one of the two trailers. -/
theorem ds1Parse_trailer {C : Config} {h : Sel} {J k t : Nat} {M1 : Bytes} (hp : ds1Parse C h J k = some (M1, t)) :
    t = 1 ∨ t = 2 := by
  unfold ds1Parse at hp
  split at hp
  · cases hp
  · simp only at hp
    split at hp
    · cases hp
    split at hp
    · cases hp
    split at hp
    · cases hp
    next t' ht =>
    split at hp
    · cases hp
    cases hp
    obtain ⟨it, T, hT, hlen, -, -⟩ := trailerOctets_eq_some ht
    rw [← hlen, trailerIs_length hT]
    cases it <;> simp

/-- R221: the capacity is not negative exactly when hash, trailer and header fit. -/
theorem ds1Cap_neg_iff (C : Config) (h : Sel) (k t : Nat) : ds1Cap C h k t < 0 ↔ k < 8 * hLen C h + 8 * t + 4 := by
  unfold ds1Cap
  omega

/-- R226, R227, R229: DS1_VERIFY recovers `M1` exactly when the signature opens to the DSI that a signer would build for
`M1 || M2` with that split. -/
theorem ds1Recover_iff {C : Config} {h : Sel} (hs : (C.hashes h).isSome = true) (s : State) (sig : Nat) (M1 M2 : Bytes) :
    ds1Recover C h s sig M2 = some M1 ↔ ∃ J it T, Opens s sig J ∧ TrailerIs C h it T ∧
      8 * hLen C h + 8 * T.length + 4 ≤ s.pub.k ∧ ds1Dsi C h (M1 ++ M2) s.pub.k T = (J, M1, M2) := by
  constructor
  · intro hr
    unfold ds1Recover at hr
    split at hr
    · cases hr
    next J hJ =>
    split at hr
    · cases hr
    next M1' t hparse =>
    split at hr
    · cases hr
    next T hT =>
    split at hr
    · cases hr
    next hc =>
    cases hr
    rw [not_or, ds1Cap_neg_iff, not_not] at hc
    obtain ⟨hcap, hdsi⟩ := hc
    have hTis := (trailer_eq_some_iff C h _ T).mp hT
    have hlen : T.length = t := by
      rw [trailerIs_length hTis]
      rcases ds1Parse_trailer hparse with rfl | rfl <;> rfl
    have hk : 8 * hLen C h + 8 * T.length + 4 ≤ s.pub.k := by omega
    have hback := (ds1Parse_ds1Dsi hs (M := M1 ++ M2) hTis hk).1
    rw [hdsi, hparse] at hback
    obtain ⟨hM1, -⟩ := Prod.mk.inj (Option.some.inj hback)
    have hM2 := ds1Dsi_append C h (M1 ++ M2) s.pub.k T
    rw [← hM1] at hM2
    refine ⟨J, _, T, (isoOpen_eq_some_iff s sig J).mp hJ, hTis, hk, ?_⟩
    exact Prod.ext hdsi (Prod.ext hM1.symm (List.append_cancel_left hM2))
  · rintro ⟨J, it, T, hopen, hT, hk, hdsi⟩
    have hparse := (ds1Parse_ds1Dsi hs (M := M1 ++ M2) hT hk).1
    rw [hdsi] at hparse
    have hit : trailer C h (T.length == 1) = some T := by
      rw [trailer_eq_some_iff, trailerIs_length hT]
      cases it <;> exact hT
    have hcap : ¬ ds1Cap C h s.pub.k T.length < 0 := by rw [ds1Cap_neg_iff]; omega
    simp [ds1Recover, (isoOpen_eq_some_iff s sig J).mpr hopen, hparse, hit, hcap, hdsi]

/-- R247: DS2_VERIFY and DS3_VERIFY recover `M1` exactly when the signature opens to an encoding of `M1` and `M2`. -/
theorem isoRecover_iff {C : Config} {h : Sel} (hs : (C.hashes h).isSome = true) (s : State) (sig : Nat) (M1 M2 : Bytes)
    (sLen : Nat) :
    isoRecover C h s sig M2 sLen = some M1 ↔ ∃ J it T salt, Opens s sig J ∧ TrailerIs C h it T ∧ salt.length = sLen ∧
      M1.length + sLen + 1 + hLen C h + T.length ≤ ceil8 (s.pub.k - 1) ∧
      J = os2ip (isoPssEm C h M1 M2 salt s.pub.k T) := by
  have hopen : isoRecover C h s sig M2 sLen = some M1 ↔
      ∃ J, isoOpen s sig = some J ∧ isoPssOpen C h J M2 sLen s.pub.k = some M1 := by
    unfold isoRecover
    cases isoOpen s sig <;> simp
  simp only [hopen, isoOpen_eq_some_iff, isoPssOpen_iff hs, ← exists_and_left]

end Sys2Proof.Machine

/-! PROOFS of the statements about the completion of every command: the frame (R35, R276, R296), the error codes (R308), the
random port (R96), the operands (R42, R96), and the invariant of the block. -/

namespace Sys2Proof.Machine

/-! ## Answers of a rule -/

/-- A rule's answer meets a condition on its error and on its two strings, each with the octets drawn. -/
def Result.Meets (onError : Err → Nat → Prop) (onDone : Bytes → Bytes → Nat → Prop) : Result → Prop
  | .error e used => onError e used
  | .done out aux used => onDone out aux used

section
variable {onError : Err → Nat → Prop} {onDone : Bytes → Bytes → Nat → Prop}

@[simp] theorem meets_error (e : Err) (u : Nat) : (Result.error e u).Meets onError onDone ↔ onError e u := Iff.rfl

@[simp] theorem meets_done (out aux : Bytes) (u : Nat) : (Result.done out aux u).Meets onError onDone ↔ onDone out aux u :=
  Iff.rfl

theorem meets_ite {c : Prop} [Decidable c] {a b : Result} (ha : c → a.Meets onError onDone) (hb : ¬ c → b.Meets onError onDone) :
    (if c then a else b).Meets onError onDone := by
  split_ifs with h
  · exact ha h
  · exact hb h

theorem meets_inDomain {r n used : Nat} {rest : Result} (hle : n ≤ r → onError .domain used)
    (hlt : r < n → rest.Meets onError onDone) : (inDomain r n used rest).Meets onError onDone :=
  meets_ite hle fun h => hlt (not_le.mp h)

theorem meets_decoded {o : Option Bytes} (hnone : onError .fail 0) (hsome : ∀ M, o = some M → onDone M [] 0) :
    (decoded o).Meets onError onDone := by
  cases o with
  | none => exact hnone
  | some M => exact hsome M rfl

theorem meets_verdict (b : Bool) (hfail : onError .fail 0) (hok : onDone [] [] 0) : (verdict b).Meets onError onDone := by
  cases b <;> assumption

end

/-- R173: OAEP_DECODE answers with the decoder's string. -/
theorem runOaepDecode_eq (C : Config) (h : Sel) (s : State) :
    runOaepDecode C h s = complete (guarded C (useOf (.oaepDecode h)) s
      (if (s.operand .inp).length < 2 * hLen C h + 2 then .error .capacity 0
       else decoded (oaepDecode C h (s.operand .inp) (s.operand .label)))) s := by
  rw [runOaepDecode]
  cases oaepDecode C h (s.operand .inp) (s.operand .label) <;> rfl

/-- R175: ES_OAEP_DECRYPT answers with the decoder's string. -/
theorem runEsOaepDecrypt_eq (C : Config) (h : Sel) (crt : Bool) (s : State) :
    runEsOaepDecrypt C h crt s = complete (guarded C (useOf (.esOaepDecrypt h crt)) s
      (if (s.privMod crt).klen < 2 * hLen C h + 2 then .error .capacity 0
       else inDomain (s.intOperand .inp) (s.privMod crt).n 0
        (decoded (oaepDecode C h (i2os (s.privExp crt (s.intOperand .inp)) (s.privMod crt).klen) (s.operand .label))))) s := by
  simp only [runEsOaepDecrypt]
  cases oaepDecode C h (i2os (s.privExp crt (s.intOperand .inp)) (s.privMod crt).klen) (s.operand .label) <;> rfl

/-! ## The random port and AUX -/

/-- A rule's answer that draws nothing unless `draws`, and leaves nothing in AUX unless `tail`. -/
abbrev Result.Plain (draws tail : Bool) : Result → Prop :=
  Result.Meets (fun _ used => draws = false → used = 0)
    (fun _ aux used => (draws = false → used = 0) ∧ (tail = false → aux = []))

/-- R96: only a command marked in the column rng draws, and only an ISO sign command leaves anything in AUX. -/
theorem exists_plain_rule (C : Config) {i : Instr} (s : State) (hk : isKeyCommand i = false) :
    ∃ own, runAt C i s = complete (guarded C (useOf i) s own) s ∧ own.Plain (mayDraw i) (isIsoSign i) := by
  have hdone {d a : Bool} (out : Bytes) : (Result.done out [] 0).Plain d a := ⟨fun _ => rfl, fun _ => rfl⟩
  have herror {d a : Bool} (e : Err) : (Result.error e 0).Plain d a := fun _ => rfl
  have hdomain {d a : Bool} {r n : Nat} {rest : Result} (h : rest.Plain d a) : (inDomain r n 0 rest).Plain d a :=
    meets_inDomain (fun _ _ => rfl) fun _ => h
  have hdecoded {d a : Bool} (o : Option Bytes) : (decoded o).Plain d a := meets_decoded (fun _ => rfl) fun M _ => hdone M
  have hverdict {d a : Bool} (b : Bool) : (verdict b).Plain d a := meets_verdict b (fun _ => rfl) (hdone [])
  have hite {d a : Bool} {c : Prop} [Decidable c] {r r' : Result} (h : r.Plain d a) (h' : r'.Plain d a) :
      (if c then r else r').Plain d a := meets_ite (fun _ => h) fun _ => h'
  have hverify {h : Sel} {sLen : Nat} {d a : Bool} : (isoVerify C h s sLen).Plain d a :=
    hite (herror _) (hite (herror _) (hdomain (hdecoded _)))
  have hsign {h : Sel} {um crt : Bool} {M1 M2 salt T : Bytes} {u : Nat} {d : Bool} (hu : d = false → u = 0) :
      (isoSign C h um crt s M1 M2 salt T u).Plain d true :=
    meets_inDomain (fun _ => hu) fun _ => ⟨hu, nofun⟩
  have hsalt {h : Sel} {ss sld : Bool} (hss : (!ss) = false) : saltDrawn C h ss sld s = 0 := by
    rw [saltDrawn, if_pos (by simpa using hss)]
  cases i
  case nop => exact ⟨.done [] [] 0, rfl, hdone _⟩
  case rsaep | rsadp | rsasp1 | rsavp1 | minsel => exact ⟨_, rfl, hdomain (hdone _)⟩
  case mgf1 => exact ⟨_, rfl, hite (herror _) (hdone _)⟩
  case emeV15Decode => exact ⟨_, rfl, hdecoded _⟩
  case oaepDecode => exact ⟨_, runOaepDecode_eq .., hite (herror _) (hdecoded _)⟩
  case emsaV15Encode => exact ⟨_, rfl, hite (herror _) (hite (herror _) (hdone _))⟩
  case pssCheck => exact ⟨_, rfl, hite (herror _) (hverdict _)⟩
  case esV15Decrypt => exact ⟨_, rfl, hdomain (hdecoded _)⟩
  case esOaepDecrypt => exact ⟨_, runEsOaepDecrypt_eq .., hite (herror _) (hdomain (hdecoded _))⟩
  case ssaV15Sign => exact ⟨_, rfl, hite (herror _) (hdomain (hdone _))⟩
  case ssaV15Verify => exact ⟨_, rfl, hite (herror _) (hdomain (hite (herror _) (hdone _)))⟩
  case ssaPssVerify => exact ⟨_, rfl, hdomain (hite (herror _) (hverdict _))⟩
  case ds1Verify => exact ⟨_, rfl, hite (herror _) (hdomain (hdecoded _))⟩
  case ds2Verify | ds3Verify => exact ⟨_, rfl, hverify⟩
  case pssEncode => exact ⟨_, rfl, hite (herror _) ⟨hsalt, fun _ => rfl⟩⟩
  case ssaPssSign => exact ⟨_, rfl, hite (herror _) (meets_inDomain (fun _ => hsalt) fun _ => ⟨hsalt, fun _ => rfl⟩)⟩
  case emeV15Encode => exact ⟨_, rfl, hite (herror _) (hite (herror _) ⟨nofun, fun _ => rfl⟩)⟩
  case oaepEncode => exact ⟨_, rfl, hite (herror _) (hite (herror _) (hite (herror _) ⟨nofun, fun _ => rfl⟩))⟩
  case esV15Encrypt => exact ⟨_, rfl, hite (herror _) (meets_inDomain (fun _ => nofun) fun _ => ⟨nofun, fun _ => rfl⟩)⟩
  case esOaepEncrypt =>
    exact ⟨_, rfl, hite (herror _) (hite (herror _) (meets_inDomain (fun _ => nofun) fun _ => ⟨nofun, fun _ => rfl⟩))⟩
  case ds1Sign =>
    refine ⟨_, rfl, ?_⟩
    split
    · exact herror _
    · exact hite (herror _) (hdomain ⟨fun _ => rfl, nofun⟩)
  case ds2Sign =>
    refine ⟨_, rfl, ?_⟩
    split
    · exact herror _
    · exact hite (herror _) (hite (herror _) (hsign hsalt))
  case ds3Sign =>
    refine ⟨_, rfl, ?_⟩
    split
    · exact herror _
    · exact hite (herror _) (hite (herror _) (hite (herror _) (hite (herror _) (hite (herror _) (hsign fun _ => rfl)))))
  case keyLoadPub | keyLoadPriv | keyLoadCrt | keyClear => cases hk

/-- A completion with an answer of the rule, or with the error of a common check. -/
theorem complete_guarded_plain {C : Config} {u : Use} {s : State} {own : Result} {d a : Bool} (h : own.Plain d a) :
    (guarded C u s own).Plain d a := by
  unfold guarded
  split
  · exact fun _ => rfl
  · exact h

/-- Settles O21: a completion that is no delivery is `raise`, also for the key loads; KEY_CLEAR has no error. -/
theorem errorChangesNothingElse : Obligations.ErrorChangesNothingElse := by
  intro C i s herr
  have hraise (e : Err) (u : Nat) (h : runAt C i s = raise e (s.draws u)) :
      Holds [] [] (runAt C i s) ∧ (runAt C i s).phase = .done ∧ Unchanged s (runAt C i s) :=
    h ▸ ⟨raise_holds e _, rfl, raise_unchanged e u s⟩
  have hload {α : Type} {u : Use} {key : Option α} {install : α → State → State}
      (h : runAt C i s = loadKey C u key install s) :
      Holds [] [] (runAt C i s) ∧ (runAt C i s).phase = .done ∧ Unchanged s (runAt C i s) := by
    rcases loadKey_cases C u key install s with ⟨e, -, hrun⟩ | ⟨K, -, -, hrun⟩
    · exact hraise e 0 (h.trans hrun)
    · rw [h.trans hrun] at herr
      exact absurd rfl herr
  cases hk : isKeyCommand i with
  | false =>
    rcases runAt_cases C i s hk with ⟨e, u, hrun⟩ | ⟨out, aux, u, hrun⟩
    · exact hraise e u hrun
    · rw [hrun] at herr
      exact absurd rfl herr
  | true =>
    rcases eq_of_isKeyCommand hk with rfl | rfl | rfl | rfl
    · exact hload rfl
    · exact hload rfl
    · exact hload rfl
    · exact absurd rfl herr

/-- Settles O22: the completion is `raise` or `deliver`, with nothing for AUX by `exists_plain_rule`. -/
theorem commandFrame : Obligations.CommandFrame := by
  intro i s t hk hexec
  obtain ⟨own, hrun, hown⟩ := exists_plain_rule cfg s hk
  obtain rfl : runAt cfg i s = t := by
    rw [exec_eq_runAt] at hexec
    exact Host.Outcome.next.inj hexec
  have hplain : (guarded cfg (useOf i) s own).Plain (mayDraw i) (isIsoSign i) := complete_guarded_plain hown
  rw [hrun]
  rcases complete_cases (guarded cfg (useOf i) s own) s with ⟨e, u, -, h⟩ | ⟨out, aux, u, hres, h⟩
  · rw [h]
    exact ⟨raise_unchanged e u s, fun _ => ⟨rfl, fun _ => rfl⟩⟩
  · rw [h]
    refine ⟨deliver_unchanged out aux u s, fun hiso => ?_⟩
    rw [hres] at hplain
    obtain ⟨-, htail⟩ := hplain
    obtain rfl : aux = [] := htail hiso
    exact ⟨rfl, fun _ => rfl⟩

/-- Settles O23: a key load is `raise`, or `deliver` of no results after the installation. -/
theorem keyLoadFrame : Obligations.KeyLoadFrame := by
  intro s t
  simp only [exec_eq_runAt, Host.Outcome.next.injEq]
  refine ⟨?_, ?_, ?_⟩
  · rintro rfl
    rcases loadKey_cases cfg (useOf .keyLoadPub) (newPub cfg s) (installPub cfg) s with ⟨e, -, hrun⟩ | ⟨K, -, -, hrun⟩
    · rw [show runAt cfg .keyLoadPub s = raise e s from hrun]
      exact ⟨raise_unchanged e 0 s, rfl⟩
    · rw [show runAt cfg .keyLoadPub s = _ from hrun]
      exact ⟨deliver_unchanged [] [] 0 (installPub cfg K s), rfl⟩
  · rintro rfl
    rcases loadKey_cases cfg (useOf .keyLoadPriv) (newPriv cfg s) (installPriv cfg) s with ⟨e, -, hrun⟩ | ⟨K, -, -, hrun⟩
    · rw [show runAt cfg .keyLoadPriv s = raise e s from hrun]
      exact ⟨raise_unchanged e 0 s, rfl⟩
    · rw [show runAt cfg .keyLoadPriv s = _ from hrun]
      exact ⟨deliver_unchanged [] [] 0 (installPriv cfg K s), rfl⟩
  · rintro rfl
    rcases loadKey_cases cfg (useOf .keyLoadCrt) (newCrt cfg s) (installCrt cfg) s with ⟨e, -, hrun⟩ | ⟨K, -, -, hrun⟩
    · rw [show runAt cfg .keyLoadCrt s = raise e s from hrun]
      exact ⟨raise_unchanged e 0 s, rfl⟩
    · rw [show runAt cfg .keyLoadCrt s = _ from hrun]
      exact ⟨deliver_unchanged [] [] 0 (installCrt cfg K s), rfl⟩

/-- R96: no command but those marked in the column rng moves the random port on. -/
theorem runAt_drawn_of_not_mayDraw (C : Config) {i : Instr} (s : State) (h : mayDraw i = false) :
    (runAt C i s).drawn = s.drawn := by
  cases hk : isKeyCommand i with
  | false =>
    obtain ⟨own, hrun, hown⟩ := exists_plain_rule C s hk
    have hplain : (guarded C (useOf i) s own).Plain (mayDraw i) (isIsoSign i) := complete_guarded_plain hown
    rw [hrun]
    rcases complete_cases (guarded C (useOf i) s own) s with ⟨e, u, hres, hc⟩ | ⟨out, aux, u, hres, hc⟩
    · rw [hres] at hplain
      obtain rfl : u = 0 := hplain h
      rw [hc]; rfl
    · rw [hres] at hplain
      obtain ⟨hused, -⟩ := hplain
      obtain rfl : u = 0 := hused h
      rw [hc]; rfl
  | true =>
    have hload {α : Type} {u : Use} {key : Option α} {install : α → State → State}
        (hinst : ∀ K, (install K s).drawn = s.drawn) : (loadKey C u key install s).drawn = s.drawn := by
      rcases loadKey_cases C u key install s with ⟨e, -, hrun⟩ | ⟨K, -, -, hrun⟩
      · rw [hrun]; rfl
      · rw [hrun]; exact hinst K
    rcases eq_of_isKeyCommand hk with rfl | rfl | rfl | rfl
    · exact hload fun _ => rfl
    · exact hload fun _ => rfl
    · exact hload fun _ => rfl
    · rfl

/-- Settles O28: a rule that draws nothing does not name the port's answers. -/
theorem onlyMarkedCommandsDraw : Obligations.OnlyMarkedCommandsDraw := by
  intro C i s rng rngNonzero h
  refine ⟨?_, runAt_drawn_of_not_mayDraw C s h⟩
  cases i
  case emeV15Encode | esV15Encrypt | oaepEncode | esOaepEncrypt => cases h
  case pssEncode ss sld =>
    obtain rfl : ss = true := by simpa [mayDraw] using h
    rfl
  case ssaPssSign crt ss sld =>
    obtain rfl : ss = true := by simpa [mayDraw] using h
    rfl
  case ds2Sign it um crt ss sld =>
    obtain rfl : ss = true := by simpa [mayDraw] using h
    rfl
  all_goals rfl

end Sys2Proof.Machine

/-! PROOFS of the statements about the error codes (60_exceptions.md section 5: R308) and the invariant of the block
(10_state.md): the results of a ready command fit their buffers. -/

namespace Sys2Proof.Machine

/-! ## What a ready command can answer -/

/-- A rule's answer is one of the codes, or two strings that fit the buffers. -/
abbrev Result.Fits (C : Config) (codes : List Err) : Result → Prop :=
  Result.Meets (fun e _ => e ∈ codes) (fun out aux _ => out.length ≤ C.maxBuf ∧ aux.length ≤ C.maxBuf)

section
variable {C : Config} {codes : List Err}

theorem fits_decoded {o : Option Bytes} (hfail : .fail ∈ codes) (hsome : ∀ M, o = some M → M.length ≤ C.maxBuf) :
    (decoded o).Fits C codes :=
  meets_decoded hfail fun M hM => ⟨hsome M hM, Nat.zero_le _⟩

theorem fits_inDomain {r n used : Nat} {rest : Result} (hdomain : .domain ∈ codes) (h : rest.Fits C codes) :
    (inDomain r n used rest).Fits C codes :=
  meets_inDomain (fun _ => hdomain) fun _ => h

/-- A domain check that never fails (R121; log 21). -/
theorem fits_inDomain_of_lt {r n used : Nat} {rest : Result} (hlt : r < n) (h : rest.Fits C codes) :
    (inDomain r n used rest).Fits C codes := by
  rwa [inDomain_of_lt hlt]

/-- R297: a check that fails answers with a code of the row. -/
theorem fits_check {p : Prop} [Decidable p] {e : Err} {used : Nat} {r : Result} (he : e ∈ codes)
    (h : ¬ p → r.Fits C codes) : (if p then .error e used else r).Fits C codes :=
  meets_ite (fun _ => he) h

theorem fits_done {out : Bytes} (hout : out.length ≤ C.maxBuf) (used : Nat) : (Result.done out [] used).Fits C codes :=
  ⟨hout, Nat.zero_le _⟩

end

theorem ceil8_of_dvd {bits : Nat} (h : ¬ bits % 8 ≠ 0) : bits / 8 = ceil8 bits := by
  unfold ceil8
  omega

/-- R153: the message is shorter than what it is decoded from. -/
theorem length_le_of_emeV15Decode {EM M : Bytes} (h : emeV15Decode EM = some M) : M.length ≤ EM.length := by
  obtain ⟨PS, -, -, rfl⟩ := (emeV15Decode_iff EM M).mp h
  simp only [List.length_append]
  omega

/-- R203, R242: the salt has the length that the flags say. -/
theorem length_saltOf {ss sld : Bool} (hflags : saltFlagsLegal ss sld = true) (C : Config) (h : Sel) (s : State) :
    (saltOf C h ss sld s).length = saltLen C h sld s := by
  cases ss <;> cases sld
  · exact length_draw ..
  · exact length_draw ..
  · exact State.operand_length s .salt
  · cases hflags

/-! ## The capacity of ds2 and ds3 -/

/-- R241: the capacity is not negative exactly when hash, trailer and header fit. -/
theorem isoCap_neg_iff (C : Config) (h : Sel) (k t : Nat) : isoCap C h k t < 0 ↔ k < 8 * hLen C h + 8 * t + 2 := by
  unfold isoCap
  omega

theorem isoCap_toNat (C : Config) (h : Sel) (k t : Nat) : (isoCap C h k t).toNat = k - (8 * hLen C h + 8 * t + 2) := by
  unfold isoCap
  omega

/-- R243, R244: what the capacity admits fits the encoded message. -/
theorem le_ceil8_of_capacity {k l t m : Nat} (hk : 8 * l + 8 * t + 2 ≤ k) (hm : m ≤ (k - (8 * l + 8 * t + 2)) / 8) :
    m + 1 + l + t ≤ ceil8 (k - 1) := by
  unfold ceil8
  omega

/-- R246, R257: a signature of ds2 or ds3 whose message fits meets no error. -/
theorem fits_isoSign {C : Config} {codes : List Err} {h : Sel} {um crt : Bool} {s : State} {M1 M2 salt T : Bytes} {used : Nat}
    (hI : Inv C s) (hv : s.slotValid (.priv crt) = true) (hs : (C.hashes h).isSome = true)
    (hfit : M1.length + salt.length + 1 + hLen C h + T.length ≤ ceil8 ((s.privMod crt).k - 1))
    (hM2 : M2.length ≤ C.maxBuf) : (isoSign C h um crt s M1 M2 salt T used).Fits C codes := by
  obtain ⟨hn, hk, -, hbuf, -⟩ := privMod_of_inv hI hv
  have hlt := os2ip_isoPssEm_lt hs (M2 := M2) hfit
  rw [hk] at hlt
  rw [isoSign, hk]
  exact fits_inDomain_of_lt (lt_of_lt_two_pow hn hlt) ⟨(length_i2os _ _).trans_le hbuf, hM2⟩

/-- R247, R258: the recovered part of a message fits its buffer. -/
theorem fits_isoVerify {C : Config} {codes : List Err} {h : Sel} {s : State} {sLen : Nat} (hI : Inv C s)
    (hv : s.pub.valid = true) (hs : (C.hashes h).isSome = true) (hcapacity : .capacity ∈ codes) (hdomain : .domain ∈ codes)
    (hfail : .fail ∈ codes) : (isoVerify C h s sLen).Fits C codes := by
  refine fits_check hcapacity fun _ => fits_check hcapacity fun _ => fits_inDomain hdomain ?_
  refine fits_decoded hfail fun M1 hM1 => ?_
  obtain ⟨-, -, -, hklen, hbuf⟩ := pub_of_inv hI hv
  obtain ⟨J, it, T, salt, -, -, -, hfit, -⟩ := (isoRecover_iff hs s _ M1 _ sLen).mp hM1
  unfold ceil8 at hfit hklen
  omega

/-- R229: the recovered part of a ds1 message fits its buffer. -/
theorem length_le_of_ds1Recover {C : Config} {h : Sel} {s : State} {sig : Nat} {M1 M2 : Bytes} (hI : Inv C s)
    (hv : s.pub.valid = true) (hs : (C.hashes h).isSome = true) (hr : ds1Recover C h s sig M2 = some M1) :
    M1.length ≤ C.maxBuf := by
  obtain ⟨-, -, -, hklen, hbuf⟩ := pub_of_inv hI hv
  obtain ⟨J, it, T, -, -, hk, hdsi⟩ := (ds1Recover_iff hs s sig M1 M2).mp hr
  have hlen : M1.length ≤ (ds1Cap C h s.pub.k T.length).toNat / 8 := by
    rw [← show (ds1Dsi C h (M1 ++ M2) s.pub.k T).2.1 = M1 by rw [hdsi]]
    simp [ds1Dsi]
  unfold ds1Cap at hlen
  unfold ceil8 at hklen
  omega

/-- R225: the DSI of a message under a valid slot is below the modulus, and its low nibble is 0xC. -/
theorem ds1Dsi_lt {C : Config} {h : Sel} (hs : (C.hashes h).isSome = true) {n : Nat} (hn : 1 ≤ n) {it : Bool} {T : Bytes}
    (hT : TrailerIs C h it T) (hk : 8 * hLen C h + 8 * T.length + 4 ≤ bitlen n) (M : Bytes) :
    (ds1Dsi C h M (bitlen n) T).1 < n :=
  lt_of_lt_two_pow hn (ds1Parse_ds1Dsi hs hT hk).2.1

/-- R308: a ready command that writes no slot answers with a code of its row or with results that fit. -/
theorem exists_fitting_rule {C : Config} {i : Instr} {s : State} (hk : isKeyCommand i = false) (hI : Inv C s)
    (hr : Ready C i s) :
    ∃ own, runAt C i s = complete (guarded C (useOf i) s own) s ∧ own.Fits C (codesOf C.pssSlack i) := by
  have hpub (hv : s.slotValid .pub = true) := pub_of_inv hI hv
  have hpriv {crt : Bool} (hv : s.slotValid (.priv crt) = true) := privMod_of_inv hI hv
  have hmsg (hb : .msg ∈ (useOf i).bufs) : (s.operand .msg).length ≤ C.maxBuf := by
    rw [State.operand_length]; exact hr.lens .msg hb
  cases i
  case nop => exact ⟨.done [] [] 0, rfl, fits_done (Nat.zero_le _) 0⟩
  case rsaep | rsavp1 | minsel =>
    obtain ⟨-, -, -, -, hbuf⟩ := hpub hr.slot
    exact ⟨_, rfl, fits_inDomain (by simp [codesOf]) (fits_done ((length_i2os _ _).trans_le hbuf) 0)⟩
  case rsadp | rsasp1 =>
    obtain ⟨-, -, -, hbuf, -⟩ := hpriv hr.slot
    exact ⟨_, rfl, fits_inDomain (by simp [codesOf]) (fits_done ((length_i2os _ _).trans_le hbuf) 0)⟩
  case mgf1 h =>
    refine ⟨_, rfl, fits_check (by simp [codesOf]) fun hbits => fits_done ?_ 0⟩
    rw [length_mgf1 (hr.hash h rfl), ceil8_of_dvd hbits]
    exact hr.embits rfl
  case emeV15Encode =>
    refine ⟨_, rfl, fits_check (by simp [codesOf]) fun hbits => fits_check (by simp [codesOf]) fun hcap => fits_done ?_ _⟩
    have hemb : ceil8 s.embits.toNat ≤ C.maxBuf := hr.embits rfl
    rw [← ceil8_of_dvd hbits] at hemb
    rw [length_emeV15Encode, length_drawNonzero]
    omega
  case emeV15Decode =>
    refine ⟨_, rfl, fits_decoded (by simp [codesOf]) fun M hM => (length_le_of_emeV15Decode hM).trans ?_⟩
    rw [State.operand_length]
    exact hr.lens .inp (by simp [useOf])
  case oaepEncode h =>
    refine ⟨_, rfl, fits_check (by simp [codesOf]) fun hbits => fits_check (by simp [codesOf]) fun hcap =>
      fits_check (by simp [codesOf]) fun _ => fits_done ?_ _⟩
    rw [length_oaepEncode (hr.hash h rfl) (not_lt.mp hcap) (length_draw ..), ceil8_of_dvd hbits]
    exact hr.embits rfl
  case oaepDecode h =>
    refine ⟨_, runOaepDecode_eq .., fits_check (by simp [codesOf]) fun hcap => fits_decoded (by simp [codesOf]) fun M hM => ?_⟩
    obtain ⟨seed, -, hlen, -⟩ := (oaepDecode_iff (hr.hash h rfl) _ _ M (not_lt.mp hcap)).mp hM
    have hinp : (s.len .inp).toNat ≤ C.maxBuf := hr.lens .inp (by simp [useOf])
    rw [State.operand_length] at hlen
    omega
  case emsaV15Encode h =>
    refine ⟨_, rfl, fits_check (by simp [codesOf]) fun hbits => fits_check (by simp [codesOf]) fun hcap => fits_done ?_ _⟩
    rw [length_emsaV15Encode (hr.hash h rfl) (not_lt.mp hcap), ceil8_of_dvd hbits]
    exact hr.embits rfl
  case pssEncode h ss sld =>
    refine ⟨_, rfl, fits_check (by simp [codesOf]) fun hcap => fits_done ?_ _⟩
    rw [← length_saltOf hr.flags, not_lt] at hcap
    rw [length_pssEncode (hr.hash h rfl) hcap]
    exact hr.embits rfl
  case pssCheck => exact ⟨_, rfl, fits_check (by simp [codesOf]) fun _ => meets_verdict _ (by simp [codesOf]) ⟨Nat.zero_le _, Nat.zero_le _⟩⟩
  case esV15Encrypt =>
    obtain ⟨hn, -, hk, hklen, hbuf⟩ := hpub hr.slot
    refine ⟨_, rfl, fits_check (by simp [codesOf]) fun hcap => fits_inDomain_of_lt (os2ip_emeV15Encode_lt hn ?_)
      (fits_done ((length_i2os _ _).trans_le hbuf) _)⟩
    rw [length_drawNonzero, ← hk, ← hklen]
    omega
  case esV15Decrypt crt =>
    obtain ⟨-, -, -, hbuf, -⟩ := hpriv hr.slot
    refine ⟨_, rfl, fits_inDomain (by simp [codesOf]) (fits_decoded (by simp [codesOf]) fun M hM => ?_)⟩
    have hlen := length_le_of_emeV15Decode hM
    rw [length_i2os] at hlen
    exact hlen.trans hbuf
  case esOaepEncrypt h =>
    obtain ⟨hn, -, hk, hklen, hbuf⟩ := hpub hr.slot
    refine ⟨_, rfl, fits_check (by simp [codesOf]) fun hcap => fits_check (by simp [codesOf]) fun _ =>
      fits_inDomain_of_lt ?_ (fits_done ((length_i2os _ _).trans_le hbuf) _)⟩
    rw [hklen, hk] at hcap ⊢
    exact os2ip_oaepEncode_lt (hr.hash h rfl) hn (not_lt.mp hcap) (length_draw ..)
  case esOaepDecrypt h crt =>
    obtain ⟨-, -, -, hbuf, -⟩ := hpriv hr.slot
    refine ⟨_, runEsOaepDecrypt_eq .., fits_check (by simp [codesOf]) fun hcap => fits_inDomain (by simp [codesOf])
      (fits_decoded (by simp [codesOf]) fun M hM => ?_)⟩
    obtain ⟨seed, -, hlen, -⟩ :=
      (oaepDecode_iff (hr.hash h rfl) _ _ M (by rw [length_i2os]; exact not_lt.mp hcap)).mp hM
    rw [length_i2os] at hlen
    omega
  case ssaV15Sign h crt =>
    obtain ⟨hn, hk, hklen, hbuf, -⟩ := hpriv hr.slot
    refine ⟨_, rfl, fits_check (by simp [codesOf]) fun hcap => fits_inDomain_of_lt ?_
      (fits_done ((length_i2os _ _).trans_le hbuf) _)⟩
    rw [hklen, hk] at hcap ⊢
    exact os2ip_emsaV15Encode_lt (hr.hash h rfl) hn (not_lt.mp hcap)
  case ssaV15Verify =>
    exact ⟨_, rfl, fits_check (by simp [codesOf]) fun _ => fits_inDomain (by simp [codesOf])
      (fits_check (by simp [codesOf]) fun _ => fits_done (Nat.zero_le _) 0)⟩
  case ssaPssSign h crt ss sld =>
    obtain ⟨hn, hk, -, hbuf, -⟩ := hpriv hr.slot
    refine ⟨_, rfl, meets_ite (fun _ => ?_) fun hcap => ?_⟩
    · cases C.pssSlack <;> simp [codesOf]
    have hfits := fits_done (C := C) (codes := codesOf C.pssSlack (.ssaPssSign h crt ss sld))
      ((length_i2os (s.privExp crt (os2ip (pssEncode C h (s.operand .msg) ((s.privMod crt).k - C.pssSlack)
        (saltOf C h ss sld s)))) (s.privMod crt).klen).trans_le hbuf) (saltDrawn C h ss sld s)
    by_cases hslack : C.pssSlack = 0
    · exact fits_inDomain (by simp [codesOf, hslack]) hfits
    · have hone : C.pssSlack = 1 := by have := C.pssSlack_le; omega
      refine fits_inDomain_of_lt ?_ hfits
      rw [← length_saltOf hr.flags, not_lt] at hcap
      have hlt := os2ip_pssEncode_lt (hr.hash h rfl) (M := s.operand .msg) hcap
      rw [hone, hk] at hlt ⊢
      exact lt_of_lt_two_pow hn hlt
  case ssaPssVerify =>
    exact ⟨_, rfl, fits_inDomain (by simp [codesOf]) (fits_check (by simp [codesOf]) fun _ =>
      meets_verdict _ (by simp [codesOf]) ⟨Nat.zero_le _, Nat.zero_le _⟩)⟩
  case ds1Sign h it um crt =>
    obtain ⟨hn, hk, -, hbuf, -⟩ := hpriv hr.slot
    refine ⟨_, rfl, ?_⟩
    split
    · simp [codesOf]
    next T hT =>
    refine fits_check (by simp [codesOf]) fun hcap => fits_inDomain_of_lt ?_ ⟨(length_i2os _ _).trans_le hbuf, ?_⟩
    · rw [ds1Cap_neg_iff, not_lt, hk] at hcap
      rw [hk]
      exact ds1Dsi_lt (hr.hash h rfl) hn ((trailer_eq_some_iff C h it T).mp hT) hcap _
    · refine le_trans ?_ (hmsg (by simp [useOf]))
      simp [ds1Dsi]
  case ds1Verify h =>
    exact ⟨_, rfl, fits_check (by simp [codesOf]) fun _ => fits_inDomain (by simp [codesOf])
      (fits_decoded (by simp [codesOf]) fun M1 hM1 => length_le_of_ds1Recover hI hr.slot (hr.hash h rfl) hM1)⟩
  case ds2Sign h it um crt ss sld =>
    refine ⟨_, rfl, ?_⟩
    split
    · simp [codesOf]
    next T hT =>
    refine fits_check (by simp [codesOf]) fun hcap => fits_check (by simp [codesOf]) fun hsalt =>
      fits_isoSign hI hr.slot (hr.hash h rfl) ?_ ?_
    · rw [isoCap_neg_iff, not_lt] at hcap
      rw [isoCap_toNat, not_lt] at hsalt
      rw [length_saltOf hr.flags, isoCap_toNat]
      refine le_ceil8_of_capacity hcap ?_
      rw [List.length_take]
      omega
    · exact le_trans (by simp) (hmsg (by simp [useOf]))
  case ds2Verify h sld => exact ⟨_, rfl, fits_isoVerify hI hr.slot (hr.hash h rfl) (by simp [codesOf]) (by simp [codesOf]) (by simp [codesOf])⟩
  case ds3Sign h it um crt =>
    refine ⟨_, rfl, ?_⟩
    split
    · simp [codesOf]
    next T hT =>
    refine fits_check (by simp [codesOf]) fun _ => fits_check (by simp [codesOf]) fun hcap => fits_check (by simp [codesOf])
      fun hsalt => fits_check (by simp [codesOf]) fun hbits => fits_check (by simp [codesOf]) fun _ =>
      fits_isoSign hI hr.slot (hr.hash h rfl) ?_ ?_
    · rw [isoCap_neg_iff, not_lt] at hcap
      rw [isoCap_toNat, not_lt] at hsalt hbits
      rw [State.operand_length s .salt]
      refine le_ceil8_of_capacity hcap ?_
      rw [List.length_take]
      omega
    · exact le_trans (by simp) (hmsg (by simp [useOf]))
  case ds3Verify h => exact ⟨_, rfl, fits_isoVerify hI hr.slot (hr.hash h rfl) (by simp [codesOf]) (by simp [codesOf]) (by simp [codesOf])⟩
  case keyLoadPub | keyLoadPriv | keyLoadCrt | keyClear => cases hk

/-! ## Error codes -/

/-- R96, R308: every command but NOP and KEY_CLEAR can fail step 5 of the common checks. -/
theorem param_mem_codesOf (slack : Nat) {i : Instr} (hnop : i ≠ .nop) (hclear : i ≠ .keyClear) : .param ∈ codesOf slack i := by
  cases i
  case nop | keyClear => contradiction
  case ssaPssSign => cases slack <;> simp [codesOf]
  all_goals simp [codesOf]

/-- Settles O26: a command that is not ready ends with the code of a common check, a ready one as `exists_fitting_rule` says, a key
load with E_PARAM if at all. -/
theorem errorCodesPerCommand : Obligations.ErrorCodesPerCommand := by
  intro C i s hI
  have hcheck (hnop : i ≠ .nop) (hclear : i ≠ .keyClear) {e : Err} (he : preCheck C (useOf i) s = some e) :
      e ∈ .ok :: .illegal :: codesOf C.pssSlack i := by
    rcases preCheck_codes he with rfl | rfl
    · simp
    · simp [param_mem_codesOf C.pssSlack hnop hclear]
  cases hk : isKeyCommand i with
  | false =>
    by_cases hr : Ready C i s
    · obtain ⟨own, hrun, hown⟩ := exists_fitting_rule hk hI hr
      rw [runAt_of_ready hr own hrun]
      cases own with
      | error e u => exact List.mem_cons_of_mem _ (List.mem_cons_of_mem _ hown)
      | done out aux u => exact List.mem_cons_self
    · have hnop : i ≠ .nop := by rintro rfl; exact hr (ready_nop C s)
      have hclear : i ≠ .keyClear := by rintro rfl; cases hk
      obtain ⟨e, he, -⟩ := guarded_of_not_ready hr
      rw [runAt_of_preCheck he]
      exact hcheck hnop hclear he
  | true =>
    have hload {α : Type} {key : Option α} {install : α → State → State} (hnop : i ≠ .nop) (hclear : i ≠ .keyClear) :
        (loadKey C (useOf i) key install s).err ∈ .ok :: .illegal :: codesOf C.pssSlack i := by
      rcases loadKey_cases C (useOf i) key install s with ⟨e, he | ⟨-, -, rfl⟩, hrun⟩ | ⟨K, -, -, hrun⟩
      · rw [hrun]; exact hcheck hnop hclear he
      · rw [hrun]; simp [param_mem_codesOf C.pssSlack hnop hclear]
      · rw [hrun]; exact List.mem_cons_self
    rcases eq_of_isKeyCommand hk with rfl | rfl | rfl | rfl
    · exact hload nofun nofun
    · exact hload nofun nofun
    · exact hload nofun nofun
    · exact List.mem_cons_self

/-! ## The invariant -/

/-- The invariant speaks of the registers, buffers, phase and slots alone. -/
theorem inv_congr {C : Config} {s t : State} (hI : Inv C s) (hbufs : t.bufs = s.bufs) (hlens : t.lens = s.lens)
    (hphase : t.phase = s.phase) (herr : t.err = s.err) (hpub : t.pub = s.pub) (hpriv : t.priv = s.priv)
    (hcrt : t.crt = s.crt) (hfind : t.findings = s.findings) : Inv C t := by
  have hbuf (b : BufId) : t.buf b = s.buf b := congrArg (PerBuf.get · b) hbufs
  have hlen (b : BufId) : t.len b = s.len b := congrArg (PerBuf.get · b) hlens
  constructor
  · simpa only [hbuf] using hI.bufs
  · simpa only [hlen] using hI.outLen
  · simpa only [hlen, State.octet_def, hbuf] using hI.tails
  · simpa only [hphase, herr] using hI.errOnlyDone
  · simpa only [hphase, herr, hbuf, hlen] using hI.emptyOnError
  · simpa only [hpub] using hI.pub
  · simpa only [hpriv] using hI.priv
  · simpa only [hcrt] using hI.crt
  · simpa only [hpub, hpriv, hcrt, hfind] using hI.findings

/-- A reset, whatever is still to come, leaves the invariant (R45, R320). -/
theorem inv_hardReset (C : Config) (s : State) : Inv C (hardReset s) where
  bufs b := by rw [hardReset_buf]; exact ⟨⟨List.Pairwise.nil, nofun⟩, nofun⟩
  outLen := ⟨Nat.zero_le _, Nat.zero_le _⟩
  tails _ := ⟨fun _ => rfl, fun _ => rfl⟩
  errOnlyDone _ := rfl
  emptyOnError _ := ⟨rfl, rfl, rfl, rfl⟩
  pub := rfl
  priv := rfl
  crt := rfl
  findings := ⟨fun _ => ⟨rfl, rfl⟩, fun _ => ⟨rfl, rfl⟩, fun _ => rfl⟩

/-- Settles O2: the state after reset is that of a reset. -/
theorem resetMeetsInvariant : Obligations.ResetMeetsInvariant := fun C => inv_hardReset C State.reset

/-- A transition that rewrites the results and keeps the rest keeps the invariant, when the results fit and are empty where R22 and
R36 say. -/
theorem inv_setResults {C : Config} {s t : State} {out aux : Bytes} (hmax : C.maxBuf < 2 ^ 32) (hI : Inv C s)
    (hbufs : t.bufs = (s.setResults out aux).bufs) (hlens : t.lens = (s.setResults out aux).lens) (ho : out.length ≤ C.maxBuf)
    (ha : aux.length ≤ C.maxBuf) (herr : t.phase ≠ .done → t.err = .ok)
    (hempty : t.phase = .busy ∨ t.err ≠ .ok → out = [] ∧ aux = []) (hpub : t.pub = s.pub) (hpriv : t.priv = s.priv)
    (hcrt : t.crt = s.crt) (hfind : t.findings = s.findings) : Inv C t := by
  have hbuf (b : BufId) : t.buf b = (s.setResults out aux).buf b := congrArg (PerBuf.get · b) hbufs
  have hlen (b : BufId) : t.len b = (s.setResults out aux).len b := congrArg (PerBuf.get · b) hlens
  have holen : (t.len .out).toNat = out.length := by
    rw [hlen, setResults_len_out, BitVec.toNat_ofNat, Nat.mod_eq_of_lt (ho.trans_lt hmax)]
  have halen : (t.len .aux).toNat = aux.length := by
    rw [hlen, setResults_len_aux, BitVec.toNat_ofNat, Nat.mod_eq_of_lt (ha.trans_lt hmax)]
  constructor
  case bufs =>
    have hfits {X : Bytes} (hX : X.length ≤ C.maxBuf) : (Memory.ofBytes X).wf ∧ (Memory.ofBytes X).below C.maxBuf :=
      ⟨Memory.ofBytes_wf X, fun c hc => (Memory.ofBytes_below X c hc).trans_le hX⟩
    intro b
    rw [hbuf]
    by_cases hb : b = .out
    · subst hb; exact hfits ho
    · by_cases hb' : b = .aux
      · subst hb'; exact hfits ha
      · rw [setResults_buf_other s out aux hb hb']; exact hI.bufs b
  case outLen => rw [holen, halen]; exact ⟨ho, ha⟩
  case tails =>
    intro i
    rw [holen, halen, State.octet_def, State.octet_def, hbuf, hbuf, setResults_buf_out, setResults_buf_aux,
      Memory.read_ofBytes, Memory.read_ofBytes]
    exact ⟨fun h => List.getD_eq_default _ _ h, fun h => List.getD_eq_default _ _ h⟩
  case errOnlyDone => exact herr
  case emptyOnError =>
    intro h
    obtain ⟨rfl, rfl⟩ := hempty h
    rw [hbuf, hbuf, hlen, hlen]
    exact ⟨rfl, rfl, rfl, rfl⟩
  case pub => rw [hpub]; exact hI.pub
  case priv => rw [hpriv]; exact hI.priv
  case crt => rw [hcrt]; exact hI.crt
  case findings => rw [hpub, hpriv, hcrt, hfind]; exact hI.findings

section
variable {C : Config} {s : State} (hmax : C.maxBuf < 2 ^ 32) (hI : Inv C s)
include hmax hI

theorem inv_raise (e : Err) : Inv C (raise e s) :=
  inv_setResults hmax hI (out := []) (aux := []) rfl rfl (Nat.zero_le _) (Nat.zero_le _) (fun h => absurd rfl h)
    (fun _ => ⟨rfl, rfl⟩) rfl rfl rfl rfl

theorem inv_accept (w : Word) : Inv C (accept w s) :=
  inv_setResults hmax hI (out := []) (aux := []) rfl rfl (Nat.zero_le _) (Nat.zero_le _) (fun _ => rfl)
    (fun _ => ⟨rfl, rfl⟩) rfl rfl rfl rfl

theorem inv_deliver {out aux : Bytes} (ho : out.length ≤ C.maxBuf) (ha : aux.length ≤ C.maxBuf) :
    Inv C (deliver out aux s) :=
  inv_setResults hmax hI rfl rfl ho ha (fun h => absurd rfl h) (fun h => h.elim nofun fun h => absurd rfl h)
    rfl rfl rfl rfl

theorem inv_complete {codes : List Err} {r : Result} (h : r.Fits C codes) : Inv C (complete r s) := by
  have hdraws (u : Nat) : Inv C (s.draws u) := inv_congr hI rfl rfl rfl rfl rfl rfl rfl rfl
  cases r with
  | error e u => exact inv_raise hmax (hdraws u) e
  | done out aux u =>
    obtain ⟨ho, ha⟩ := h
    exact inv_deliver hmax (hdraws u) ho ha

theorem inv_loadKey {α : Type} {u : Use} {key : Option α} {install : α → State → State}
    (hinstall : ∀ K, key = some K → Inv C (install K s)) : Inv C (loadKey C u key install s) := by
  rcases loadKey_cases C u key install s with ⟨e, -, hrun⟩ | ⟨K, -, hK, hrun⟩
  · rw [hrun]; exact inv_raise hmax hI e
  · rw [hrun]; exact inv_deliver hmax (hinstall K hK) (Nat.zero_le _) (Nat.zero_le _)

omit hmax in
/-- R271, R277: the key that a load constructs is one that a slot may hold. -/
theorem inv_installPub {K : PubSlot} (hK : newPub C s = some K) : Inv C (installPub C K s) := by
  obtain ⟨hn, he, hfit, rfl⟩ := newPub_some hK
  obtain ⟨hmaxK, hlen⟩ := (modulusFits_iff C _).mp hfit
  obtain ⟨-, hfpriv, hfcrt⟩ := hI.findings
  exact { hI with
    pub := ⟨Nat.one_le_iff_ne_zero.mpr hn, Nat.one_le_iff_ne_zero.mpr he, rfl, rfl, hlen, hmaxK⟩
    findings := ⟨nofun, hfpriv, hfcrt⟩ }

omit hmax in
/-- R272, R277: see `inv_installPub`. -/
theorem inv_installPriv {K : PrivSlot} (hK : newPriv C s = some K) : Inv C (installPriv C K s) := by
  obtain ⟨hn, he, hfit, rfl⟩ := newPriv_some hK
  obtain ⟨hmaxK, hlen⟩ := (modulusFits_iff C _).mp hfit
  obtain ⟨hfpub, -, hfcrt⟩ := hI.findings
  exact { hI with
    priv := ⟨Nat.one_le_iff_ne_zero.mpr hn, Nat.one_le_iff_ne_zero.mpr he, rfl, rfl, hlen, hmaxK⟩
    findings := ⟨hfpub, nofun, hfcrt⟩ }

omit hmax in
/-- R273, R277: see `inv_installPub`. -/
theorem inv_installCrt {K : CrtSlot} (hK : newCrt C s = some K) : Inv C (installCrt C K s) := by
  obtain ⟨hp, hq, hfit, rfl⟩ := newCrt_some hK
  obtain ⟨hmaxK, hlen⟩ := (modulusFits_iff C _).mp hfit
  obtain ⟨hfpub, hfpriv, -⟩ := hI.findings
  exact { hI with
    crt := ⟨Nat.one_le_iff_ne_zero.mpr hp, Nat.one_le_iff_ne_zero.mpr hq, rfl, rfl, rfl, hlen, hmaxK⟩
    findings := ⟨hfpub, hfpriv, nofun⟩ }

/-- The completion of every command keeps the invariant. -/
theorem inv_runAt (i : Instr) : Inv C (runAt C i s) := by
  cases hk : isKeyCommand i with
  | false =>
    by_cases hr : Ready C i s
    · obtain ⟨own, hrun, hown⟩ := exists_fitting_rule hk hI hr
      rw [runAt_of_ready hr own hrun]
      exact inv_complete hmax hI hown
    · obtain ⟨e, he, -⟩ := guarded_of_not_ready hr
      rw [runAt_of_preCheck he]
      exact inv_raise hmax hI e
  | true =>
    rcases eq_of_isKeyCommand hk with rfl | rfl | rfl | rfl
    · exact inv_loadKey hmax hI fun K hK => inv_installPub hI hK
    · exact inv_loadKey hmax hI fun K hK => inv_installPriv hI hK
    · exact inv_loadKey hmax hI fun K hK => inv_installCrt hI hK
    · have hclear := inv_deliver hmax (inv_hardReset C s) (out := []) (aux := []) (Nat.zero_le _) (Nat.zero_le _)
      exact inv_congr hclear rfl rfl rfl rfl rfl rfl rfl rfl

omit hmax in
theorem inv_acknowledge : Inv C (acknowledge s) :=
  { hI with
    errOnlyDone := fun _ => rfl
    emptyOnError := fun h => h.elim nofun fun h => absurd rfl h }

omit hmax in
/-- R29, R31: a length register that the host writes bounds no result. -/
theorem inv_setLen {b : BufId} (hro : b.readOnly = false) (w : Word) : Inv C (s.setLen b w) := by
  have ho : BufId.out ≠ b := by rintro rfl; cases hro
  have ha : BufId.aux ≠ b := by rintro rfl; cases hro
  exact { hI with
    outLen := by rw [setLen_len_other s w ho, setLen_len_other s w ha]; exact hI.outLen
    tails := by rw [setLen_len_other s w ho, setLen_len_other s w ha]; exact hI.tails
    emptyOnError := by rw [setLen_len_other s w ho, setLen_len_other s w ha]; exact hI.emptyOnError }

omit hmax in
/-- R61: an octet of a buffer that the host writes keeps the canonical form and is no result. -/
theorem inv_setOctet {b : BufId} (hro : b.readOnly = false) {i : Nat} (hi : i < C.maxBuf) (v : Byte) :
    Inv C (s.setOctet b i v) := by
  have hother {c : BufId} (hc : c.readOnly = true) : (s.setOctet b i v).buf c = s.buf c :=
    setBuf_buf_other s _ (by rintro rfl; rw [hro] at hc; cases hc)
  exact { hI with
    bufs := fun c => by
      by_cases hc : c = b
      · subst hc
        obtain ⟨hwf, hbelow⟩ := hI.bufs c
        rw [State.setOctet, setBuf_buf_self]
        exact ⟨Memory.write_wf i v hwf, Memory.write_below v hbelow hi⟩
      · rw [State.setOctet, setBuf_buf_other s _ hc]
        exact hI.bufs c
    tails := by
      simp only [State.octet_def, hother (c := .out) rfl, hother (c := .aux) rfl]
      exact hI.tails
    emptyOnError := by
      rw [hother (c := .out) rfl, hother (c := .aux) rfl]
      exact hI.emptyOnError }

theorem inv_regWrite (r : RegId) (v : Word) : Inv C (regWrite s r v) := by
  cases r with
  | cmd => exact inv_accept hmax hI v
  | ack =>
    rw [regWrite]
    split
    · exact inv_acknowledge hI
    · exact hI
  | len b =>
    cases hro : b.readOnly with
    | true => rw [regWrite, if_pos hro]; exact hI
    | false => rw [regWrite_len hro]; exact inv_setLen hI hro v
  | ien | embits | m1bits => exact inv_congr hI rfl rfl rfl rfl rfl rfl rfl rfl
  | status | findings | kPub | kPriv | kCrt => exact hI

/-- A host write keeps the invariant, in every phase. -/
theorem inv_busWrite (a n v : Nat) : Inv C (busWrite C s a n v) := by
  by_cases hb : s.phase = .busy
  · rw [busWrite_busy C s hb]; exact hI
  · rcases busWrite_cases C hb a n v with ⟨r, w, -, -, hw⟩ | ⟨b, i, w, hro, hi, hw⟩ | hw
    · rw [hw]; exact inv_regWrite hmax hI r w
    · rw [hw]; exact inv_setOctet hI hro hi w
    · rw [hw]; exact hI

/-- Every step keeps the invariant. -/
theorem inv_stepAt {t : State} (hstep : stepAt C s = .next t) : Inv C t := by
  have hnext (r : List HostEvent) : Inv C { s with inputs := r } := inv_congr hI rfl rfl rfl rfl rfl rfl rfl rfl
  rcases stepAt_cases hstep with ⟨r, -, ⟨-, rfl⟩ | ⟨i, -, -, rfl⟩ | ⟨x, -, -, rfl⟩⟩ | ⟨r, -, rfl⟩ | ⟨r, a, n, -, rfl⟩ |
    ⟨r, a, n, v, -, rfl⟩
  · exact hnext r
  · exact inv_runAt hmax (hnext r) i
  · exact inv_raise hmax (hnext r) .illegal
  · exact inv_hardReset C _
  · exact inv_congr hI rfl rfl rfl rfl rfl rfl rfl rfl
  · exact inv_congr (inv_busWrite hmax hI a n v) rfl rfl rfl rfl rfl rfl rfl rfl

end

/-- Settles O3: `inv_stepAt` in every configuration, this machine's included. -/
theorem stepKeepsInvariant : Obligations.StepKeepsInvariant := by
  refine ⟨fun C s t hmax hI hstep => inv_stepAt hmax hI hstep, fun s t hI hstep => ?_⟩
  rw [step_eq_stepAt] at hstep
  exact inv_stepAt (by decide) hI hstep

end Sys2Proof.Machine

/-! PROOFS of the statements that compare two runs: the operands of a command (R35, R42, R96) and the two forms of a private key
(R124). -/

namespace Sys2Proof.Machine

/-! ## Two states with the same operands -/

section
variable {i : Instr} {s t : State} (h : SameOperands i s t)
include h

/-- R35: a string operand is its octets below the length register. -/
theorem SameOperands.operand {b : BufId} (hb : b ∈ (useOf i).bufs) (hsalt : b = .salt → readsSalt i = true) :
    s.operand b = t.operand b :=
  State.operand_congr (h.lens b hb) fun j hj => h.octets b hb hsalt j (h.lens b hb ▸ hj)

theorem SameOperands.privMod {crt : Bool} (hslot : (useOf i).slot = .priv crt) : s.privMod crt = t.privMod crt := by
  cases crt
  · simp [State.privMod, h.priv hslot]
  · simp [State.privMod, h.crt hslot]

theorem SameOperands.privExp {crt : Bool} (hslot : (useOf i).slot = .priv crt) : s.privExp crt = t.privExp crt := by
  funext c
  cases crt
  · simp [State.privExp, h.priv hslot]
  · simp [State.privExp, h.crt hslot]

theorem SameOperands.pubExp (hslot : (useOf i).slot = .pub) : s.pubExp = t.pubExp := by
  funext m
  simp [State.pubExp, h.pub hslot]

/-- R203, R242: the salt length is an operand unless it is the default. -/
theorem SameOperands.saltLen {C : Config} {sel : Sel} {sld : Bool} (hb : sld = false → .salt ∈ (useOf i).bufs) :
    saltLen C sel sld s = saltLen C sel sld t := by
  cases sld
  · simp [Machine.saltLen, h.lens .salt (hb rfl)]
  · rfl

/-- R96: the salt is an operand when it is supplied, else the draw is at the same position. -/
theorem SameOperands.saltOf {C : Config} {sel : Sel} {ss sld : Bool} (hflags : saltFlagsLegal ss sld = true)
    (hb : sld = false → .salt ∈ (useOf i).bufs) (hread : readsSalt i = ss) (hdraw : mayDraw i = !ss) :
    saltOf C sel ss sld s = saltOf C sel ss sld t := by
  cases ss
  · simp [Machine.saltOf, draw, h.saltLen hb, h.drawn hdraw]
  · cases sld
    · simp [Machine.saltOf, h.operand (hb rfl) fun _ => hread]
    · cases hflags

/-- R95: the common checks see the operands alone. -/
theorem SameOperands.preCheck (C : Config) : preCheck C (useOf i) s = preCheck C (useOf i) t := by
  have hlens : ((useOf i).bufs.all fun b => decide ((s.len b).toNat ≤ C.maxBuf)) =
      (useOf i).bufs.all fun b => decide ((t.len b).toNat ≤ C.maxBuf) := by
    rw [Bool.eq_iff_iff, List.all_eq_true, List.all_eq_true]
    exact forall₂_congr fun b hb => by rw [h.lens b hb]
  have hembits : ((useOf i).embits = true ∧ C.maxBuf < ceil8 s.embits.toNat) ↔
      ((useOf i).embits = true ∧ C.maxBuf < ceil8 t.embits.toNat) :=
    and_congr_right fun he => by rw [h.embits he]
  simp only [Machine.preCheck, h.slot, hlens, hembits]

end

section
variable {s t : State}

theorem isoOpen_congr (hpub : s.pub = t.pub) : isoOpen s = isoOpen t := by
  funext sig
  unfold isoOpen State.pubExp
  rw [hpub]

theorem ds1Recover_congr (C : Config) (h : Sel) (hpub : s.pub = t.pub) : ds1Recover C h s = ds1Recover C h t := by
  funext sig M2
  unfold ds1Recover
  rw [isoOpen_congr hpub, hpub]

theorem isoRecover_congr (C : Config) (h : Sel) (hpub : s.pub = t.pub) : isoRecover C h s = isoRecover C h t := by
  funext sig M2 sLen
  unfold isoRecover
  rw [isoOpen_congr hpub, hpub]

theorem isoVerify_congr (C : Config) (h : Sel) (hpub : s.pub = t.pub) (hinp : s.operand .inp = t.operand .inp)
    (hmsg : s.operand .msg = t.operand .msg) : isoVerify C h s = isoVerify C h t := by
  funext sLen
  simp only [isoVerify, State.intOperand, hpub, hinp, hmsg, isoRecover_congr C h hpub]

theorem isoSign_congr (C : Config) (h : Sel) (um : Bool) {crt : Bool} (hmod : s.privMod crt = t.privMod crt)
    (hexp : s.privExp crt = t.privExp crt) : isoSign C h um crt s = isoSign C h um crt t := by
  funext M1 M2 salt T used
  simp only [isoSign, hmod, hexp]

end

/-- R96: the rule of a command that writes no slot, as a function of the state, depends on its operands alone. -/
theorem exists_rule_of_operands (C : Config) {i : Instr} (hk : isKeyCommand i = false) :
    ∃ own : State → Result, (∀ s, runAt C i s = complete (guarded C (useOf i) s (own s)) s) ∧
      ∀ s t, SameOperands i s t → (useOf i).flagsLegal = true → own s = own t := by
  have operand {s t : State} (h : SameOperands i s t) (b : BufId) (hb : b ∈ (useOf i).bufs) (hne : b ≠ .salt) :
      s.operand b = t.operand b := h.operand hb fun hs => absurd hs hne
  cases i
  case nop => exact ⟨fun _ => .done [] [] 0, fun _ => rfl, fun _ _ _ _ => rfl⟩
  case rsaep | rsavp1 =>
    refine ⟨_, fun _ => rfl, fun s t h _ => ?_⟩
    simp only [pubPrimitive, State.intOperand, operand h .inp (by simp [useOf]) nofun, h.pub rfl, h.pubExp rfl]
  case rsadp | rsasp1 =>
    refine ⟨_, fun _ => rfl, fun s t h _ => ?_⟩
    simp only [privPrimitive, State.intOperand, operand h .inp (by simp [useOf]) nofun, h.privMod rfl, h.privExp rfl]
  case minsel =>
    refine ⟨_, fun _ => rfl, fun s t h _ => ?_⟩
    simp only [State.intOperand, operand h .inp (by simp [useOf]) nofun, h.pub rfl]
  case mgf1 =>
    refine ⟨_, fun _ => rfl, fun s t h _ => ?_⟩
    simp only [operand h .inp (by simp [useOf]) nofun, h.embits rfl]
  case emeV15Encode =>
    refine ⟨_, fun _ => rfl, fun s t h _ => ?_⟩
    simp only [operand h .msg (by simp [useOf]) nofun, h.embits rfl, drawNonzero, h.drawn rfl]
  case emeV15Decode =>
    refine ⟨_, fun _ => rfl, fun s t h _ => ?_⟩
    simp only [operand h .inp (by simp [useOf]) nofun]
  case oaepEncode =>
    refine ⟨_, fun _ => rfl, fun s t h _ => ?_⟩
    simp only [operand h .msg (by simp [useOf]) nofun, operand h .label (by simp [useOf]) nofun, h.embits rfl, draw,
      h.drawn rfl]
  case oaepDecode =>
    refine ⟨_, runOaepDecode_eq _ _, fun s t h _ => ?_⟩
    simp only [operand h .inp (by simp [useOf]) nofun, operand h .label (by simp [useOf]) nofun]
  case emsaV15Encode =>
    refine ⟨_, fun _ => rfl, fun s t h _ => ?_⟩
    simp only [operand h .msg (by simp [useOf]) nofun, h.embits rfl]
  case pssEncode h ss sld =>
    refine ⟨_, fun _ => rfl, fun s t h hflags => ?_⟩
    have hsalt : sld = false → .salt ∈ (useOf (.pssEncode ‹_› ss sld)).bufs := by rintro rfl; simp [useOf, saltInput]
    simp only [operand h .msg (by simp [useOf]) nofun, h.embits rfl, h.saltLen hsalt, h.saltOf hflags hsalt rfl rfl,
      saltDrawn]
  case pssCheck h sld =>
    refine ⟨_, fun _ => rfl, fun s t h _ => ?_⟩
    have hsalt : sld = false → .salt ∈ (useOf (.pssCheck ‹_› sld)).bufs := by rintro rfl; simp [useOf, saltInput]
    simp only [operand h .msg (by simp [useOf]) nofun, operand h .inp (by simp [useOf]) nofun, h.embits rfl,
      h.lens .inp (by simp [useOf]), h.saltLen hsalt]
  case esV15Encrypt =>
    refine ⟨_, fun _ => rfl, fun s t h _ => ?_⟩
    simp only [operand h .msg (by simp [useOf]) nofun, h.pub rfl, h.pubExp rfl, drawNonzero, h.drawn rfl]
  case esV15Decrypt =>
    refine ⟨_, fun _ => rfl, fun s t h _ => ?_⟩
    simp only [State.intOperand, operand h .inp (by simp [useOf]) nofun, h.privMod rfl, h.privExp rfl]
  case esOaepEncrypt =>
    refine ⟨_, fun _ => rfl, fun s t h _ => ?_⟩
    simp only [operand h .msg (by simp [useOf]) nofun, operand h .label (by simp [useOf]) nofun, h.pub rfl, h.pubExp rfl,
      draw, h.drawn rfl]
  case esOaepDecrypt =>
    refine ⟨_, runEsOaepDecrypt_eq _ _ _, fun s t h _ => ?_⟩
    simp only [State.intOperand, operand h .inp (by simp [useOf]) nofun, operand h .label (by simp [useOf]) nofun,
      h.privMod rfl, h.privExp rfl]
  case ssaV15Sign =>
    refine ⟨_, fun _ => rfl, fun s t h _ => ?_⟩
    simp only [operand h .msg (by simp [useOf]) nofun, h.privMod rfl, h.privExp rfl]
  case ssaV15Verify =>
    refine ⟨_, fun _ => rfl, fun s t h _ => ?_⟩
    simp only [State.intOperand, operand h .msg (by simp [useOf]) nofun, operand h .inp (by simp [useOf]) nofun, h.pub rfl,
      h.pubExp rfl]
    rfl
  case ssaPssSign h crt ss sld =>
    refine ⟨_, fun _ => rfl, fun s t h hflags => ?_⟩
    have hsalt : sld = false → .salt ∈ (useOf (.ssaPssSign ‹_› crt ss sld)).bufs := by rintro rfl; simp [useOf, saltInput]
    simp only [operand h .msg (by simp [useOf]) nofun, h.privMod rfl, h.privExp rfl, h.saltLen hsalt,
      h.saltOf hflags hsalt rfl rfl, saltDrawn]
  case ssaPssVerify h sld =>
    refine ⟨_, fun _ => rfl, fun s t h _ => ?_⟩
    have hsalt : sld = false → .salt ∈ (useOf (.ssaPssVerify ‹_› sld)).bufs := by rintro rfl; simp [useOf, saltInput]
    simp only [State.intOperand, operand h .msg (by simp [useOf]) nofun, operand h .inp (by simp [useOf]) nofun, h.pub rfl,
      h.pubExp rfl, h.saltLen hsalt]
    rfl
  case ds1Sign =>
    refine ⟨_, fun _ => rfl, fun s t h _ => ?_⟩
    simp only [operand h .msg (by simp [useOf]) nofun, h.privMod rfl, h.privExp rfl]
  case ds1Verify =>
    refine ⟨_, fun _ => rfl, fun s t h _ => ?_⟩
    simp only [State.intOperand, operand h .msg (by simp [useOf]) nofun, operand h .inp (by simp [useOf]) nofun, h.pub rfl,
      ds1Recover_congr C _ (h.pub rfl)]
  case ds2Sign h it um crt ss sld =>
    refine ⟨_, fun _ => rfl, fun s t h hflags => ?_⟩
    have hsalt : sld = false → .salt ∈ (useOf (.ds2Sign ‹_› it um crt ss sld)).bufs := by
      rintro rfl
      simp [useOf, saltInput]
    simp only [operand h .msg (by simp [useOf]) nofun, h.privMod rfl, h.saltLen hsalt, h.saltOf hflags hsalt rfl rfl,
      saltDrawn, isoSign_congr C _ um (h.privMod rfl) (h.privExp rfl)]
  case ds2Verify h sld =>
    refine ⟨_, fun _ => rfl, fun s t h _ => ?_⟩
    have hsalt : sld = false → .salt ∈ (useOf (.ds2Verify ‹_› sld)).bufs := by rintro rfl; simp [useOf, saltInput]
    simp only [h.saltLen hsalt, isoVerify_congr C _ (h.pub rfl) (operand h .inp (by simp [useOf]) nofun)
      (operand h .msg (by simp [useOf]) nofun)]
  case ds3Sign h it um crt =>
    refine ⟨_, fun _ => rfl, fun s t h _ => ?_⟩
    simp only [operand h .msg (by simp [useOf]) nofun, h.operand (b := .salt) (by simp [useOf]) fun _ => rfl,
      h.lens .salt (by simp [useOf]), h.m1bits ⟨_, _, _, _, rfl⟩, h.privMod rfl,
      isoSign_congr C _ um (h.privMod rfl) (h.privExp rfl)]
  case ds3Verify =>
    refine ⟨_, fun _ => rfl, fun s t h _ => ?_⟩
    simp only [h.lens .salt (by simp [useOf]), isoVerify_congr C _ (h.pub rfl) (operand h .inp (by simp [useOf]) nofun)
      (operand h .msg (by simp [useOf]) nofun)]
  case keyLoadPub | keyLoadPriv | keyLoadCrt | keyClear => cases hk

/-- What a completion leaves in ERR, OUT and AUX is a function of the answer alone. -/
theorem sameResults_complete (r : Result) (s t : State) : SameResults (complete r s) (complete r t) := by
  cases r <;>
  exact { err := rfl, outLen := rfl, auxLen := rfl, outOctets := fun _ => rfl, auxOctets := fun _ => rfl }

/-- R271 to R273: what a key load leaves in ERR, OUT and AUX depends on the common checks and on whether there is a key. -/
theorem sameResults_loadKey {α : Type} (C : Config) (u : Use) {key key' : Option α} (install : α → State → State)
    {s t : State} (hpre : preCheck C u s = preCheck C u t) (hkey : key = key') :
    SameResults (loadKey C u key install s) (loadKey C u key' install t) := by
  subst hkey
  unfold loadKey
  rw [hpre]
  cases preCheck C u t with
  | some e => exact sameResults_complete (.error e 0) s t
  | none =>
    cases key with
    | none => exact sameResults_complete (.error .param 0) s t
    | some K => exact sameResults_complete (.done [] [] 0) (install K s) (install K t)

/-- Settles O29: the rule of a command is a function of its operands, and its answer determines the results. -/
theorem resultsDependOnOperandsOnly : Obligations.ResultsDependOnOperandsOnly := by
  intro C i s t h
  have hpre := h.preCheck C
  have operand (b : BufId) (hb : b ∈ (useOf i).bufs) (hne : b ≠ .salt) : s.operand b = t.operand b :=
    h.operand hb fun hs => absurd hs hne
  cases hk : isKeyCommand i with
  | false =>
    obtain ⟨own, hrun, hown⟩ := exists_rule_of_operands C hk
    have hguarded : guarded C (useOf i) s (own s) = guarded C (useOf i) t (own t) := by
      unfold guarded
      rw [hpre]
      cases ht : preCheck C (useOf i) t with
      | some e => rfl
      | none => exact hown s t h ((preCheck_eq_none_iff C i t).mp ht).flags
    rw [hrun, hrun, hguarded]
    exact sameResults_complete ..
  | true =>
    cases i <;> simp only [isKeyCommand, Bool.false_eq_true] at hk
    case keyLoadPub =>
      refine sameResults_loadKey C _ _ hpre ?_
      simp only [newPub, State.intOperand, operand .kn (by simp [useOf]) nofun, operand .ke (by simp [useOf]) nofun]
      rfl
    case keyLoadPriv =>
      refine sameResults_loadKey C _ _ hpre ?_
      simp only [newPriv, State.intOperand, operand .kn (by simp [useOf]) nofun, operand .ke (by simp [useOf]) nofun,
        operand .kd (by simp [useOf]) nofun]
      rfl
    case keyLoadCrt =>
      refine sameResults_loadKey C _ _ hpre ?_
      simp only [newCrt, State.intOperand, operand .kp (by simp [useOf]) nofun, operand .kq (by simp [useOf]) nofun,
        operand .kdp (by simp [useOf]) nofun, operand .kdq (by simp [useOf]) nofun, operand .kqinv (by simp [useOf]) nofun]
      rfl
    case keyClear => exact sameResults_complete (.done [] [] 0) (clearAll s) (clearAll t)

/-! ## The two forms of one private key -/

/-- R124: two loaded forms of one key that every rule sees alike. -/
structure SameForms (s : State) : Prop where
  valid : s.slotValid (.priv true) = s.slotValid (.priv false)
  mod : s.privMod true = s.privMod false
  exp : s.privExp true = s.privExp false

section
variable {s : State} (hs : SameForms s)
include hs

/-- R95: the common checks of a command do not tell two loaded forms apart. -/
theorem SameForms.guarded (C : Config) (flagsLegal : Bool) (hash : Option Sel) (bufs : List BufId) (embits : Bool)
    (own : Result) : guarded C ⟨flagsLegal, hash, .priv true, bufs, embits⟩ s own =
      guarded C ⟨flagsLegal, hash, .priv false, bufs, embits⟩ s own := by
  simp only [Machine.guarded, preCheck, hs.valid]

theorem SameForms.isoSign (C : Config) (h : Sel) (um : Bool) : isoSign C h um true s = isoSign C h um false s := by
  funext M1 M2 salt T used
  simp only [Machine.isoSign, hs.mod, hs.exp]

end

/-- R124 at work: a loaded plain and a loaded CRT form of one key are the same modulus and the same power. -/
theorem sameForms_of_primes {C : Config} {s : State} (hI : Inv C s) (hv : s.priv.valid = true) (hc : s.crt.valid = true)
    (hn : s.priv.n = s.crt.p * s.crt.q) (hpower : ∀ c, privPower s true c = privPower s false c) : SameForms s := by
  obtain ⟨-, hk, hklen, -, -⟩ := privMod_of_inv (crt := false) hI hv
  obtain ⟨-, hk', hklen', -, -⟩ := privMod_of_inv (crt := true) hI hc
  have hcrt := hI.crt
  simp only [CrtSlot.Ok, hc, if_true] at hcrt
  obtain ⟨-, -, hpq, -⟩ := hcrt
  have hmod : (s.privMod true).n = (s.privMod false).n := hpq.trans hn.symm
  refine ⟨hc.trans hv.symm, ?_, funext fun c => ?_⟩
  · have hkk : (s.privMod true).k = (s.privMod false).k := by rw [hk', hmod, hk]
    have hkl : (s.privMod true).klen = (s.privMod false).klen := by rw [hklen', hkk, hklen]
    calc s.privMod true = ⟨(s.privMod true).n, (s.privMod true).k, (s.privMod true).klen⟩ := rfl
      _ = s.privMod false := by rw [hmod, hkk, hkl]
  · rw [privExp_eq_privPower, privExp_eq_privPower, hpower]

/-- Settles O38: R124 is the Chinese remainder theorem with Fermat's; each command then runs on one modulus and one power. -/
theorem crtAgreesWithPlain : Obligations.CrtAgreesWithPlain := by
  intro C s hI hv hc hp hq hpq hn hd hdP hdQ h1 h2 h3
  have hpower (c : Nat) : privPower s true c = privPower s false c := by
    simp only [privPower, if_true, Bool.false_eq_true, if_false, hn]
    exact crt_formula hp hq hpq hd hdP hdQ h1 h2 h3
  have hs := sameForms_of_primes hI hv hc hn hpower
  refine ⟨fun c _ => hpower c, ?_, ?_, ?_, fun h it um ss sld => ⟨?_, ?_, ?_, ?_, ?_, ?_⟩⟩
  · simp only [runAt, runRsadp, privPrimitive, hs.guarded, hs.mod, hs.exp]
  · simp only [runAt, runRsasp1, privPrimitive, hs.guarded, hs.mod, hs.exp]
  · simp only [runAt, runEsV15Decrypt, hs.guarded, hs.mod, hs.exp]
  · simp only [runAt, runEsOaepDecrypt, hs.guarded, hs.mod, hs.exp]
  · simp only [runAt, runSsaV15Sign, hs.guarded, hs.mod, hs.exp]
  · simp only [runAt, runSsaPssSign, hs.guarded, hs.mod, hs.exp]
  · simp only [runAt, runDs1Sign, hs.guarded, hs.mod, hs.exp]
  · simp only [runAt, runDs2Sign, hs.guarded, hs.mod, hs.isoSign]
  · simp only [runAt, runDs3Sign, hs.guarded, hs.mod, hs.isoSign]

end Sys2Proof.Machine

/-! PROOFS about one RSA key in the public and a private slot (40_primitives.md section 1: R124, R157): the two powers undo each
other. The statements that a verify or decrypt command takes back what a sign or encrypt command delivered rest on these. -/

namespace Sys2Proof.Machine

/-! ## The arithmetic of the two primes -/

/-- The product of two distinct primes has at most one factor 2. -/
theorem mul_primes_mod_four {p q : Nat} (hp : p.Prime) (hq : q.Prime) (hpq : p ≠ q) : p * q % 4 ≠ 0 := by
  intro h
  have hodd {r : Nat} (hr : r.Prime) : r = 2 ∨ r % 2 = 1 := hr.eq_two_or_odd
  rcases hodd hp with rfl | hp2
  · rcases hodd hq with rfl | hq2
    · exact hpq rfl
    · omega
  · rcases hodd hq with rfl | hq2
    · omega
    · have := Nat.odd_mul.mpr ⟨Nat.odd_iff.mpr hp2, Nat.odd_iff.mpr hq2⟩
      rw [Nat.odd_iff] at this
      omega

/-- An exponent that is invertible modulo `r − 1`, for an odd `r`, is odd. -/
theorem odd_of_mul_mod {r e d : Nat} (hr2 : r % 2 = 1) (h : e * d % (r - 1) = 1 % (r - 1)) : e % 2 = 1 := by
  have heven : 2 ∣ r - 1 := by omega
  have hmod : e * d % 2 = 1 := by
    rw [← Nat.mod_mod_of_dvd (e * d) heven, h, Nat.mod_mod_of_dvd 1 heven]
  exact Nat.odd_iff.mp (Nat.odd_mul.mp (Nat.odd_iff.mpr hmod)).1

/-! ## A consistent key -/

/-- R124, R157: what the two slots of a consistent key amount to, whichever form the private slot has. -/
structure RsaKey (s : State) (crt : Bool) (p q d : Nat) : Prop where
  primeP : p.Prime
  primeQ : q.Prime
  distinct : p ≠ q
  modulus : s.pub.n = p * q
  privModulus : (s.privMod crt).n = p * q
  exponent : 1 ≤ d
  inverseP : s.pub.e * d % (p - 1) = 1 % (p - 1)
  inverseQ : s.pub.e * d % (q - 1) = 1 % (q - 1)
  power : ∀ c, privPower s crt c = c ^ d % (p * q)

theorem exists_rsaKey {s : State} {crt : Bool} (hkey : KeyPair s crt) : ∃ p q d, RsaKey s crt p q d := by
  obtain ⟨p, q, d, hp, hq, hpq, hn, hd, h1, h2, hpriv⟩ := hkey
  cases crt with
  | false =>
    obtain ⟨hpn, rfl⟩ := hpriv
    exact ⟨p, q, _, hp, hq, hpq, hn, hpn, hd, h1, h2, fun c => by simp [privPower, hpn]⟩
  | true =>
    obtain ⟨rfl, rfl, hcn, hdP, hdQ, hP, hQ, hinv⟩ := hpriv
    refine ⟨_, _, d, hp, hq, hpq, hn, hcn, hd, h1, h2, fun c => ?_⟩
    simp only [privPower, if_true]
    exact crt_formula hp hq hpq hd hdP hdQ hP hQ hinv

namespace RsaKey
section
variable {s : State} {crt : Bool} {p q d : Nat} (hK : RsaKey s crt p q d)
include hK

theorem privMod_n : (s.privMod crt).n = s.pub.n := hK.privModulus.trans hK.modulus.symm

/-- With both slots valid under the invariant the two moduli have one size (R26, R131). -/
theorem privMod_eq {C : Config} (hI : Inv C s) (hpub : s.pub.valid = true) (hpriv : s.slotValid (.priv crt) = true) :
    s.privMod crt = s.pubMod := by
  obtain ⟨-, -, hk, hklen, -⟩ := pub_of_inv hI hpub
  obtain ⟨-, hk', hklen', -, -⟩ := privMod_of_inv hI hpriv
  have hn := hK.privMod_n
  have hkk : (s.privMod crt).k = s.pub.k := by rw [hk', hn, hk]
  have hkl : (s.privMod crt).klen = s.pub.klen := by rw [hklen', hkk, hklen]
  calc s.privMod crt = ⟨(s.privMod crt).n, (s.privMod crt).k, (s.privMod crt).klen⟩ := rfl
    _ = s.pubMod := by rw [hn, hkk, hkl]; rfl

theorem pow_pow_mod {m : Nat} (he : 1 ≤ s.pub.e) (hm : m < p * q) : m ^ (s.pub.e * d) % (p * q) = m :=
  pow_mod_primes_self hK.primeP hK.primeQ hK.distinct (Nat.mul_pos he hK.exponent) hK.inverseP hK.inverseQ hm

/-- R157: the private power undoes the public one. -/
theorem privPower_pubPower {m : Nat} (he : 1 ≤ s.pub.e) (hm : m < s.pub.n) : privPower s crt (pubPower s m) = m := by
  rw [hK.power, pubPower, hK.modulus, ← Nat.pow_mod, ← pow_mul, hK.pow_pow_mod he (hK.modulus ▸ hm)]

/-- R189: the public power undoes the private one. -/
theorem pubPower_privPower {m : Nat} (he : 1 ≤ s.pub.e) (hm : m < s.pub.n) : pubPower s (privPower s crt m) = m := by
  rw [hK.power, pubPower, hK.modulus, ← Nat.pow_mod, ← pow_mul, Nat.mul_comm, hK.pow_pow_mod he (hK.modulus ▸ hm)]

theorem odd_exponent : s.pub.e % 2 = 1 := by
  rcases hK.primeP.eq_two_or_odd with h2 | hp2
  · refine odd_of_mul_mod (hK.primeQ.eq_two_or_odd.resolve_left fun hq2 => ?_) hK.inverseQ
    exact hK.distinct (h2.trans hq2.symm)
  · exact odd_of_mul_mod hp2 hK.inverseP

/-- R226: the public power of the complement of a signature is the complement of its power. -/
theorem pubPower_sub {S : Nat} (hS : S < s.pub.n) (hne : pubPower s S ≠ 0) :
    pubPower s (s.pub.n - S) = s.pub.n - pubPower s S :=
  sub_pow_mod hS hK.odd_exponent hne

end
end RsaKey

/-- R275: the private power reads the two private slots alone. -/
theorem privPower_congr {s u : State} (hpriv : u.priv = s.priv) (hcrt : u.crt = s.crt) (crt : Bool) :
    privPower u crt = privPower s crt := by
  funext c
  simp only [privPower, hpriv, hcrt]

theorem privMod_congr {s u : State} (hpriv : u.priv = s.priv) (hcrt : u.crt = s.crt) (crt : Bool) :
    u.privMod crt = s.privMod crt := by
  simp only [State.privMod, hpriv, hcrt]

theorem slotValid_congr {s u : State} (hpriv : u.priv = s.priv) (hcrt : u.crt = s.crt) (crt : Bool) :
    u.slotValid (.priv crt) = s.slotValid (.priv crt) := by
  simp only [State.slotValid, hpriv, hcrt]

theorem pubPower_congr {s u : State} (hpub : u.pub = s.pub) : pubPower u = pubPower s := by
  funext m
  simp only [pubPower, hpub]

end Sys2Proof.Machine

/-! PROOFS of the statements about encryption: EME-PKCS1-v1_5 (41_eme_pkcs1_v15.md: R152, R155, R157) and OAEP
(42_eme_oaep_mgf1.md: R171, R173 to R176). -/

namespace Sys2Proof.Machine

/-! ## Handing a result on -/

/-- R100: an integer that one command delivered in OUT and the host handed on as the operand IN. -/
theorem intOperand_of_delivered {C : Config} {s u : State} {x l : Nat} {aux : Bytes} (hmax : C.maxBuf < 2 ^ 32)
    (hl : l ≤ C.maxBuf) (hx : x < 256 ^ l) (h : u.operand .inp = (deliver (i2os x l) aux s).operand .out) :
    u.intOperand .inp = x := by
  rw [State.intOperand, h, deliver_operand_out (by rw [length_i2os]; omega), os2ip_i2os_of_lt hx]

/-- R8: the octets of the value of a string of `l` octets. -/
theorem i2os_os2ip_of_length {X : Bytes} {l : Nat} (hl : X.length = l) : i2os (os2ip X) l = X := hl ▸ i2os_os2ip X

/-! ## EME-PKCS1-v1_5 -/

theorem runAt_esV15Encrypt_of_ready {C : Config} {s : State} (hr : Ready C .esV15Encrypt s) :
    let psLen := s.pub.klen - (s.operand .msg).length - 3
    let m := os2ip (emeV15Encode (s.operand .msg) (drawNonzero C s psLen))
    runAt C .esV15Encrypt s = complete
      (if s.pub.klen < (s.operand .msg).length + 11 then .error .capacity 0
       else inDomain m s.pub.n psLen (.done (i2os (pubPower s m) s.pub.klen) [] psLen)) s := by
  intro psLen m
  rw [← pubExp_eq_pubPower]
  exact runAt_of_ready hr _ rfl

theorem runAt_esV15Decrypt_of_ready {C : Config} {s : State} {crt : Bool} (hr : Ready C (.esV15Decrypt crt) s) :
    runAt C (.esV15Decrypt crt) s = complete (inDomain (s.intOperand .inp) (s.privMod crt).n 0
      (decoded (emeV15Decode (i2os (privPower s crt (s.intOperand .inp)) (s.privMod crt).klen)))) s := by
  rw [← privExp_eq_privPower]
  exact runAt_of_ready hr _ rfl

/-- R150, R155: the padding string that the random port gives for a message that fits makes the padded form, of `klen` octets and
below the modulus. -/
theorem emeV15Encode_drawn {C : Config} {s : State} (hI : Inv C s) (hv : s.pub.valid = true) {M : Bytes}
    (hfit : M.length + 11 ≤ s.pub.klen) :
    let EM := emeV15Encode M (drawNonzero C s (s.pub.klen - M.length - 3))
    EM.length = s.pub.klen ∧ os2ip EM < s.pub.n ∧ EmeForm EM M := by
  intro EM
  obtain ⟨hn, -, hk, hklen, -⟩ := pub_of_inv hI hv
  have hlen : EM.length = s.pub.klen := by
    rw [length_emeV15Encode, length_drawNonzero]
    omega
  refine ⟨hlen, os2ip_emeV15Encode_lt hn ?_, _, ?_, drawNonzero_ne_zero C s _, rfl⟩
  · rw [length_drawNonzero, ← hk, ← hklen]
    omega
  · rw [length_drawNonzero]
    omega

/-- R155: the completion of an encryption whose message fits. -/
theorem runAt_esV15Encrypt_of_fits {C : Config} {s : State} (hI : Inv C s) (hr : Ready C .esV15Encrypt s)
    (hfit : (s.operand .msg).length + 11 ≤ s.pub.klen) :
    let psLen := s.pub.klen - (s.operand .msg).length - 3
    runAt C .esV15Encrypt s = deliver
      (i2os (pubPower s (os2ip (emeV15Encode (s.operand .msg) (drawNonzero C s psLen)))) s.pub.klen) [] (s.draws psLen) := by
  intro psLen
  obtain ⟨-, hlt, -⟩ := emeV15Encode_drawn hI hr.slot hfit
  rw [runAt_esV15Encrypt_of_ready hr, if_neg hfit.not_gt, inDomain_of_lt hlt, complete_done]

/-- Settles O39: the padding string of the statement is the one drawn; it has no zero octet and the padded message is below the
modulus. -/
theorem emeV15EncodeAndEncrypt : Obligations.EmeV15EncodeAndEncrypt := by
  refine ⟨by decide, by decide, fun s => ⟨checksFirst _ s, fun hr => ?encode⟩,
    fun s => ⟨checksFirst _ s, fun hI hr => ?encrypt⟩⟩
  case encode =>
    intro bits M
    rw [exec_of_ready hr _ rfl]
    refine ⟨fun hbits hfit => ⟨_, length_drawNonzero cfg s _, drawNonzero_ne_zero cfg s _, ?_⟩, fun hbits => ?_,
      fun hbits hcap => ?_⟩
    · rw [if_neg (not_not.mpr hbits), if_neg hfit.not_gt, complete_done, length_drawNonzero]
      rfl
    · rw [if_pos hbits, complete_error, draws_zero]
    · rw [if_neg (not_not.mpr hbits), if_pos hcap, complete_error, draws_zero]
  case encrypt =>
    intro M
    rw [exec_eq_runAt]
    refine ⟨fun hfit => ⟨_, length_drawNonzero cfg s _, drawNonzero_ne_zero cfg s _, ?_⟩, fun hcap => ?_⟩
    · rw [runAt_esV15Encrypt_of_fits hI hr hfit, length_drawNonzero]
      rfl
    · rw [runAt_esV15Encrypt_of_ready hr, if_pos hcap, complete_error, draws_zero]

/-- Settles O41: the private power gives the padded message back, whose octets have the padded form of the message. -/
theorem esV15DecryptInvertsEncrypt : Obligations.EsV15DecryptInvertsEncrypt := by
  intro C s u crt hmax hI hkey hr hfit hupriv hucrt hru hinp
  obtain ⟨p, q, d, hK⟩ := exists_rsaKey hkey
  obtain ⟨hn, he, -, -, hbuf⟩ := pub_of_inv hI hr.slot
  obtain ⟨hlen, hlt, hform⟩ := emeV15Encode_drawn hI hr.slot hfit
  have hmod : u.privMod crt = s.pubMod :=
    (privMod_congr hupriv hucrt crt).trans (hK.privMod_eq hI hr.slot (slotValid_congr hupriv hucrt crt ▸ hru.slot))
  rw [runAt_esV15Encrypt_of_fits hI hr hfit] at hinp ⊢
  have hc := intOperand_of_delivered hmax hbuf (pubPower_lt_pow_klen hI hr.slot _) hinp
  refine ⟨rfl, ?_⟩
  have hdom : u.intOperand .inp < (u.privMod crt).n := by
    rw [hc, hmod]
    exact Nat.mod_lt _ hn
  have hEM : i2os (privPower u crt (u.intOperand .inp)) (u.privMod crt).klen =
      emeV15Encode (s.operand .msg) (drawNonzero C s (s.pub.klen - (s.operand .msg).length - 3)) := by
    rw [hc, privPower_congr hupriv hucrt, hK.privPower_pubPower he hlt, hmod]
    exact i2os_os2ip_of_length hlen
  rw [runAt_esV15Decrypt_of_ready hru, inDomain_of_lt hdom, hEM, complete_emeV15Decode_of_form hform]

/-! ## OAEP -/

/-- R168: the two length checks of an OAEP encoding are one. -/
theorem oaep_capacity_eq (klen hl m : Nat) (r : Result) :
    (if klen < 2 * hl + 2 then .error .capacity 0 else if klen - 2 * hl - 2 < m then .error .capacity 0 else r) =
      if klen < m + 2 * hl + 2 then .error .capacity 0 else r := by
  by_cases hseed : klen < 2 * hl + 2
  · rw [if_pos hseed, if_pos (by omega)]
  · rw [if_neg hseed]
    exact if_congr (by omega) rfl rfl

theorem runAt_oaepEncode_of_ready {C : Config} {s : State} {h : Sel} (hr : Ready C (.oaepEncode h) s) :
    runAt C (.oaepEncode h) s = complete (if s.embits.toNat % 8 ≠ 0 then .error .param 0
      else if s.embits.toNat / 8 < (s.operand .msg).length + 2 * hLen C h + 2 then .error .capacity 0
      else .done (oaepEncode C h (s.operand .msg) (s.operand .label) (s.embits.toNat / 8) (draw C s (hLen C h))) []
        (hLen C h)) s := by
  rw [← oaep_capacity_eq]
  exact runAt_of_ready hr _ rfl

theorem runAt_esOaepEncrypt_of_ready {C : Config} {s : State} {h : Sel} (hr : Ready C (.esOaepEncrypt h) s) :
    let m := os2ip (oaepEncode C h (s.operand .msg) (s.operand .label) s.pub.klen (draw C s (hLen C h)))
    runAt C (.esOaepEncrypt h) s = complete
      (if s.pub.klen < (s.operand .msg).length + 2 * hLen C h + 2 then .error .capacity 0
       else inDomain m s.pub.n (hLen C h) (.done (i2os (pubPower s m) s.pub.klen) [] (hLen C h))) s := by
  intro m
  rw [← pubExp_eq_pubPower, ← oaep_capacity_eq]
  exact runAt_of_ready hr _ rfl

theorem runAt_oaepDecode_of_ready {C : Config} {s : State} {h : Sel} (hr : Ready C (.oaepDecode h) s) :
    runAt C (.oaepDecode h) s = complete (if (s.operand .inp).length < 2 * hLen C h + 2 then .error .capacity 0
      else decoded (oaepDecode C h (s.operand .inp) (s.operand .label))) s :=
  runAt_of_ready hr _ (runOaepDecode_eq C h s)

theorem runAt_esOaepDecrypt_of_ready {C : Config} {s : State} {h : Sel} {crt : Bool} (hr : Ready C (.esOaepDecrypt h crt) s) :
    runAt C (.esOaepDecrypt h crt) s = complete (if (s.privMod crt).klen < 2 * hLen C h + 2 then .error .capacity 0
      else inDomain (s.intOperand .inp) (s.privMod crt).n 0
        (decoded (oaepDecode C h (i2os (privPower s crt (s.intOperand .inp)) (s.privMod crt).klen) (s.operand .label)))) s := by
  rw [← privExp_eq_privPower]
  exact runAt_of_ready hr _ (runEsOaepDecrypt_eq C h crt s)

/-- R170, R174: the completion of an OAEP encryption whose message fits: the encoding is below the modulus. -/
theorem runAt_esOaepEncrypt_of_fits {C : Config} {s : State} {h : Sel} (hI : Inv C s) (hr : Ready C (.esOaepEncrypt h) s)
    (hfit : (s.operand .msg).length + 2 * hLen C h + 2 ≤ s.pub.klen) :
    let m := os2ip (oaepEncode C h (s.operand .msg) (s.operand .label) s.pub.klen (draw C s (hLen C h)))
    m < s.pub.n ∧ runAt C (.esOaepEncrypt h) s = deliver (i2os (pubPower s m) s.pub.klen) [] (s.draws (hLen C h)) := by
  intro m
  obtain ⟨hn, -, hk, hklen, -⟩ := pub_of_inv hI hr.slot
  rw [hk] at hklen
  have hlt : m < s.pub.n := by
    show os2ip (oaepEncode C h _ _ s.pub.klen _) < _
    rw [hklen] at hfit ⊢
    exact os2ip_oaepEncode_lt (hr.hash h rfl) hn (by omega) (length_draw ..)
  rw [runAt_esOaepEncrypt_of_ready hr, if_neg hfit.not_gt, inDomain_of_lt hlt, complete_done]
  exact ⟨hlt, rfl⟩

/-- Settles O43: the string of the statement is `oaepEncode` under the seed drawn. -/
theorem oaepEncodeAndEncrypt : Obligations.OaepEncodeAndEncrypt := by
  refine ⟨by decide, by decide, fun s h => ⟨checksFirst _ s, checksFirst _ s, fun hr => ?encode, fun hI hr => ?encrypt⟩⟩
  case encode =>
    rw [exec_eq_runAt, runAt_oaepEncode_of_ready hr]
    refine ⟨fun hbits => ?_, fun hbits hcap => ?_, fun hbits hfit => ⟨_, length_draw cfg s _, ?_, ?_⟩⟩
    · rw [if_pos hbits, complete_error, draws_zero]
    · rw [if_neg (not_not.mpr hbits), if_pos hcap, complete_error, draws_zero]
    · exact length_oaepEncode (hr.hash h rfl) (by omega) (length_draw ..)
    · rw [if_neg (not_not.mpr hbits), if_neg hfit.not_gt, complete_done]
      rfl
  case encrypt =>
    rw [exec_eq_runAt]
    refine ⟨fun hcap => ?_, fun hfit => ⟨_, length_draw cfg s _, ?_⟩⟩
    · rw [runAt_esOaepEncrypt_of_ready hr, if_pos hcap, complete_error, draws_zero]
    · rw [(runAt_esOaepEncrypt_of_fits hI hr hfit).2]
      rfl

/-- R173, R175: the completion with the decoder's answer, by the encodings that `oaepDecode_iff` characterises. -/
theorem complete_oaepDecode {C : Config} {h : Sel} (hs : (C.hashes h).isSome = true) {EM L : Bytes}
    (hk : 2 * hLen C h + 2 ≤ EM.length) (s : State) :
    let IsEncoding := fun M : Bytes => ∃ seed : Bytes, seed.length = hLen C h ∧ M.length + 2 * hLen C h + 2 ≤ EM.length ∧
      EM = oaepEncode C h M L EM.length seed
    (∀ M, IsEncoding M → complete (decoded (oaepDecode C h EM L)) s = deliver M [] s) ∧
      ((∀ M, ¬ IsEncoding M) → complete (decoded (oaepDecode C h EM L)) s = raise .fail s) := by
  refine ⟨fun M hM => ?_, fun hno => ?_⟩
  · rw [(oaepDecode_iff hs EM L M hk).mpr hM, complete_decoded_some]
  · rw [Option.eq_none_iff_forall_ne_some.mpr fun M hM => hno M ((oaepDecode_iff hs EM L M hk).mp hM), complete_decoded_none]

/-- Settles O44: after the checks both commands complete with the decoder's answer (`complete_oaepDecode`). -/
theorem oaepDecodeAndDecrypt : Obligations.OaepDecodeAndDecrypt := by
  refine ⟨by decide, by decide, fun s h crt => ⟨checksFirst _ s, checksFirst _ s, fun hr => ?decode, fun hr => ?decrypt⟩⟩
  case decode =>
    rw [exec_eq_runAt, runAt_oaepDecode_of_ready hr]
    have hdecoded (hk) := complete_oaepDecode (hr.hash h rfl) (EM := s.operand .inp) (L := s.operand .label) hk s
    refine ⟨fun hcap => ?_, fun M hk hM => ?_, fun hk hno => ?_⟩
    · rw [if_pos hcap, complete_error, draws_zero]
    · rw [if_neg hk.not_gt, (hdecoded hk).1 M hM]
    · rw [if_neg hk.not_gt, (hdecoded hk).2 hno]
  case decrypt =>
    rw [exec_eq_runAt, runAt_esOaepDecrypt_of_ready hr]
    have hdecoded (hk : 2 * hLen cfg h + 2 ≤ (s.privMod crt).klen) := complete_oaepDecode (hr.hash h rfl)
      (EM := i2os (privPower s crt (s.intOperand .inp)) (s.privMod crt).klen) (L := s.operand .label)
      (by rwa [length_i2os]) s
    refine ⟨fun hcap => ?_, fun hk hle => ?_, fun M hk hlt hM => ?_, fun hk hlt hno => ?_⟩
    · rw [if_pos hcap, complete_error, draws_zero]
    · rw [if_neg hk.not_gt, inDomain_of_le hle, complete_error, draws_zero]
    · rw [if_neg hk.not_gt, inDomain_of_lt hlt, (hdecoded hk).1 M hM]
    · rw [if_neg hk.not_gt, inDomain_of_lt hlt, (hdecoded hk).2 hno]

/-- Settles O45: the private power gives the encoding back, which is that of the message under the same label. -/
theorem esOaepDecryptInvertsEncrypt : Obligations.EsOaepDecryptInvertsEncrypt := by
  intro C s u h crt hmax hI hkey hr hfit hupriv hucrt hru hlabel hinp
  obtain ⟨p, q, d, hK⟩ := exists_rsaKey hkey
  obtain ⟨hn, he, -, -, hbuf⟩ := pub_of_inv hI hr.slot
  have hs : (C.hashes h).isSome = true := hr.hash h rfl
  have hmod : u.privMod crt = s.pubMod :=
    (privMod_congr hupriv hucrt crt).trans (hK.privMod_eq hI hr.slot (slotValid_congr hupriv hucrt crt ▸ hru.slot))
  have hklen : (u.privMod crt).klen = s.pub.klen := by rw [hmod]; rfl
  obtain ⟨hlt, hrun⟩ := runAt_esOaepEncrypt_of_fits hI hr hfit
  rw [hrun] at hinp ⊢
  have hc := intOperand_of_delivered hmax hbuf (pubPower_lt_pow_klen hI hr.slot _) hinp
  refine ⟨rfl, ?_⟩
  have hdom : u.intOperand .inp < (u.privMod crt).n := by
    rw [hc, hmod]
    exact Nat.mod_lt _ hn
  have hlen := length_oaepEncode hs (M := s.operand .msg) (L := s.operand .label) (klen := s.pub.klen) (by omega)
    (length_draw C s (hLen C h))
  have hEM : i2os (privPower u crt (u.intOperand .inp)) (u.privMod crt).klen =
      oaepEncode C h (s.operand .msg) (s.operand .label) s.pub.klen (draw C s (hLen C h)) := by
    rw [hc, privPower_congr hupriv hucrt, hK.privPower_pubPower he hlt, hklen]
    exact i2os_os2ip_of_length hlen
  rw [runAt_esOaepDecrypt_of_ready hru, if_neg (by omega), inDomain_of_lt hdom, hEM, hlabel]
  refine (complete_oaepDecode hs (by omega) u).1 _ ⟨_, length_draw C s (hLen C h), by omega, ?_⟩
  rw [hlen]

end Sys2Proof.Machine

/-! PROOFS of the statements about signatures of PKCS#1: PSS (44_emsa_pss.md: R204, R206 to R209) and the verification of what a
sign command delivered (R189, R209). -/

namespace Sys2Proof.Machine

/-! ## The commands of PSS, once the common checks passed -/

theorem runAt_pssEncode_of_ready {C : Config} {s : State} {h : Sel} {ss sld : Bool} (hr : Ready C (.pssEncode h ss sld) s) :
    runAt C (.pssEncode h ss sld) s = complete
      (if ceil8 s.embits.toNat < hLen C h + saltLen C h sld s + 2 then .error .capacity 0
       else .done (pssEncode C h (s.operand .msg) s.embits.toNat (saltOf C h ss sld s)) [] (saltDrawn C h ss sld s)) s :=
  runAt_of_ready hr _ rfl

theorem runAt_ssaPssSign_of_ready {C : Config} {s : State} {h : Sel} {crt ss sld : Bool}
    (hr : Ready C (.ssaPssSign h crt ss sld) s) :
    let K := s.privMod crt
    let m := os2ip (pssEncode C h (s.operand .msg) (K.k - C.pssSlack) (saltOf C h ss sld s))
    runAt C (.ssaPssSign h crt ss sld) s = complete
      (if ceil8 (K.k - C.pssSlack) < hLen C h + saltLen C h sld s + 2 then .error .capacity 0
       else inDomain m K.n (saltDrawn C h ss sld s) (.done (i2os (privPower s crt m) K.klen) [] (saltDrawn C h ss sld s))) s := by
  intro K m
  rw [← privExp_eq_privPower]
  exact runAt_of_ready hr _ rfl

theorem runAt_pssCheck_of_ready {C : Config} {s : State} {h : Sel} {sld : Bool} (hr : Ready C (.pssCheck h sld) s) :
    runAt C (.pssCheck h sld) s = complete (if (s.len .inp).toNat ≠ ceil8 s.embits.toNat then .error .param 0
      else verdict (pssCheck C h (s.operand .msg) (s.operand .inp) s.embits.toNat (saltLen C h sld s))) s :=
  runAt_of_ready hr _ rfl

theorem runAt_ssaPssVerify_of_ready {C : Config} {s : State} {h : Sel} {sld : Bool} (hr : Ready C (.ssaPssVerify h sld) s) :
    let emBits := s.pub.k - C.pssSlack
    let m := pubPower s (s.intOperand .inp)
    runAt C (.ssaPssVerify h sld) s = complete (inDomain (s.intOperand .inp) s.pub.n 0
      (if 256 ^ ceil8 emBits ≤ m then .error .fail 0
       else verdict (pssCheck C h (s.operand .msg) (i2os m (ceil8 emBits)) emBits (saltLen C h sld s)))) s := by
  intro emBits m
  rw [← show s.pubExp (s.intOperand .inp) = m from pubExp_eq_pubPower ..]
  exact runAt_of_ready hr _ rfl

/-- R203: a supplied salt is the operand SALT. -/
theorem saltOf_supplied (C : Config) (h : Sel) {ss : Bool} (hss : ss = true) (sld : Bool) (s : State) :
    saltOf C h ss sld s = s.operand .salt := by
  subst hss
  rfl

/-- Settles O47: the string of the statement is `pssEncode` under the salt that `saltOf` gives; it is below `2^emBits`, so the
domain check never fails. -/
theorem pssEncodeAndSign : Obligations.PssEncodeAndSign := by
  refine ⟨by decide, by decide, fun s h crt ss sld => ?_⟩
  intro hl M sLen SaltOk EM used
  have hEM {salt : Bytes} (hsalt : salt.length = sLen) (emBits : Nat) : EM emBits salt = pssEncode cfg h M emBits salt := by
    simp only [EM, ← hsalt]
    rfl
  refine ⟨checksFirst _ s, checksFirst _ s, fun hr => ?encode, fun hI hr => ?sign⟩
  case encode =>
    have hs : (cfg.hashes h).isSome = true := hr.hash h rfl
    have hsalt : (saltOf cfg h ss sld s).length = sLen := length_saltOf hr.flags cfg h s
    rw [exec_eq_runAt, runAt_pssEncode_of_ready hr]
    refine ⟨fun (hcap : ceil8 s.embits.toNat < hLen cfg h + saltLen cfg h sld s + 2) => ?_,
      fun (hfit : hLen cfg h + saltLen cfg h sld s + 2 ≤ ceil8 s.embits.toNat) =>
        ⟨saltOf cfg h ss sld s, ⟨hsalt, fun hss => saltOf_supplied cfg h hss sld s⟩, ?_⟩⟩
    · rw [if_pos hcap, complete_error, draws_zero]
    · have hfit' : hLen cfg h + (saltOf cfg h ss sld s).length + 2 ≤ ceil8 s.embits.toNat := hsalt ▸ hfit
      rw [hEM hsalt]
      refine ⟨length_pssEncode hs hfit', os2ip_pssEncode_lt hs hfit', ?_⟩
      rw [if_neg hfit.not_gt, complete_done]
      rfl
  case sign =>
    have hs : (cfg.hashes h).isSome = true := hr.hash h rfl
    have hsalt : (saltOf cfg h ss sld s).length = sLen := length_saltOf hr.flags cfg h s
    obtain ⟨hn, hk, -, -, -⟩ := privMod_of_inv hI hr.slot
    rw [exec_eq_runAt, runAt_ssaPssSign_of_ready hr]
    refine ⟨fun (hcap : ceil8 ((s.privMod crt).k - cfg.pssSlack) < hLen cfg h + saltLen cfg h sld s + 2) => ?_,
      fun (hfit : hLen cfg h + saltLen cfg h sld s + 2 ≤ ceil8 ((s.privMod crt).k - cfg.pssSlack)) =>
        ⟨saltOf cfg h ss sld s, ⟨hsalt, fun hss => saltOf_supplied cfg h hss sld s⟩, ?_⟩⟩
    · rw [if_pos hcap, complete_error, draws_zero]
    · have hfit' : hLen cfg h + (saltOf cfg h ss sld s).length + 2 ≤ ceil8 ((s.privMod crt).k - 1) := hsalt ▸ hfit
      have hlt : os2ip (pssEncode cfg h M ((s.privMod crt).k - 1) (saltOf cfg h ss sld s)) < (s.privMod crt).n :=
        lt_of_lt_two_pow hn (hk ▸ os2ip_pssEncode_lt hs hfit')
      rw [hEM hsalt, if_neg hfit.not_gt]
      exact congrArg (fun r => Host.Outcome.next (complete r s)) (inDomain_of_lt hlt)

/-! ## Acceptance -/

@[simp] theorem complete_verdict_true (s : State) : complete (verdict true) s = deliver [] [] s := rfl

@[simp] theorem complete_verdict_false (s : State) : complete (verdict false) s = raise .fail s := rfl

/-- R205, R208: an integer is the value of a PSS encoding exactly when it fits in `emLen` octets and these octets pass the check. -/
theorem exists_pssEncode_iff {C : Config} {h : Sel} (hs : (C.hashes h).isSome = true) (M : Bytes) (emBits sLen x : Nat) :
    (hLen C h + sLen + 2 ≤ ceil8 emBits ∧ ∃ salt : Bytes, salt.length = sLen ∧ x = os2ip (pssEncode C h M emBits salt)) ↔
      x < 256 ^ ceil8 emBits ∧ pssCheck C h M (i2os x (ceil8 emBits)) emBits sLen = true := by
  rw [pssCheck_iff hs M _ emBits sLen (length_i2os ..)]
  have hlen {salt : Bytes} (hfit : hLen C h + sLen + 2 ≤ ceil8 emBits) (hsalt : salt.length = sLen) :
      (pssEncode C h M emBits salt).length = ceil8 emBits := length_pssEncode hs (hsalt ▸ hfit)
  constructor
  · rintro ⟨hfit, salt, hsalt, rfl⟩
    have hX := hlen hfit hsalt
    exact ⟨hX ▸ os2ip_lt _, hfit, salt, hsalt, i2os_os2ip_of_length hX⟩
  · rintro ⟨hx, hfit, salt, hsalt, hX⟩
    exact ⟨hfit, salt, hsalt, (i2os_eq_iff hx (hlen hfit hsalt)).mp hX⟩

/-- Settles O48: both commands compare with the encodings, PSS_CHECK the octets of IN and SSA_PSS_VERIFY those of the power. -/
theorem pssCheckAndVerify : Obligations.PssCheckAndVerify := by
  refine ⟨by decide, by decide, fun s h sld => ?_⟩
  intro hl sLen IsEncoding
  refine ⟨checksFirst _ s, checksFirst _ s, fun hr => ?check, fun hr => ?verify⟩
  case check =>
    have hs : (cfg.hashes h).isSome = true := hr.hash h rfl
    have haccept (hsized : (s.len .inp).toNat = ceil8 s.embits.toNat) : IsEncoding s.embits.toNat (s.intOperand .inp) ↔
        pssCheck cfg h (s.operand .msg) (s.operand .inp) s.embits.toNat sLen = true := by
      have hlen : (s.operand .inp).length = ceil8 s.embits.toNat := by rw [State.operand_length, hsized]
      refine (exists_pssEncode_iff hs ..).trans ?_
      rw [State.intOperand, i2os_os2ip_of_length hlen]
      exact and_iff_right (hlen ▸ os2ip_lt _)
    rw [exec_eq_runAt, runAt_pssCheck_of_ready hr]
    refine ⟨fun (hsized : (s.len .inp).toNat ≠ ceil8 s.embits.toNat) => ?_,
      fun (hsized : (s.len .inp).toNat = ceil8 s.embits.toNat) hM => ?_,
      fun (hsized : (s.len .inp).toNat = ceil8 s.embits.toNat) hno => ?_⟩
    · rw [if_pos hsized, complete_error, draws_zero]
    · rw [if_neg (not_not.mpr hsized), show saltLen cfg h sld s = sLen from rfl, (haccept hsized).mp hM, complete_verdict_true]
    · rw [if_neg (not_not.mpr hsized), show saltLen cfg h sld s = sLen from rfl,
        Bool.eq_false_iff.mpr (mt (haccept hsized).mpr hno), complete_verdict_false]
  case verify =>
    have haccept := exists_pssEncode_iff (hr.hash h rfl) (s.operand .msg) (s.pub.k - cfg.pssSlack) sLen
      (pubPower s (s.intOperand .inp))
    rw [exec_eq_runAt, runAt_ssaPssVerify_of_ready hr]
    refine ⟨fun hle => ?_, fun hlt hM => ?_, fun hlt hno => ?_⟩
    · rw [inDomain_of_le hle, complete_error, draws_zero]
    · obtain ⟨hx, hcheck⟩ := haccept.mp hM
      rw [inDomain_of_lt hlt, if_neg (Nat.not_le.mpr hx)]
      exact congrArg (fun b => Host.Outcome.next (complete (verdict b) s)) hcheck
    · rw [inDomain_of_lt hlt]
      by_cases hx : pubPower s (s.intOperand .inp) < 256 ^ ceil8 (s.pub.k - cfg.pssSlack)
      · have hcheck := Bool.eq_false_iff.mpr fun hcheck => hno (haccept.mpr ⟨hx, hcheck⟩)
        rw [if_neg (Nat.not_le.mpr hx)]
        exact congrArg (fun b => Host.Outcome.next (complete (verdict b) s)) hcheck
      · rw [if_pos (Nat.not_lt.mp hx), complete_error, draws_zero]

/-! ## Verifying what a sign command delivered -/

/-- R187, R207: a sign rule that ends with E_OK passed its capacity and its domain check. -/
theorem deliver_of_err_ok {p : Prop} [Decidable p] {m n used : Nat} {out aux : Bytes} {s : State}
    (h : (complete (if p then .error .capacity 0 else inDomain m n used (.done out aux used)) s).err = .ok) :
    ¬ p ∧ m < n ∧ complete (if p then .error .capacity 0 else inDomain m n used (.done out aux used)) s =
      deliver out aux (s.draws used) := by
  by_cases hp : p
  · rw [if_pos hp] at h
    cases h
  · rw [if_neg hp] at h ⊢
    by_cases hlt : m < n
    · exact ⟨hp, hlt, by rw [inDomain_of_lt hlt, complete_done]⟩
    · rw [inDomain_of_le (Nat.not_lt.mp hlt)] at h
      cases h

theorem runAt_ssaV15Sign_of_ready {C : Config} {s : State} {h : Sel} {crt : Bool} (hr : Ready C (.ssaV15Sign h crt) s) :
    let K := s.privMod crt
    let m := os2ip (emsaV15Encode C h (s.operand .msg) K.klen)
    runAt C (.ssaV15Sign h crt) s = complete (if K.klen < C.tLen h + 11 then .error .capacity 0
      else inDomain m K.n 0 (.done (i2os (privPower s crt m) K.klen) [] 0)) s := by
  intro K m
  rw [← privExp_eq_privPower]
  exact runAt_of_ready hr _ rfl

theorem runAt_ssaV15Verify_of_ready {C : Config} {s : State} {h : Sel} (hr : Ready C (.ssaV15Verify h) s) :
    runAt C (.ssaV15Verify h) s = complete (if s.pub.klen < C.tLen h + 11 then .error .capacity 0
      else inDomain (s.intOperand .inp) s.pub.n 0
        (if i2os (pubPower s (s.intOperand .inp)) s.pub.klen ≠ emsaV15Encode C h (s.operand .msg) s.pub.klen
         then .error .fail 0 else .done [] [] 0)) s := by
  rw [← pubExp_eq_pubPower]
  exact runAt_of_ready hr _ rfl

/-- R122, R131: the private power fits in the `klen` octets of its modulus. -/
theorem privPower_lt_pow_klen {C : Config} {s : State} {crt : Bool} (hI : Inv C s) (hv : s.slotValid (.priv crt) = true)
    (c : Nat) : privPower s crt c < 256 ^ (s.privMod crt).klen := by
  obtain ⟨-, hk, hklen, -, hlt⟩ := privMod_of_inv hI hv
  rw [hklen, hk]
  exact (hlt c).trans (lt_pow_ceil8_bitlen _)

/-- R189, R209: with a consistent key, the verifying side meets a representative below the modulus, whose public power is the
integer that was signed. -/
theorem RsaKey.opened {C : Config} {s u : State} {crt : Bool} {p q d m : Nat} {aux : Bytes} {v : State}
    (hK : RsaKey s crt p q d) (hmax : C.maxBuf < 2 ^ 32) (hI : Inv C s) (hpriv : s.slotValid (.priv crt) = true)
    (hpub : s.pub.valid = true) (hupub : u.pub = s.pub) (hm : m < (s.privMod crt).n)
    (hinp : u.operand .inp = (deliver (i2os (privPower s crt m) (s.privMod crt).klen) aux v).operand .out) :
    u.intOperand .inp < u.pub.n ∧ pubPower u (u.intOperand .inp) = m := by
  obtain ⟨-, -, -, hbuf, hlt⟩ := privMod_of_inv hI hpriv
  obtain ⟨-, he, -, -, -⟩ := pub_of_inv hI hpub
  rw [hK.privMod_n] at hm
  rw [intOperand_of_delivered hmax hbuf (privPower_lt_pow_klen hI hpriv m) hinp, hupub, pubPower_congr hupub]
  exact ⟨hK.privMod_n ▸ hlt m, hK.pubPower_privPower he hm⟩

/-- Settles O49: the public power of the signature is the encoded message that was signed (`RsaKey.opened`), which the verify
command builds again (v1.5) or accepts by `exists_pssEncode_iff` (PSS). -/
theorem pkcs1VerifyAcceptsSignatures : Obligations.Pkcs1VerifyAcceptsSignatures := by
  intro C s u h crt ss sld sld' hmax hI hkey hupub hmsg
  obtain ⟨p, q, d, hK⟩ := exists_rsaKey hkey
  refine ⟨fun hr hok hru hinp => ?v15, fun hr hok hru hslen hinp => ?pss⟩
  case v15 =>
    have hpub : s.pub.valid = true := hupub ▸ hru.slot
    rw [runAt_ssaV15Sign_of_ready hr] at hok hinp
    obtain ⟨hcap, hlt, hrun⟩ := deliver_of_err_ok hok
    rw [hrun] at hinp
    obtain ⟨hdom, hpower⟩ := hK.opened hmax hI hr.slot hpub hupub hlt hinp
    have hklen : (s.privMod crt).klen = u.pub.klen := by rw [hK.privMod_eq hI hpub hr.slot, hupub]; rfl
    rw [hklen] at hcap hpower
    have hsame : i2os (pubPower u (u.intOperand .inp)) u.pub.klen = emsaV15Encode C h (u.operand .msg) u.pub.klen := by
      rw [hpower, hmsg]
      exact i2os_os2ip_of_length (length_emsaV15Encode (hr.hash h rfl) (Nat.not_lt.mp hcap))
    rw [runAt_ssaV15Verify_of_ready hru, if_neg hcap, inDomain_of_lt hdom, if_neg (not_not.mpr hsame), complete_done, draws_zero]
  case pss =>
    have hpub : s.pub.valid = true := hupub ▸ hru.slot
    rw [runAt_ssaPssSign_of_ready hr] at hok hinp
    obtain ⟨hcap, hlt, hrun⟩ := deliver_of_err_ok hok
    rw [hrun] at hinp
    obtain ⟨hdom, hpower⟩ := hK.opened hmax hI hr.slot hpub hupub hlt hinp
    have hk : (s.privMod crt).k = u.pub.k := by rw [hK.privMod_eq hI hpub hr.slot, hupub]; rfl
    rw [hk] at hcap hpower
    rw [← hslen] at hcap
    obtain ⟨hfits, hcheck⟩ := (exists_pssEncode_iff (hr.hash h rfl) (u.operand .msg) (u.pub.k - C.pssSlack) (saltLen C h sld' u)
      (pubPower u (u.intOperand .inp))).mp
      ⟨Nat.not_lt.mp hcap, _, (length_saltOf hr.flags C h s).trans hslen.symm, hmsg ▸ hpower⟩
    rw [runAt_ssaPssVerify_of_ready hru, inDomain_of_lt hdom, if_neg hfits.not_ge, hcheck, complete_verdict_true]

end Sys2Proof.Machine

/-! PROOFS of the statements about ISO/IEC 9796-2 ds1 (45_iso9796_ds1.md: R221 to R229) and the trailer that the three formats
share (R223). -/

namespace Sys2Proof.Machine

/-! ## The pad region -/

theorem bitsVal_nibbleB_append (X : List Bool) : bitsVal (nibbleB ++ X) = 11 * 2 ^ X.length + bitsVal X :=
  bitsVal_append nibbleB X

/-- R224: an even number of nibbles after the header is a row of octets BB that ends in BA. -/
theorem bitsVal_padNibbles_odd (j : Nat) :
    bitsVal (padNibbles (2 * j + 1)) = os2ip (List.replicate j 0xBB ++ [0xBA]) := by
  induction j with
  | zero => rfl
  | succ j ih =>
    have hlen : (List.replicate j (0xBB : Byte) ++ [0xBA]).length = j + 1 := by simp
    have hpow : (2 : Nat) ^ (4 * (2 * j + 1 + 1)) = 256 ^ (j + 1) := by
      rw [show 4 * (2 * j + 1 + 1) = 8 * (j + 1) by ring, pow_mul]
      rfl
    rw [show 2 * (j + 1) + 1 = (2 * j + 1) + 1 + 1 by ring, padNibbles, padNibbles, bitsVal_nibbleB_append,
      bitsVal_nibbleB_append, List.length_append, padNibbles_length, ih, List.replicate_succ, List.cons_append, os2ip_cons, hlen,
      pow_add, hpow]
    show 11 * (2 ^ 4 * 256 ^ (j + 1)) + (11 * 256 ^ (j + 1) + _) = 187 * 256 ^ (j + 1) + _
    ring

/-- R224: at a whole number of octets the header nibble stands beside a nibble B. -/
theorem ds1PadStd_octets (j : Nat) (m : Bool) :
    ds1PadStd (8 * (j + 2)) m = [false, true, m, false] ++ (nibbleB ++ padNibbles (2 * j + 1)) := by
  have hq : (8 * (j + 2) - 3) / 4 = 2 * j + 3 := by omega
  have hr : (8 * (j + 2) - 3) % 4 = 1 := by omega
  rw [ds1PadStd, hq, hr, if_neg (by omega)]
  rfl

/-- R224: the octets of the pad region. -/
theorem bitsToBytes_ds1PadStd (j : Nat) (m : Bool) :
    bitsToBytes (ds1PadStd (8 * (j + 2)) m) = (if m then 0x6B else 0x4B) :: List.replicate j 0xBB ++ [0xBA] := by
  have htail : (List.replicate j (0xBB : Byte) ++ [0xBA]).length = j + 1 := by simp
  have hlen : (ds1PadStd (8 * (j + 2)) m).length / 8 = j + 2 := by rw [ds1PadStd_length _ _ (by omega)]; omega
  have hpow : (2 : Nat) ^ (4 * (2 * j + 1 + 1)) = 256 ^ (j + 1) := by
    rw [show 4 * (2 * j + 1 + 1) = 8 * (j + 1) by ring, pow_mul]
    rfl
  have hval : bitsVal (ds1PadStd (8 * (j + 2)) m) =
      os2ip ((if m then 0x6B else 0x4B) :: (List.replicate j 0xBB ++ [0xBA])) := by
    rw [ds1PadStd_octets, bitsVal_append, bitsVal_nibbleB_append, List.length_append, padNibbles_length, bitsVal_padNibbles_odd,
      os2ip_cons, htail, pow_add, hpow]
    cases m
    · show 4 * (2 ^ 4 * 256 ^ (j + 1)) + (11 * 256 ^ (j + 1) + _) = 75 * 256 ^ (j + 1) + _
      ring
    · show 6 * (2 ^ 4 * 256 ^ (j + 1)) + (11 * 256 ^ (j + 1) + _) = 107 * 256 ^ (j + 1) + _
      ring
  rw [bitsToBytes, hlen, hval]
  exact i2os_os2ip_of_length (by simp)

/-- Settles O50: the lengths that the rule lists by computation, a whole number of octets by `bitsToBytes_ds1PadStd`. -/
theorem ds1PadRegion : Obligations.Ds1PadRegion :=
  ⟨fun _ => ⟨rfl, rfl, rfl, rfl, rfl⟩, fun j m => ⟨by cases m <;> rfl, bitsToBytes_ds1PadStd j m⟩⟩

/-! ## The trailer -/

theorem trailer_eq_none {C : Config} {h : Sel} (hid : hashID C h = none) : trailer C h false = none := by
  simp [trailer, hid]

/-- Settles O51: there is no trailer to sign with. -/
theorem explicitTrailerNeedsIdentifier : Obligations.ExplicitTrailerNeedsIdentifier := by
  intro C s h um crt ss sld hid
  refine ⟨fun hr => ?_, fun hr => ?_, fun hr => ?_⟩
  · rw [runAt_of_ready hr _ rfl, trailer_eq_none hid]; rfl
  · rw [runAt_of_ready hr _ rfl, trailer_eq_none hid]; rfl
  · rw [runAt_of_ready hr _ rfl, trailer_eq_none hid]; rfl

/-- R228, R246, R257: the published integer, as the statements write it. -/
theorem published_eq_canonicalS (um : Bool) (S n : Nat) : published um S n = canonicalS um S n := by
  cases um
  · rfl
  · simp only [published, canonicalS, if_true, true_and, minSel]
    split <;> omega

/-! ## DS1_SIGN and DS1_VERIFY, once the common checks passed -/

theorem runAt_ds1Sign_of_trailer {C : Config} {s : State} {h : Sel} {it um crt : Bool} {T : Bytes}
    (hr : Ready C (.ds1Sign h it um crt) s) (hT : TrailerIs C h it T) :
    let K := s.privMod crt
    let D := ds1Dsi C h (s.operand .msg) K.k T
    runAt C (.ds1Sign h it um crt) s = complete (if K.k < 8 * hLen C h + 8 * T.length + 4 then .error .capacity 0
      else inDomain D.1 K.n 0 (.done (i2os (canonicalS um (privPower s crt D.1) K.n) K.klen) D.2.2 0)) s := by
  intro K D
  rw [runAt_of_ready hr _ rfl, (trailer_eq_some_iff C h it T).mpr hT]
  simp only [ds1Cap_neg_iff, privExp_eq_privPower, published_eq_canonicalS]
  rfl

theorem runAt_ds1Verify_of_ready {C : Config} {s : State} {h : Sel} (hr : Ready C (.ds1Verify h) s) :
    runAt C (.ds1Verify h) s = complete (if s.pub.k < 8 * hLen C h + 12 then .error .capacity 0
      else inDomain (s.intOperand .inp) s.pub.n 0 (decoded (ds1Recover C h s (s.intOperand .inp) (s.operand .msg)))) s := by
  rw [runAt_of_ready hr _ rfl]
  simp only [ds1Cap_neg_iff]

/-- R222, R225: the DSI of a message that is split as the capacity says. -/
theorem ds1Dsi_of_split {C : Config} {h : Sel} {M M1 M2 T : Bytes} {k : Nat} (hM : M = M1 ++ M2)
    (hlen : M1.length = min M.length ((k - (8 * hLen C h + 8 * T.length + 4)) / 8)) :
    let body := M1 ++ C.hash h (M1 ++ M2) ++ T
    ds1Dsi C h M k T = (bitsVal (C.ds1Pad (k - 8 * body.length) (decide (M2 ≠ []))) * 2 ^ (8 * body.length) + os2ip body,
      M1, M2) := by
  intro body
  have hcap : (ds1Cap C h k T.length).toNat = k - (8 * hLen C h + 8 * T.length + 4) := by unfold ds1Cap; omega
  have htake : M.take M1.length = M1 := by rw [hM, List.take_left]
  have hdrop : M.drop M1.length = M2 := by rw [hM, List.drop_left]
  have htail : decide (0 < M2.length) = decide (M2 ≠ []) := by simp only [List.length_pos_iff]
  simp only [ds1Dsi, hcap, ← hlen, htake, hdrop, htail]
  rw [hM]

/-- Settles O52: the DSI of the statement is `ds1Dsi` of the split message, below the modulus and with the low nibble of the
trailer. -/
theorem ds1SignDeliversSignatureAndTail : Obligations.Ds1SignDeliversSignatureAndTail := by
  refine ⟨by decide, fun s h it um crt => ⟨checksFirst _ s, fun hI hr T hT => ?_⟩⟩
  have hs : (cfg.hashes h).isSome = true := hr.hash h rfl
  obtain ⟨hn, hk, -, -, -⟩ := privMod_of_inv hI hr.slot
  rw [exec_eq_runAt, runAt_ds1Sign_of_trailer hr hT]
  refine ⟨fun hcap => ?_, fun hfit M1 M2 hM hlen => ?_⟩
  · rw [if_pos hcap, complete_error, draws_zero]
  · have hD := ds1Dsi_of_split hM hlen
    have hlt := ds1Dsi_lt hs hn hT (hk ▸ hfit) (s.operand .msg)
    obtain ⟨-, -, hlow⟩ := ds1Parse_ds1Dsi (M := s.operand .msg) hs hT hfit
    rw [← hk] at hlt
    rw [if_neg hfit.not_gt, inDomain_of_lt hlt, complete_done, draws_zero]
    rw [hD] at hlt hlow ⊢
    exact ⟨hlt, hlow, rfl⟩

/-- Settles O53: after the checks the command completes with what `ds1Recover_iff` says. -/
theorem ds1VerifyAcceptsExactlyDsis : Obligations.Ds1VerifyAcceptsExactlyDsis := by
  refine ⟨by decide, fun s h => ⟨checksFirst _ s, fun hI hr => ?_⟩⟩
  intro sig M2 IsDsi
  have hiff (M1 : Bytes) := ds1Recover_iff (hr.hash h rfl) s sig M1 M2
  rw [exec_eq_runAt, runAt_ds1Verify_of_ready hr]
  refine ⟨fun hcap => ?_, fun hfit hle => ?_, fun J M1 hfit hlt hopens hdsi => ?_, fun hfit hlt hno => ?_⟩
  · rw [if_pos hcap, complete_error, draws_zero]
  · rw [if_neg hfit.not_gt, inDomain_of_le hle, complete_error, draws_zero]
  · obtain ⟨it, T, hT, hk, hD⟩ := hdsi
    rw [if_neg hfit.not_gt, inDomain_of_lt hlt, (hiff M1).mpr ⟨J, it, T, hopens, hT, hk, hD⟩, complete_decoded_some]
  · have hnone : ds1Recover cfg h s sig M2 = none := by
      refine Option.eq_none_iff_forall_ne_some.mpr fun M1 hM1 => ?_
      obtain ⟨J, it, T, hopens, hT, hk, hD⟩ := (hiff M1).mp hM1
      exact hno J M1 hopens ⟨it, T, hT, hk, hD⟩
    rw [if_neg hfit.not_gt, inDomain_of_lt hlt, hnone, complete_decoded_none]

end Sys2Proof.Machine

/-! PROOFS of the statements about ISO/IEC 9796-2 ds2 and ds3 (46_iso9796_ds2.md: R241 to R247; 47_iso9796_ds3.md: R256 to
R258). -/

namespace Sys2Proof.Machine

/-! ## The shared rules -/

theorem isoSign_eq (C : Config) (h : Sel) (um crt : Bool) (s : State) (M1 M2 salt T : Bytes) (used : Nat) :
    isoSign C h um crt s M1 M2 salt T used =
      let x := os2ip (isoPssEm C h M1 M2 salt (s.privMod crt).k T)
      inDomain x (s.privMod crt).n used
        (.done (i2os (canonicalS um (privPower s crt x) (s.privMod crt).n) (s.privMod crt).klen) M2 used) := by
  simp only [isoSign, privExp_eq_privPower, published_eq_canonicalS]

/-- R247, R258: the two capacity checks of a verify command are one. -/
theorem isoVerify_eq (C : Config) (h : Sel) (s : State) (sLen : Nat) :
    isoVerify C h s sLen =
      if 8 * hLen C h + 10 ≤ s.pub.k ∧ sLen ≤ (s.pub.k - 8 * hLen C h - 10) / 8 then
        inDomain (s.intOperand .inp) s.pub.n 0 (decoded (isoRecover C h s (s.intOperand .inp) (s.operand .msg) sLen))
      else .error .capacity 0 := by
  simp only [isoVerify, isoCap_neg_iff, isoCap_toNat]
  by_cases hcap : s.pub.k < 8 * hLen C h + 8 * 1 + 2
  · rw [if_pos hcap, if_neg (by omega)]
  · rw [if_neg hcap]
    by_cases hsalt : (s.pub.k - (8 * hLen C h + 8 * 1 + 2)) / 8 < sLen
    · rw [if_pos hsalt, if_neg (by omega)]
    · rw [if_neg hsalt, if_pos (by omega)]

/-! ## The commands, once the common checks passed -/

/-- R243, R256: the two parts of a message, `M1` of at most `m` octets. -/
structure Split (M M1 M2 : Bytes) (m : Nat) : Prop where
  append : M = M1 ++ M2
  length : M1.length = min M.length m

theorem exists_split (M : Bytes) (m : Nat) : ∃ M1 M2, Split M M1 M2 m :=
  ⟨M.take m, M.drop m, (List.take_append_drop m M).symm, List.length_take.trans (min_comm ..)⟩

theorem Split.take_drop {M M1 M2 : Bytes} {m : Nat} (h : Split M M1 M2 m) :
    M.take (min M.length m) = M1 ∧ M.drop (min M.length m) = M2 := by
  rw [← h.length, h.append]
  exact ⟨List.take_left, List.drop_left⟩

section
variable {C : Config} {s : State} {h : Sel} {it um crt ss sld : Bool} {T M1 M2 : Bytes}

/-- R246: the checks of DS2_SIGN and its signature. -/
theorem runAt_ds2Sign_of_split (hr : Ready C (.ds2Sign h it um crt ss sld) s) (hT : TrailerIs C h it T) {fixed cOct sLen : Nat}
    (hfixed : fixed = 8 * hLen C h + 8 * T.length + 2) (hcOct : cOct = ((s.privMod crt).k - fixed) / 8)
    (hsLen : sLen = saltLen C h sld s) (hM : Split (s.operand .msg) M1 M2 (cOct - sLen)) :
    runAt C (.ds2Sign h it um crt ss sld) s = complete
      (if (s.privMod crt).k < fixed then .error .capacity 0
       else if cOct < sLen then .error .capacity 0
       else isoSign C h um crt s M1 M2 (saltOf C h ss sld s) T (saltDrawn C h ss sld s)) s := by
  obtain ⟨hM1, hM2⟩ := hM.take_drop
  subst hfixed hcOct hsLen
  rw [runAt_of_ready hr _ rfl, (trailer_eq_some_iff C h it T).mpr hT]
  simp only [isoCap_neg_iff, isoCap_toNat, hM1, hM2]

/-- R257: the checks of DS3_SIGN, in the order of R256, and its signature. -/
theorem runAt_ds3Sign_of_split (hr : Ready C (.ds3Sign h it um crt) s) (hT : TrailerIs C h it T) {fixed cOct : Nat}
    (hfixed : fixed = 8 * hLen C h + 8 * T.length + 2) (hcOct : cOct = ((s.privMod crt).k - fixed) / 8)
    (hM : Split (s.operand .msg) M1 M2 (s.m1bits.toNat / 8)) :
    runAt C (.ds3Sign h it um crt) s = complete
      (if (s.len .salt).toNat = 0 then .error .param 0
       else if (s.privMod crt).k < fixed then .error .capacity 0
       else if cOct < (s.len .salt).toNat then .error .capacity 0
       else if 8 * (cOct - (s.len .salt).toNat) < s.m1bits.toNat then .error .capacity 0
       else if s.m1bits.toNat % 8 ≠ 0 then .error .param 0
       else isoSign C h um crt s M1 M2 (s.operand .salt) T 0) s := by
  obtain ⟨hM1, hM2⟩ := hM.take_drop
  subst hfixed hcOct
  rw [runAt_of_ready hr _ rfl, (trailer_eq_some_iff C h it T).mpr hT]
  simp only [isoCap_neg_iff, isoCap_toNat, hM1, hM2]

/-- R244, R246, R257: a signature of an encoded message that fits is published: the domain check never fails. -/
theorem complete_isoSign_of_fits {salt : Bytes} (hI : Inv C s) (hv : s.slotValid (.priv crt) = true)
    (hs : (C.hashes h).isSome = true)
    (hfit : M1.length + salt.length + 1 + hLen C h + T.length ≤ ceil8 ((s.privMod crt).k - 1)) (used : Nat) :
    let x := os2ip (isoPssEm C h M1 M2 salt (s.privMod crt).k T)
    complete (isoSign C h um crt s M1 M2 salt T used) s =
      deliver (i2os (canonicalS um (privPower s crt x) (s.privMod crt).n) (s.privMod crt).klen) M2 (s.draws used) := by
  intro x
  obtain ⟨hn, hk, -, -, -⟩ := privMod_of_inv hI hv
  have hlt := os2ip_isoPssEm_lt hs (M2 := M2) hfit
  have hdom : x < (s.privMod crt).n := lt_of_lt_two_pow hn (hk ▸ hlt)
  rw [isoSign_eq, inDomain_of_lt hdom, complete_done]

end

/-- Settles O55: the string of the statement is `isoPssEm`; what the capacity admits fits it, and it is below the modulus. -/
theorem ds2AndDs3SignDeliverSignatureAndTail : Obligations.Ds2AndDs3SignDeliverSignatureAndTail := by
  refine ⟨by decide, by decide, fun s h it um crt ss sld T hT => ?_⟩
  intro K hl M fixed cOct EM Sig
  refine ⟨checksFirst _ s, checksFirst _ s, fun hI hr => ?ds2, fun hI hr => ?ds3⟩
  case ds2 =>
    intro sLen
    have hsalt : (saltOf cfg h ss sld s).length = sLen := length_saltOf hr.flags cfg h s
    have hrun {M1 M2 : Bytes} (hM : Split M M1 M2 (cOct - sLen)) :=
      runAt_ds2Sign_of_split hr hT (fixed := fixed) (cOct := cOct) (sLen := sLen) rfl rfl rfl hM
    rw [exec_eq_runAt]
    refine ⟨fun hcap => ?_, fun hfit hsl M1 M2 hM hlen =>
      ⟨saltOf cfg h ss sld s, hsalt, fun hss => saltOf_supplied cfg h hss sld s, ?_⟩⟩
    · obtain ⟨M1, M2, hM⟩ := exists_split M (cOct - sLen)
      rw [hrun hM]
      by_cases hk : K.k < fixed
      · rw [if_pos hk, complete_error, draws_zero]
      · rw [if_neg hk, if_pos (hcap.resolve_left hk), complete_error, draws_zero]
    · have hM1 : M1.length + sLen ≤ cOct := by
        have := min_le_right M.length (cOct - sLen)
        omega
      have hem : M1.length + (saltOf cfg h ss sld s).length + 1 + hLen cfg h + T.length ≤ ceil8 ((s.privMod crt).k - 1) :=
        le_ceil8_of_capacity hfit (hsalt ▸ hM1)
      rw [hrun ⟨hM, hlen⟩, if_neg hfit.not_gt, if_neg hsl.not_gt,
        complete_isoSign_of_fits hI hr.slot (hr.hash h rfl) hem]
      rfl
  case ds3 =>
    intro salt bits
    have hsalt : (s.len .salt).toNat = salt.length := (State.operand_length s .salt).symm
    have hempty : salt = [] ↔ salt.length = 0 := List.length_eq_zero_iff.symm
    have hrun {M1 M2 : Bytes} (hM : Split M M1 M2 (bits / 8)) :=
      runAt_ds3Sign_of_split hr hT (fixed := fixed) (cOct := cOct) rfl rfl hM
    rw [hsalt] at hrun
    obtain ⟨P, Q, hPQ⟩ := exists_split M (bits / 8)
    rw [exec_eq_runAt]
    refine ⟨fun hnil => ?_, fun hne hcap => ?_, fun hne hfit hsl hbits hmod => ?_,
      fun hne hfit hsl hbits hmod M1 M2 hM hlen => ?_⟩
    · rw [hrun hPQ, if_pos (hempty.mp hnil), complete_error, draws_zero]
    · rw [hrun hPQ, if_neg (mt hempty.mpr hne)]
      by_cases hk : K.k < fixed
      · rw [if_pos hk, complete_error, draws_zero]
      rw [if_neg hk]
      by_cases hsl : cOct < salt.length
      · rw [if_pos hsl, complete_error, draws_zero]
      · rw [if_neg hsl, if_pos ((hcap.resolve_left hk).resolve_left hsl), complete_error, draws_zero]
    · rw [hrun hPQ, if_neg (mt hempty.mpr hne), if_neg hfit.not_gt, if_neg hsl.not_gt, if_neg hbits.not_gt, if_pos hmod,
        complete_error, draws_zero]
    · have hM1 : M1.length + salt.length ≤ cOct := by
        have := min_le_right M.length (bits / 8)
        omega
      have hem : M1.length + salt.length + 1 + hLen cfg h + T.length ≤ ceil8 ((s.privMod crt).k - 1) :=
        le_ceil8_of_capacity hfit hM1
      rw [hrun ⟨hM, hlen⟩, if_neg (mt hempty.mpr hne), if_neg hfit.not_gt, if_neg hsl.not_gt, if_neg hbits.not_gt,
        if_neg (not_not.mpr hmod), complete_isoSign_of_fits hI hr.slot (hr.hash h rfl) hem]
      rfl

/-- Settles O58: each limit is one of the checks of DS3_SIGN, in their order. -/
theorem ds3LimitsAreExact : Obligations.Ds3LimitsAreExact := by
  intro C s h it um crt T hT hr fixed cOct hfit
  obtain ⟨M1, M2, hM⟩ := exists_split (s.operand .msg) (s.m1bits.toNat / 8)
  rw [runAt_ds3Sign_of_split hr hT (fixed := fixed) (cOct := cOct) rfl rfl hM]
  refine ⟨fun hpos hsl hbits => ?_, fun hsl => ?_, fun hzero => ?_⟩
  · rw [if_neg (by omega), if_neg hfit.not_gt, if_neg hsl.not_gt, if_pos (by omega), complete_error, draws_zero]
  · rw [if_neg (by omega), if_neg hfit.not_gt, if_pos (by omega), complete_error, draws_zero]
  · rw [if_pos hzero, complete_error, draws_zero]

/-! ## Acceptance -/

theorem runAt_isoVerify_of_ready {C : Config} {i : Instr} {s : State} {h : Sel} {sld : Bool}
    (hi : i = .ds2Verify h sld ∨ (i = .ds3Verify h ∧ sld = false)) (hr : Ready C i s) :
    (C.hashes h).isSome = true ∧ s.pub.valid = true ∧ runAt C i s = complete (isoVerify C h s (saltLen C h sld s)) s := by
  rcases hi with rfl | ⟨rfl, rfl⟩
  · exact ⟨hr.hash h rfl, hr.slot, runAt_of_ready hr _ rfl⟩
  · exact ⟨hr.hash h rfl, hr.slot, runAt_of_ready hr _ rfl⟩

/-- Settles O56: after the checks both commands complete with what `isoRecover_iff` says. -/
theorem ds2AndDs3VerifyAcceptExactlyEncodings : Obligations.Ds2AndDs3VerifyAcceptExactlyEncodings := by
  refine ⟨by decide, by decide, fun i s h sld hi => ⟨checksFirst _ s, fun hI hr => ?_⟩⟩
  intro hl sLen sig k fits IsEncoding
  obtain ⟨hs, -, hrun⟩ := runAt_isoVerify_of_ready hi hr
  have hiff (M1 : Bytes) := isoRecover_iff hs s sig M1 (s.operand .msg) sLen
  have hexec : exec i s = .next (complete (if fits then inDomain sig s.pub.n 0
      (decoded (isoRecover cfg h s sig (s.operand .msg) sLen)) else .error .capacity 0) s) := by
    rw [exec_eq_runAt, hrun, isoVerify_eq]
    rfl
  rw [hexec]
  refine ⟨fun hcap => ?_, fun hfit hle => ?_, fun J M1 hfit hlt hopens hem => ?_, fun hfit hlt hno => ?_⟩
  · rw [if_neg hcap, complete_error, draws_zero]
  · rw [if_pos hfit, inDomain_of_le hle, complete_error, draws_zero]
  · obtain ⟨it, T, salt, hT, hsalt, hlen, hJ⟩ := hem
    rw [if_pos hfit, inDomain_of_lt hlt, (hiff M1).mpr ⟨J, it, T, salt, hopens, hT, hsalt, hlen, hJ⟩, complete_decoded_some]
  · have hnone : isoRecover cfg h s sig (s.operand .msg) sLen = none := by
      refine Option.eq_none_iff_forall_ne_some.mpr fun M1 hM1 => ?_
      obtain ⟨J, it, T, salt, hopens, hT, hsalt, hlen, hJ⟩ := (hiff M1).mp hM1
      exact hno J M1 hopens ⟨it, T, salt, hT, hsalt, hlen, hJ⟩
    rw [if_pos hfit, inDomain_of_lt hlt, hnone, complete_decoded_none]

end Sys2Proof.Machine

/-! PROOFS of the statements about what the ISO/IEC 9796-2 sign commands published: the minimum signature (R259) and the recovery
of the message by the verify commands (R230, R248, R260). -/

namespace Sys2Proof.Machine

/-! ## What a sign command that ends with E_OK has published -/

/-- A command that the common checks turn away does not end with E_OK (R297). -/
theorem ready_of_err_ok {C : Config} {i : Instr} {s : State} (h : (runAt C i s).err = .ok) : Ready C i s := by
  by_contra hr
  obtain ⟨e, hpre, -⟩ := guarded_of_not_ready hr
  rw [runAt_of_preCheck hpre] at h
  obtain rfl : e = .ok := h
  rcases preCheck_codes hpre with h | h <;> cases h

/-- R296: a check that fails does not end with E_OK. -/
theorem not_of_err_ok {p : Prop} [Decidable p] {e : Err} {used : Nat} {r : Result} {s : State}
    (h : (complete (if p then .error e used else r) s).err = .ok) (he : e ≠ .ok) : ¬ p := by
  intro hp
  rw [if_pos hp] at h
  exact he h

theorem lt_of_err_ok {m n used : Nat} {r : Result} {s : State} (h : (complete (inDomain m n used r) s).err = .ok) : m < n :=
  Nat.not_le.mp (not_of_err_ok h nofun)

/-- R223: there is a trailer to sign with, or the hash has no identifier. -/
theorem exists_trailer (C : Config) (h : Sel) (it : Bool) : (∃ T, TrailerIs C h it T) ∨ (it = false ∧ hashID C h = none) := by
  cases it with
  | true => exact .inl ⟨_, .inl ⟨rfl, rfl⟩⟩
  | false =>
    cases hid : hashID C h with
    | none => exact .inr ⟨rfl, rfl⟩
    | some i => exact .inl ⟨_, .inr ⟨rfl, i, hid, rfl⟩⟩

/-- `t` is `s` with the signature of the integer `x` in OUT and `M2` in AUX (R228, R246, R257). -/
structure Signed (um crt : Bool) (s t : State) (x : Nat) (M2 : Bytes) : Prop where
  domain : x < (s.privMod crt).n
  completion : ∃ used, t = deliver
    (i2os (canonicalS um (privPower s crt x) (s.privMod crt).n) (s.privMod crt).klen) M2 (s.draws used)

section
variable {C : Config} {s : State} {h : Sel} {it um crt ss sld : Bool}

theorem signed_of_inDomain {x used : Nat} {M2 : Bytes} {r : Result}
    (hr : r = inDomain x (s.privMod crt).n used
      (.done (i2os (canonicalS um (privPower s crt x) (s.privMod crt).n) (s.privMod crt).klen) M2 used))
    (hok : (complete r s).err = .ok) : Signed um crt s (complete r s) x M2 := by
  subst hr
  have hlt := lt_of_err_ok hok
  exact ⟨hlt, used, by rw [inDomain_of_lt hlt, complete_done]⟩

/-- R228: DS1_SIGN ends with E_OK when there is a trailer and the capacity is not negative; it has signed the DSI. -/
theorem ds1Sign_of_err_ok (hok : (runAt C (.ds1Sign h it um crt) s).err = .ok) : ∃ T, TrailerIs C h it T ∧
    8 * hLen C h + 8 * T.length + 4 ≤ (s.privMod crt).k ∧
    Signed um crt s (runAt C (.ds1Sign h it um crt) s) (ds1Dsi C h (s.operand .msg) (s.privMod crt).k T).1
      (ds1Dsi C h (s.operand .msg) (s.privMod crt).k T).2.2 := by
  have hr := ready_of_err_ok hok
  rcases exists_trailer C h it with ⟨T, hT⟩ | ⟨rfl, hid⟩
  · rw [runAt_ds1Sign_of_trailer hr hT] at hok ⊢
    have hcap := not_of_err_ok hok nofun
    rw [if_neg hcap] at hok ⊢
    exact ⟨T, hT, Nat.not_lt.mp hcap, signed_of_inDomain rfl hok⟩
  · rw [(explicitTrailerNeedsIdentifier C s h um crt false false hid).1 hr] at hok
    cases hok

/-- R243, R244, R256: `t` is `s` with the signature of the encoding of `M1` and `M2` under some salt of `sLen` octets, all of which
fit the capacity. -/
def IsoSigned (C : Config) (h : Sel) (it um crt : Bool) (s t : State) (M1 M2 : Bytes) (sLen : Nat) : Prop :=
  ∃ T salt, TrailerIs C h it T ∧ salt.length = sLen ∧ 8 * hLen C h + 8 * T.length + 2 ≤ (s.privMod crt).k ∧
    M1.length + sLen ≤ ((s.privMod crt).k - (8 * hLen C h + 8 * T.length + 2)) / 8 ∧
    Signed um crt s t (os2ip (isoPssEm C h M1 M2 salt (s.privMod crt).k T)) M2

/-- R246: what DS2_SIGN has signed when it ends with E_OK. -/
theorem ds2Sign_of_err_ok (hok : (runAt C (.ds2Sign h it um crt ss sld) s).err = .ok) : ∃ M1 M2,
    Split (s.operand .msg) M1 M2
      (((s.privMod crt).k - (8 * hLen C h + 8 * (if it then 1 else 2) + 2)) / 8 - saltLen C h sld s) ∧
    IsoSigned C h it um crt s (runAt C (.ds2Sign h it um crt ss sld) s) M1 M2 (saltLen C h sld s) := by
  have hr := ready_of_err_ok hok
  rcases exists_trailer C h it with ⟨T, hT⟩ | ⟨rfl, hid⟩
  · rw [← trailerIs_length hT]
    obtain ⟨M1, M2, hM⟩ := exists_split (s.operand .msg)
      (((s.privMod crt).k - (8 * hLen C h + 8 * T.length + 2)) / 8 - saltLen C h sld s)
    rw [runAt_ds2Sign_of_split hr hT rfl rfl rfl hM] at hok ⊢
    have hfit := not_of_err_ok hok nofun
    rw [if_neg hfit] at hok ⊢
    have hsalt := not_of_err_ok hok nofun
    rw [if_neg hsalt] at hok ⊢
    have hlen := hM.length
    exact ⟨M1, M2, hM, T, _, hT, length_saltOf hr.flags C h s, Nat.not_lt.mp hfit, by omega,
      signed_of_inDomain (isoSign_eq ..) hok⟩
  · rw [(explicitTrailerNeedsIdentifier C s h um crt ss sld hid).2.1 hr] at hok
    cases hok

/-- R257: what DS3_SIGN has signed when it ends with E_OK. -/
theorem ds3Sign_of_err_ok (hok : (runAt C (.ds3Sign h it um crt) s).err = .ok) : ∃ M1 M2,
    Split (s.operand .msg) M1 M2 (s.m1bits.toNat / 8) ∧
    IsoSigned C h it um crt s (runAt C (.ds3Sign h it um crt) s) M1 M2 (s.len .salt).toNat := by
  have hr := ready_of_err_ok hok
  rcases exists_trailer C h it with ⟨T, hT⟩ | ⟨rfl, hid⟩
  · obtain ⟨M1, M2, hM⟩ := exists_split (s.operand .msg) (s.m1bits.toNat / 8)
    rw [runAt_ds3Sign_of_split hr hT rfl rfl hM] at hok ⊢
    have hzero := not_of_err_ok hok nofun
    rw [if_neg hzero] at hok ⊢
    have hfit := not_of_err_ok hok nofun
    rw [if_neg hfit] at hok ⊢
    have hsalt := not_of_err_ok hok nofun
    rw [if_neg hsalt] at hok ⊢
    have hbits := not_of_err_ok hok nofun
    rw [if_neg hbits] at hok ⊢
    have hmod := not_of_err_ok hok nofun
    rw [if_neg hmod] at hok ⊢
    have hlen := hM.length
    exact ⟨M1, M2, hM, T, _, hT, State.operand_length s .salt, Nat.not_lt.mp hfit, by omega,
      signed_of_inDomain (isoSign_eq ..) hok⟩
  · rw [(explicitTrailerNeedsIdentifier C s h um crt false false hid).2.2 hr] at hok
    cases hok

end

/-! ## The minimum signature -/

theorem canonicalS_le {S n : Nat} (hS : S < n) (um : Bool) : canonicalS um S n < n := by
  unfold canonicalS
  split <;> omega

theorem canonicalS_minimum {S n : Nat} (hS : S < n) :
    canonicalS true S n ≤ n - canonicalS true S n ∧
      (2 * canonicalS true S n ≠ n → canonicalS true S n < n - canonicalS true S n) := by
  simp only [canonicalS, true_and]
  split <;> omega

/-- R259: with UM = 1 the published integer is at most its complement. -/
theorem Signed.minimum {C : Config} {s t : State} {crt : Bool} {x : Nat} {M2 : Bytes} (hmax : C.maxBuf < 2 ^ 32)
    (hI : Inv C s) (hv : s.slotValid (.priv crt) = true) (hsigned : Signed true crt s t x M2) :
    let y := os2ip (t.operand .out)
    let n := (s.privMod crt).n
    y ≤ n - y ∧ (2 * y ≠ n → y < n - y) := by
  intro y n
  obtain ⟨-, used, rfl⟩ := hsigned
  obtain ⟨-, hk, hklen, hbuf, hlt⟩ := privMod_of_inv hI hv
  have hS := hlt x
  have hlt' : canonicalS true (privPower s crt x) n < 256 ^ (s.privMod crt).klen := by
    rw [hklen, hk]
    exact (canonicalS_le hS true).trans (lt_pow_ceil8_bitlen _)
  have hy : y = canonicalS true (privPower s crt x) n := by
    show os2ip _ = _
    rw [deliver_operand_out (by rw [length_i2os]; omega), os2ip_i2os_of_lt hlt']
  rw [hy]
  exact canonicalS_minimum hS

/-- Settles O59: whichever sign command it is, it published the canonical one of a signature and its complement. -/
theorem minimumSignaturesAreCanonical : Obligations.MinimumSignaturesAreCanonical := by
  intro C s h it crt ss sld i hmax hI hi hok
  have hr := ready_of_err_ok hok
  rcases hi with rfl | rfl | rfl
  · obtain ⟨T, -, -, hsigned⟩ := ds1Sign_of_err_ok hok
    exact hsigned.minimum hmax hI hr.slot
  · obtain ⟨M1, M2, -, T, salt, -, -, -, -, hsigned⟩ := ds2Sign_of_err_ok hok
    exact hsigned.minimum hmax hI hr.slot
  · obtain ⟨M1, M2, -, T, salt, -, -, -, -, hsigned⟩ := ds3Sign_of_err_ok hok
    exact hsigned.minimum hmax hI hr.slot

/-! ## Recovery -/

/-- R223: a string that ends in a trailer has the low nibble 0xC. -/
theorem os2ip_append_trailer {C : Config} {h : Sel} {it : Bool} {T : Bytes} (hT : TrailerIs C h it T) (X : Bytes) :
    os2ip (X ++ T) % 16 = 12 := by
  have hlow (Y : Bytes) (b : Byte) (hb : b.toNat % 16 = 12) : os2ip (Y ++ [b]) % 16 = 12 := by
    have hval : os2ip [b] = b.toNat := by simp [os2ip_cons]
    rw [os2ip_append, hval, List.length_singleton]
    omega
  rcases hT with ⟨-, rfl⟩ | ⟨-, i, -, rfl⟩
  · exact hlow X 0xBC rfl
  · rw [show X ++ [i, 0xCC] = (X ++ [i]) ++ [0xCC] by simp]
    exact hlow _ 0xCC rfl

/-- R226: with a consistent key, the published integer is below the modulus and opens to the integer that was signed. -/
theorem RsaKey.opens {C : Config} {s t u : State} {um crt : Bool} {p q d x : Nat} {M2 : Bytes} (hK : RsaKey s crt p q d)
    (hmax : C.maxBuf < 2 ^ 32) (hI : Inv C s) (hpriv : s.slotValid (.priv crt) = true) (hpub : s.pub.valid = true)
    (hupub : u.pub = s.pub) (hlow : x % 16 = 12) (hsigned : Signed um crt s t x M2)
    (hinp : u.operand .inp = t.operand .out) :
    u.intOperand .inp < u.pub.n ∧ Opens u (u.intOperand .inp) x := by
  obtain ⟨hx, used, rfl⟩ := hsigned
  obtain ⟨-, hk, hklen, hbuf, hS⟩ := privMod_of_inv hI hpriv
  obtain ⟨-, he, -, -, -⟩ := pub_of_inv hI hpub
  have hsig := intOperand_of_delivered hmax hbuf
    (hklen ▸ hk ▸ (canonicalS_le (hS x) um).trans (lt_pow_ceil8_bitlen _)) hinp
  have hpower : pubPower s (privPower s crt x) = x := hK.pubPower_privPower he (hK.privMod_n ▸ hx)
  have hmod4 := mul_primes_mod_four hK.primeP hK.primeQ hK.distinct
  rw [hK.privMod_n] at hsig hx
  rw [Opens, hsig, hupub, pubPower_congr hupub]
  refine ⟨canonicalS_le (hK.privMod_n ▸ hS x) um, hlow, ?_⟩
  rw [← hK.modulus] at hmod4
  unfold canonicalS
  split
  · rw [hK.pubPower_sub (hK.privMod_n ▸ hS x) (by rw [hpower]; omega), hpower]
    exact .inr (by omega)
  · exact .inl hpower.symm

/-- R228, R246, R257: the tail of a message is handed on in AUX. -/
theorem Signed.operand_aux {s t : State} {um crt : Bool} {x : Nat} {M1 M2 : Bytes} (hsigned : Signed um crt s t x M2)
    (hM : M1 ++ M2 = s.operand .msg) : t.operand .aux = M2 := by
  obtain ⟨-, used, rfl⟩ := hsigned
  refine deliver_operand_aux _ ?_ _
  have hlen := congrArg List.length hM
  have hlt := (s.len .msg).isLt
  rw [List.length_append, State.operand_length] at hlen
  omega

/-- R222: the tail that ds1 leaves over is empty exactly when the message fits the capacity. -/
theorem ds1Dsi_tail_eq_nil_iff {C : Config} {h : Sel} {M T : Bytes} {k : Nat} (hk : 8 * hLen C h + 8 * T.length + 4 ≤ k) :
    (ds1Dsi C h M k T).2.2 = [] ↔ 8 * M.length + 8 * hLen C h + 8 * T.length + 4 ≤ k := by
  have hcap : (ds1Cap C h k T.length).toNat = k - (8 * hLen C h + 8 * T.length + 4) := by unfold ds1Cap; omega
  simp only [ds1Dsi, hcap, List.drop_eq_nil_iff]
  omega

/-- Settles O54: the signature opens to the DSI that was signed (`RsaKey.opens`), which the verify command accepts by
`ds1Recover_iff`. -/
theorem ds1VerifyRecoversMessage : Obligations.Ds1VerifyRecoversMessage := by
  intro C s u h it um crt hmax hI hkey hr hok hupub hru hinp hmsg
  obtain ⟨p, q, d, hK⟩ := exists_rsaKey hkey
  obtain ⟨T, hT, hfit, hsigned⟩ := ds1Sign_of_err_ok hok
  have hs : (C.hashes h).isSome = true := hr.hash h rfl
  have hpub : s.pub.valid = true := hupub ▸ hru.slot
  have hk : (s.privMod crt).k = u.pub.k := by rw [hK.privMod_eq hI hpub hr.slot, hupub]; rfl
  have hT1 : 1 ≤ T.length := by rw [trailerIs_length hT]; split <;> omega
  have hM := ds1Dsi_append C h (s.operand .msg) (s.privMod crt).k T
  obtain ⟨-, -, hlow⟩ := ds1Parse_ds1Dsi (M := s.operand .msg) hs hT hfit
  obtain ⟨hdom, hopens⟩ := hK.opens hmax hI hr.slot hpub hupub hlow hsigned hinp
  have hM2 := hmsg.trans (hsigned.operand_aux hM)
  have hrecover := (ds1Recover_iff hs u (u.intOperand .inp) (ds1Dsi C h (s.operand .msg) (s.privMod crt).k T).2.1
    (u.operand .msg)).mpr ⟨_, it, T, hopens, hT, hk ▸ hfit, by rw [hM2, hM, ← hk]⟩
  refine ⟨(ds1Dsi C h (s.operand .msg) (s.privMod crt).k T).2.1, ?_, ?_, ?_⟩
  · rw [runAt_ds1Verify_of_ready hru, if_neg (by omega), inDomain_of_lt hdom, hrecover, complete_decoded_some]
  · rw [hM2, hM]
  · rw [hM2, ← trailerIs_length hT]
    exact ds1Dsi_tail_eq_nil_iff hfit

/-- R248, R260: what DS2_SIGN or DS3_SIGN has signed, a verify command with that salt length recovers. -/
theorem isoVerify_of_isoSigned {C : Config} {s t u : State} {h : Sel} {it um crt : Bool} {p q d sLen : Nat} {M1 M2 : Bytes}
    (hK : RsaKey s crt p q d) (hmax : C.maxBuf < 2 ^ 32) (hI : Inv C s) (hpriv : s.slotValid (.priv crt) = true)
    (hpub : s.pub.valid = true) (hs : (C.hashes h).isSome = true) (hupub : u.pub = s.pub)
    (hsigned : IsoSigned C h it um crt s t M1 M2 sLen) (hinp : u.operand .inp = t.operand .out) (hM2 : u.operand .msg = M2) :
    isoVerify C h u sLen = decoded (some M1) := by
  obtain ⟨T, salt, hT, hsalt, hfit, hcap, hx⟩ := hsigned
  have hk : (s.privMod crt).k = u.pub.k := by rw [hK.privMod_eq hI hpub hpriv, hupub]; rfl
  have hT1 : 1 ≤ T.length := by rw [trailerIs_length hT]; split <;> omega
  obtain ⟨hdom, hopens⟩ := hK.opens hmax hI hpriv hpub hupub (os2ip_append_trailer hT _) hx hinp
  rw [hk] at hfit hcap hopens
  have hlen := le_ceil8_of_capacity hfit hcap
  have hrecover := (isoRecover_iff hs u (u.intOperand .inp) M1 (u.operand .msg) sLen).mpr
    ⟨_, it, T, salt, hopens, hT, hsalt, hlen, by rw [hM2]; rfl⟩
  rw [isoVerify_eq, if_pos (by omega), inDomain_of_lt hdom, hrecover]

/-- Settles O57: both sign commands have signed an encoding (`IsoSigned`), which either verify command recovers. -/
theorem ds2AndDs3VerifyRecoverMessage : Obligations.Ds2AndDs3VerifyRecoverMessage := by
  intro C s u h it um crt ss sld i j sLen hmax hI hkey hi hj hr hok hupub hru hinp hmsg
  obtain ⟨p, q, d, hK⟩ := exists_rsaKey hkey
  have hverify : ∃ sld', (j = .ds2Verify h sld' ∨ (j = .ds3Verify h ∧ sld' = false)) ∧ sLen = saltLen C h sld' u := by
    rcases hj with ⟨rfl, hsLen⟩ | ⟨rfl | rfl, hsLen⟩
    · exact ⟨true, .inl rfl, hsLen⟩
    · exact ⟨false, .inl rfl, hsLen⟩
    · exact ⟨false, .inr ⟨rfl, rfl⟩, hsLen⟩
  obtain ⟨sld', hj', hsLen'⟩ := hverify
  obtain ⟨hs, hupubValid, hrun⟩ := runAt_isoVerify_of_ready hj' hru
  have hpub : s.pub.valid = true := hupub ▸ hupubValid
  have hrecover {M1 M2 : Bytes} (hpriv : s.slotValid (.priv crt) = true) (hM : s.operand .msg = M1 ++ M2)
      (hsigned : IsoSigned C h it um crt s (runAt C i s) M1 M2 sLen) :
      runAt C j u = deliver M1 [] u ∧ M1 ++ u.operand .msg = s.operand .msg := by
    obtain ⟨_, _, -, -, -, -, hx⟩ := id hsigned
    have hM2 := hmsg.trans (hx.operand_aux hM.symm)
    rw [hrun, ← hsLen', isoVerify_of_isoSigned hK hmax hI hpriv hpub hs hupub hsigned hinp hM2, complete_decoded_some, hM2, hM]
    exact ⟨rfl, rfl⟩
  rcases hi with ⟨rfl, rfl⟩ | ⟨rfl, rfl⟩
  · obtain ⟨M1, M2, hM, hsigned⟩ := ds2Sign_of_err_ok hok
    obtain ⟨hj, happend⟩ := hrecover hr.slot hM.append hsigned
    exact ⟨M1, hj, happend, fun _ => hM.length, nofun⟩
  · obtain ⟨M1, M2, hM, hsigned⟩ := ds3Sign_of_err_ok hok
    obtain ⟨hj, happend⟩ := hrecover hr.slot hM.append hsigned
    exact ⟨M1, hj, happend, nofun, fun _ => hM.length⟩

end Sys2Proof.Machine
